-- ==== Sys2Proof/Word.lean ====
section
/-! DEFINITION. The word types of the OWC and the signal, the unit of everything the transceiver sends and captures. -/

namespace Sys2Proof

/-- A byte of DATABUF, of a byte sequence, or of the wire (00_scope R6). -/
abbrev Byte := BitVec 8

/-- A count of microseconds or of entries that a 16-bit register field shows (00_scope R7, 10_state R32-R34). -/
abbrev Half := BitVec 16

/-- A host register word (10_state R21). -/
abbrev Word := BitVec 32

/-- DATA, `sid`, `starget`, a DeviceId (10_state R31, R44). -/
abbrev Long := BitVec 64

/-- A signal (00_scope R7): the line at `level` (false = 0 low, true = 1 high) for `period` microseconds. -/
structure Signal where
  level  : Bool
  period : Half
deriving DecidableEq, Repr

/-- A low signal of `p` microseconds. -/
abbrev Signal.low (p : Half) : Signal := ⟨false, p⟩

/-- A high signal of `p` microseconds. -/
abbrev Signal.high (p : Half) : Signal := ⟨true, p⟩

end Sys2Proof
end

