-- ==== Sys2Proof/Syntax.lean ====
section
/-! DEFINITION. The commands of the OWC and the ROM bytes: one constructor per row of spec/opcode_table.json. -/

namespace Sys2Proof

/-- The rows of spec/opcode_table.json in its order (30_encoding R104, 43_rom R230). `n` is the COUNT field as a number
(R101), `pwr` the PWR bit, `alm` the ALM bit (R102). SEARCH_START has a constructor for each of its three rows (R108). -/
inductive Instr where
  | encWrite (n : Nat)
  | encWriteBytes (n : Nat)
  | encRead (n : Nat)
  | decode (n : Nat)
  | decodeBytes (n : Nat)
  | reset
  | writeBits (pwr : Bool) (n : Nat)
  | writeBytes (pwr : Bool) (n : Nat)
  | readBits (n : Nat)
  | readBytes (n : Nat)
  | setPower (pwr : Bool)
  | close
  | crc8Id
  | crc8Bytes (n : Nat)
  | select
  | skip
  | readRom
  | searchStartPlain (alm : Bool)
  | searchStartFamily (alm : Bool)
  | searchStartPing
  | searchNext
  | searchSkipFamily
  | searchStop
  /-- The wire byte 0x55 that SELECT issues. -/
  | romMatch
  /-- The wire byte 0xCC that SKIP issues. -/
  | romSkip
  /-- The wire byte 0xF0 that a search pass with `salm` = 0 issues. -/
  | romSearch
  /-- The wire byte 0x33 that READ_ROM issues. -/
  | romRead
  /-- The wire byte 0xEC that a search pass with `salm` = 1 issues. -/
  | romSearchAlarm
deriving DecidableEq, Repr

/-- An encoded instruction: a command word as the host writes it to CMD (30_encoding R100), or a ROM byte as it is
sent on the bus (43_rom R230). -/
inductive Code where
  | cmd (w : Word)
  | rom (b : Byte)
deriving DecidableEq, Repr

/-- The COUNT operand of an instruction; 0 for one that has no COUNT field (30_encoding R104). -/
def Instr.count : Instr → Nat
  | .encWrite n | .encWriteBytes n | .encRead n | .decode n | .decodeBytes n => n
  | .writeBits _ n | .writeBytes _ n | .readBits n | .readBytes n | .crc8Bytes n => n
  | .reset | .setPower _ | .close | .crc8Id | .select | .skip | .readRom => 0
  | .searchStartPlain _ | .searchStartFamily _ | .searchStartPing => 0
  | .searchNext | .searchSkipFamily | .searchStop => 0
  | .romMatch | .romSkip | .romSearch | .romRead | .romSearchAlarm => 0

end Sys2Proof
end

