-- ==== Sys2Proof/WellFormed.lean ====
section
/-! DEFINITION. Which instructions have an encoding. -/

namespace Sys2Proof

/-- An instruction has an encoding when its count fits the 8-bit COUNT field, 0 to 255 (30_encoding R101). This is the
only check: every value of PWR and ALM is encodable, and the illegal combinations of SMODE and ALM (R103) have no
constructor. A count outside a command's own legal range is well-formed: it raises INVALID_ARGUMENT (R101). -/
abbrev Instr.WellFormed (i : Instr) : Prop := i.count < 256

end Sys2Proof
end

