-- ==== Sys2Proof/Decode.lean ====
section
/-! DEFINITION. Decoding of command words and ROM bytes, total, and the encoder. -/

namespace Sys2Proof

/-- Why a code is no instruction. Each stands for one line of 30_encoding R106, or for a byte that is no ROM command. -/
inductive Reject where
  /-- A 1 in [15:12] or [31:24]. -/
  | reservedBits
  /-- An OP that 30_encoding R104 does not list. -/
  | unassignedOp
  /-- PWR = 1 in a command that does not use it. -/
  | powerUnused
  /-- ALM = 1 or SMODE ≠ 0 in a command other than SEARCH_START. -/
  | searchFieldUnused
  /-- COUNT ≠ 0 in a command that does not use it. -/
  | countUnused
  /-- SEARCH_START with SMODE = 3, or with SMODE = 2 and ALM = 1. -/
  | searchMode
  /-- A byte that is not in the table of 43_rom R230. -/
  | notRomByte
deriving DecidableEq, Repr

/-- The fields of a command word (30_encoding R100). -/
structure CmdFields where
  op    : BitVec 8
  pwr   : Bool
  alm   : Bool
  smode : BitVec 2
  low   : BitVec 4
  count : BitVec 8
  high  : BitVec 8
deriving DecidableEq, Repr

/-- The fields of the command word `w` (30_encoding R100): `low` is the reserved [15:12], `high` the reserved [31:24]. -/
def cmdFields (w : Word) : CmdFields where
  op    := w.extractLsb' 0 8
  pwr   := w.getLsbD 8
  alm   := w.getLsbD 9
  smode := w.extractLsb' 10 2
  low   := w.extractLsb' 12 4
  count := w.extractLsb' 16 8
  high  := w.extractLsb' 24 8

/-- The word with the given fields (30_encoding R100). -/
def CmdFields.toWord (f : CmdFields) : Word :=
  f.high ++ f.count ++ f.low ++ f.smode ++ BitVec.ofBool f.alm ++ BitVec.ofBool f.pwr ++ f.op

/-- The OP values of 30_encoding R104. -/
def cmdOps : List (BitVec 8) :=
  [0x01, 0x02, 0x03, 0x04, 0x05, 0x10, 0x11, 0x12, 0x13, 0x14, 0x15, 0x1F,
   0x20, 0x21, 0x30, 0x31, 0x32, 0x40, 0x41, 0x42, 0x43]

/-- The OP values whose command uses PWR (30_encoding R106). -/
def pwrOps : List (BitVec 8) := [0x11, 0x12, 0x15]

/-- The OP values whose command uses COUNT (30_encoding R106). -/
def countOps : List (BitVec 8) := [0x01, 0x02, 0x03, 0x04, 0x05, 0x11, 0x12, 0x13, 0x14, 0x21]

/-- The command of each OP of 30_encoding R104, its operands taken from the fields its row uses. -/
def instrOf (f : CmdFields) : Except Reject Instr :=
  if f.op = 0x01 then .ok (.encWrite f.count.toNat)
  else if f.op = 0x02 then .ok (.encWriteBytes f.count.toNat)
  else if f.op = 0x03 then .ok (.encRead f.count.toNat)
  else if f.op = 0x04 then .ok (.decode f.count.toNat)
  else if f.op = 0x05 then .ok (.decodeBytes f.count.toNat)
  else if f.op = 0x10 then .ok .reset
  else if f.op = 0x11 then .ok (.writeBits f.pwr f.count.toNat)
  else if f.op = 0x12 then .ok (.writeBytes f.pwr f.count.toNat)
  else if f.op = 0x13 then .ok (.readBits f.count.toNat)
  else if f.op = 0x14 then .ok (.readBytes f.count.toNat)
  else if f.op = 0x15 then .ok (.setPower f.pwr)
  else if f.op = 0x1F then .ok .close
  else if f.op = 0x20 then .ok .crc8Id
  else if f.op = 0x21 then .ok (.crc8Bytes f.count.toNat)
  else if f.op = 0x30 then .ok .select
  else if f.op = 0x31 then .ok .skip
  else if f.op = 0x32 then .ok .readRom
  else if f.op = 0x40 then
    if f.smode = 0 then .ok (.searchStartPlain f.alm)
    else if f.smode = 1 then .ok (.searchStartFamily f.alm)
    else if f.smode = 2 ∧ f.alm = false then .ok .searchStartPing
    else .error .searchMode
  else if f.op = 0x41 then .ok .searchNext
  else if f.op = 0x42 then .ok .searchSkipFamily
  else if f.op = 0x43 then .ok .searchStop
  else .error .unassignedOp

/-- The decoder of command words, the checks in the order of 30_encoding R106 (the last of them, on SMODE, stands in
`instrOf`). -/
def decodeCmd (w : Word) : Except Reject Instr :=
  let f := cmdFields w
  if f.low ≠ 0 ∨ f.high ≠ 0 then .error .reservedBits
  else if f.op ∉ cmdOps then .error .unassignedOp
  else if f.pwr = true ∧ f.op ∉ pwrOps then .error .powerUnused
  else if (f.alm = true ∨ f.smode ≠ 0) ∧ f.op ≠ 0x40 then .error .searchFieldUnused
  else if f.count ≠ 0 ∧ f.op ∉ countOps then .error .countUnused
  else instrOf f

/-- The decoder of ROM bytes (43_rom R230). -/
def decodeRom (b : Byte) : Except Reject Instr :=
  if b = 0x55 then .ok .romMatch
  else if b = 0xCC then .ok .romSkip
  else if b = 0xF0 then .ok .romSearch
  else if b = 0x33 then .ok .romRead
  else if b = 0xEC then .ok .romSearchAlarm
  else .error .notRomByte

/-- The decoder of either kind of code. -/
def decodeCode : Code → Except Reject Instr
  | .cmd w => decodeCmd w
  | .rom b => decodeRom b

/-- The word of a command with OP `op` and the given fields, reserved bits 0 (30_encoding R100). -/
def cmdWord (op : BitVec 8) (pwr alm : Bool) (smode : BitVec 2) (n : Nat) : Code :=
  .cmd (CmdFields.toWord ⟨op, pwr, alm, smode, 0, BitVec.ofNat 8 n, 0⟩)

/-- The encoder: the command words of 30_encoding R115 and the ROM bytes of 43_rom R230. -/
def encode : Instr → Code
  | .encWrite n        => cmdWord 0x01 false false 0 n
  | .encWriteBytes n   => cmdWord 0x02 false false 0 n
  | .encRead n         => cmdWord 0x03 false false 0 n
  | .decode n          => cmdWord 0x04 false false 0 n
  | .decodeBytes n     => cmdWord 0x05 false false 0 n
  | .reset             => cmdWord 0x10 false false 0 0
  | .writeBits p n     => cmdWord 0x11 p false 0 n
  | .writeBytes p n    => cmdWord 0x12 p false 0 n
  | .readBits n        => cmdWord 0x13 false false 0 n
  | .readBytes n       => cmdWord 0x14 false false 0 n
  | .setPower p        => cmdWord 0x15 p false 0 0
  | .close             => cmdWord 0x1F false false 0 0
  | .crc8Id            => cmdWord 0x20 false false 0 0
  | .crc8Bytes n       => cmdWord 0x21 false false 0 n
  | .select            => cmdWord 0x30 false false 0 0
  | .skip              => cmdWord 0x31 false false 0 0
  | .readRom           => cmdWord 0x32 false false 0 0
  | .searchStartPlain a  => cmdWord 0x40 false a 0 0
  | .searchStartFamily a => cmdWord 0x40 false a 1 0
  | .searchStartPing   => cmdWord 0x40 false false 2 0
  | .searchNext        => cmdWord 0x41 false false 0 0
  | .searchSkipFamily  => cmdWord 0x42 false false 0 0
  | .searchStop        => cmdWord 0x43 false false 0 0
  | .romMatch          => .rom 0x55
  | .romSkip           => .rom 0xCC
  | .romSearch         => .rom 0xF0
  | .romRead           => .rom 0x33
  | .romSearchAlarm    => .rom 0xEC

/-- The code that `nbits` bits `w`, numbered as spec/opcode_table.json numbers them, stand for: a row of one byte is a
ROM byte, a longer row a command word. -/
def codeOfTable (nbits w : Nat) : Code :=
  if nbits ≤ 8 then .rom (BitVec.ofNat 8 w) else .cmd (BitVec.ofNat 32 w)

/-- The instruction that the decoder reads from a word of spec/opcode_table.json. -/
def decodeTableWord (nbits w : Nat) : Option Instr :=
  (decodeCode (codeOfTable nbits w)).toOption

end Sys2Proof
end

