-- ==== Sys2Proof/Machine/Checksum.lean ====
section
/-! DEFINITION. The CRC-8 functions (42_crc R210, R211). -/

namespace Sys2Proof.Machine

/-- The polynomial, reflected (42_crc R210). -/
def crcPoly : Byte := 0x8C

/-- `n` bit steps of crc8_bytes (42_crc R210) on the byte `b`. -/
def crcBits : Nat → Byte → Byte → Byte
  | 0, crc, _ => crc
  | n + 1, crc, b =>
    let mix := (crc ^^^ b).getLsbD 0
    let crc := crc >>> 1
    crcBits n (if mix then crc ^^^ crcPoly else crc) (b >>> 1)

/-- crc8_bytes (42_crc R210): initial value 0, no final XOR. -/
def crc8Bytes (bs : List Byte) : Byte :=
  bs.foldl (fun crc b => crcBits 8 crc b) 0

/-- Byte `i` of a 64-bit value, byte 0 the low one (20_memory R63). -/
def byteOf (v : Long) (i : Nat) : Byte := v.extractLsb' (8 * i) 8

/-- crc8_id (42_crc R211): the CRC of bytes 0 to 6. -/
def crc8Id (id : Long) : Byte :=
  crc8Bytes ((List.range 7).map (byteOf id))

/-- An ID is valid (42_crc R211, 30_encoding R112). -/
def idValid (id : Long) : Bool := crc8Id id == byteOf id 7

end Sys2Proof.Machine
end

