-- ==== Sys2Proof/Machine/Signals.lean ====
section
/-! DEFINITION. The signal codec's constants and pure functions (40_codec R140-R147). -/

namespace Sys2Proof.Machine

/-- RESET_LOW (40_codec R140). -/
def resetLow : Half := 480
/-- RESET_HIGH_BEFORE_SAMPLE, I (40_codec R140). -/
def resetHighBeforeSample : Half := 70
/-- RESET_HIGH_AFTER_SAMPLE, J (40_codec R140). -/
def resetHighAfterSample : Half := 410
/-- RESET_HIGH = I + J (40_codec R140). -/
def resetHigh : Half := resetHighBeforeSample + resetHighAfterSample
/-- RESET_IDLE_THRESHOLD (40_codec R140). -/
def resetIdleThreshold : Half := 530
/-- IO_TIME_SLOT (40_codec R140), the length of a write slot. -/
def ioTimeSlot : Half := 70
/-- READ_LOW (40_codec R140). -/
def readLow : Half := 6
/-- READ_HIGH_BEFORE_SAMPLE, E (40_codec R140). -/
def readHighBeforeSample : Half := 14
/-- READ_HIGH_AFTER_SAMPLE, F (40_codec R140). -/
def readHighAfterSample : Half := 55
/-- READ_HIGH = E + F (40_codec R140). -/
def readHigh : Half := readHighBeforeSample + readHighAfterSample
/-- WRITE_0_LOW (40_codec R140). -/
def write0Low : Half := 60
/-- WRITE_1_LOW (40_codec R140). -/
def write1Low : Half := 6
/-- IDLE_THRESHOLD (40_codec R140), the threshold outside a reset. -/
def idleThreshold : Half := 75
/-- SIGNALS_PER_BIT (40_codec R140). -/
def signalsPerBit : Nat := 2
/-- RESET_RESPONSE_TIMEOUT in milliseconds (00_scope R5). -/
def resetResponseTimeout : Nat := 500

/-- The two signals of a write slot of bit `b` (40_codec R143). -/
def writeSlot (b : Bool) : List Signal :=
  let low := if b then write1Low else write0Low
  [.low low, .high (ioTimeSlot - low)]

/-- encode_write (40_codec R143): `count` write slots, bit 0 of `bits` first. -/
def encodeWrite (bits : Long) (count : Nat) : List Signal :=
  (List.range count).flatMap fun i => writeSlot (bits.getLsbD i)

/-- encode_write_bytes (40_codec R144). -/
def encodeWriteBytes (bs : List Byte) : List Signal :=
  bs.flatMap fun b => encodeWrite (b.setWidth 64) 8

/-- encode_read (40_codec R145): `n` read slots. -/
def encodeRead (n : Nat) : List Signal :=
  (List.range n).flatMap fun _ => [.low readLow, .high readHigh]

/-- The reset pulse (41_link R171). -/
def resetPulse : List Signal := [.low resetLow, .high resetHigh]

/-- The bits of the first `n` pairs of a signal list; `none` when a pair is missing or is not a level-0 signal followed
by a level-1 signal (40_codec R146). -/
def decodePairs : Nat → List Signal → Option (List Bool)
  | 0, _ => some []
  | n + 1, lo :: hi :: rest =>
    if lo.level = false ∧ hi.level = true then
      (decodePairs n rest).map (decide (lo.period < readHighBeforeSample) :: ·)
    else none
  | _ + 1, _ => none

/-- The number whose bit k is the k-th of the list (40_codec R146, R148), modulo 2^64. -/
def bitsToLong (bs : List Bool) : Long :=
  bs.foldr (fun b v => (v <<< 1) ||| (BitVec.ofBool b).setWidth 64) 0

/-- decode (40_codec R146): `none` is INVALID_SIGNAL. -/
def decode (l : List Signal) (start n : Nat) : Option Long :=
  if start + signalsPerBit * n ≤ l.length then (decodePairs n (l.drop start)).map bitsToLong else none

/-- decode_bytes (40_codec R147): the bytes at signal offsets 16·fromByte, 16·(fromByte + 1), …; `none` is
INVALID_SIGNAL. -/
def decodeBytes (l : List Signal) (fromByte : Nat) : Nat → Option (List Byte)
  | 0 => some []
  | n + 1 =>
    match decode l (fromByte * (8 * signalsPerBit)) 8, decodeBytes l (fromByte + 1) n with
    | some v, some bs => some (v.setWidth 8 :: bs)
    | _, _ => none

end Sys2Proof.Machine
end

