-- ==== Sys2Proof/Config.lean ====
section
/-! DEFINITION. The implementation parameters that 00_scope R5 leaves open, and the one free value of the spec. -/

namespace Sys2Proof

/-- The OPEN parameters of 00_scope R5 (93 W1-W6). A State holds one `Config` (its field `cfg`), no step changes it,
and a statement over every state is a statement over every choice of the parameters (DESIGN CHOICE, log 6). -/
structure Config where
  /-- `OWC_BASE`, the platform address of the register block. -/
  owcBase       : Nat
  /-- `SIGBUF_ENTRIES`, even, 2 to 1024. -/
  sigbufEntries : Nat
  /-- `DATABUF_BYTES`, a multiple of 4, 8 to 256. -/
  databufBytes  : Nat
  /-- `PULL_UP`. -/
  pullUp        : Bool
  /-- `RX_FILTER_TICKS`, in the transceiver's unit. -/
  rxFilterTicks : Nat
  /-- `RX_BUFFER_SIZE`, in the transceiver's unit. -/
  rxBufferSize  : Nat
deriving DecidableEq, Repr

/-- The defaults of 00_scope R5. `OWC_BASE` has none there: 0 is the model's (DESIGN CHOICE, log 6). -/
def Config.default : Config where
  owcBase       := 0
  sigbufEntries := 1024
  databufBytes  := 64
  pullUp        := false
  rxFilterTicks := 30
  rxBufferSize  := 1024

/-- The constraints of 00_scope R5 on the parameters. -/
abbrev Config.wf (c : Config) : Prop :=
  2 ≤ c.sigbufEntries ∧ c.sigbufEntries ≤ 1024 ∧ c.sigbufEntries % 2 = 0 ∧
  8 ≤ c.databufBytes ∧ c.databufBytes ≤ 256 ∧ c.databufBytes % 4 = 0

/-- FREE VALUE (70 R351, 93 U3; log 5): what a host read of a register other than STATUS returns while BUSY = 1.
The argument is the state's count of draws, so that each such read has a value of its own. Nothing constrains it. -/
opaque Config.busyRead : Nat → Word

end Sys2Proof
end

