-- ==== Sys2Proof/Machine/State.lean ====
section
/-! DEFINITION. The state of the OWC as plain data, what can stop a step, and the state right after hardware reset. -/

namespace Sys2Proof.Machine

/-- The error kinds of 60_exceptions R300, by name; `Flags.lean` gives their numbers. -/
inductive ErrKind where
  | none
  | busClosed
  | noDevice
  | busError
  | crcError
  | invalidSignal
  | invalidArgument
  | transport
  | illegalCommand
deriving DecidableEq, Repr

/-- The sequencer's control states (10_state R51). -/
inductive Phase where
  | idle
  | exec
  | waitPort
  | yield
deriving DecidableEq, Repr

/-- `smode` (10_state R48): which of the three searches of 44_search R250 runs or ran last. -/
inductive SearchMode where
  | plain
  | family
  | ping
deriving DecidableEq, Repr

/-- The outcomes of a PortTx (20_memory R71). -/
inductive TxOutcome where
  | ok
  | error
deriving DecidableEq, Repr

/-- The outcomes of a PortTxRx (20_memory R72). -/
inductive RxOutcome where
  | captured (cl : List Signal)
  | timeout
  | error
deriving DecidableEq, Repr

/-- What the port environment answers to an outstanding transaction (20_memory R78). -/
inductive PortAnswer where
  | tx (o : TxOutcome)
  | txRx (o : RxOutcome)
deriving DecidableEq, Repr

/-- An event of the port history (20_memory R77): the timeout `tmo` in milliseconds, `od` the open-drain mode at issue. -/
inductive PortEvent where
  | tx (signals : List Signal) (od : Bool) (outcome : TxOutcome)
  | txRx (signals : List Signal) (thr : Half) (tmo : Option Nat) (od : Bool) (outcome : RxOutcome)
  | close
deriving DecidableEq, Repr

/-- The local copies of a search pass (44_search R252) and its bit position (10_state R51). While the one-bit write of
position `p` is outstanding, bit `p` of `id` is the bit b' being written. -/
structure Pass where
  id : Long
  l  : Int
  lf : Int
  p  : Nat
deriving DecidableEq, Repr

/-- What the sequencer does when a LinkReset (41_link R171) has returned a boolean: which command's it was. -/
inductive AfterReset where
  | reset
  | select
  | skip
  | readRom
  | pass
deriving DecidableEq, Repr

/-- What the sequencer does when a transmission has ended with `Ok`. -/
inductive AfterWrite where
  /-- The command ends: WRITE_BITS, SKIP, the ID of SELECT, a ROM byte sent by its own row. -/
  | done
  /-- WRITE_BYTES: the bytes still to be sent (41_link R179). -/
  | writeBytes (rest : List Byte)
  /-- SELECT: MATCH is sent, the ID follows (43_rom R231). -/
  | selectId
  /-- READ_ROM: READ is sent, the 64-bit read follows (43_rom R233). -/
  | readRomId
  /-- A search pass: its ROM byte is sent, bit 0 follows (44_search R252). -/
  | passRom
  /-- A search pass: the bit b' of position `ps.p` is sent (44_search R252 3f). -/
  | passBit (ps : Pass)
deriving DecidableEq, Repr

/-- What the sequencer does when a LinkReadBits (41_link R175) has returned a value. -/
inductive AfterRead where
  /-- READ_BITS, READ_ROM: the value goes to DATA. -/
  | toData
  /-- A search pass: the value is the bit b of position `ps.p` (44_search R252 3a). -/
  | passBit (ps : Pass)
  /-- A search pass: the value is the complement bit c of position `ps.p`, whose bit was `b`. -/
  | passCmp (ps : Pass) (b : Bool)
deriving DecidableEq, Repr

/-- What the sequencer does with the outcome of an outstanding PortTxRx. -/
inductive AfterTxRx where
  | linkReset (k : AfterReset)
  | linkRead (n : Nat) (k : AfterRead)
  | readBytes (n : Nat)
deriving DecidableEq, Repr

/-- The outstanding port transaction, with the open-drain mode at its issue and what follows its outcome
(10_state R51 WAIT_PORT; log 17). -/
inductive Wait where
  | tx (signals : List Signal) (od : Bool) (k : AfterWrite)
  | txRx (signals : List Signal) (thr : Half) (tmo : Option Nat) (od : Bool) (k : AfterTxRx)
deriving DecidableEq, Repr

/-- What the outside world does next (00_scope R9; DESIGN CHOICE, logs 1 and 12). -/
inductive Input where
  /-- A host read at a platform address, of `width` bytes (20_memory R65). -/
  | read (addr width : Nat)
  /-- A host write at a platform address, of `width` bytes (20_memory R65). -/
  | write (addr width : Nat) (v : Word)
  /-- The port environment answers the outstanding transaction (20_memory R78). -/
  | port (a : PortAnswer)
  /-- A hardware reset (70 R340-R342). -/
  | hardReset
  /-- A ROM byte is handed to the link sequencer on its own (DESIGN CHOICE, log 12). -/
  | rom (b : Byte)
deriving DecidableEq, Repr

/-- The configuration of the port that a hardware reset makes (20_memory R76). -/
structure PortSetup where
  outIdleLevel  : Bool
  inIdleThr     : Half
  filterTicks   : Nat
  bufferSize    : Nat
  bidirectional : Bool
  pullUp        : Bool
deriving DecidableEq, Repr

/-- The state of the OWC (10_state R20), its parameters, and the model's own three last fields. -/
structure State where
  /-- The parameters of 00_scope R5 (log 6). -/
  cfg       : Config
  /-- STATUS.BUSY (10_state R24). -/
  busy      : Bool
  /-- STATUS.ERR (10_state R25). -/
  err       : Bool
  /-- STATUS.ECODE (10_state R25). -/
  ecode     : ErrKind
  /-- STATUS.RES (10_state R26). -/
  res       : Bool
  /-- STATUS.IDRDY (10_state R27). -/
  idrdy     : Bool
  /-- STATUS.SACT (10_state R28). -/
  sact      : Bool
  /-- The link state `closed`, shown by STATUS.CLOSED (10_state R29, R40). -/
  closed    : Bool
  /-- The link state `open_drain`, shown by STATUS.OD (10_state R30, R41). -/
  openDrain : Bool
  /-- DATA (10_state R31). -/
  data      : Long
  /-- ARG[15:0], FROM (10_state R32). -/
  arg       : Half
  /-- SIG_LEN[15:0] (10_state R33). -/
  sigLen    : Half
  /-- CRC[7:0] (10_state R38). -/
  crc       : Byte
  /-- The link state `idle_thr`, shown by IDLE_THR (10_state R34, R42). -/
  idleThr   : Half
  /-- `saved_thr` (10_state R42). Outside a reset transaction the spec leaves it open (93 U9): it keeps the threshold
  that the last one saved (DESIGN CHOICE, log 7). -/
  savedThr  : Half
  /-- `sid`, shown by SID_LO and SID_HI (10_state R37, R44). -/
  sid       : Long
  /-- last_unexplored_branch (10_state R45). -/
  lub       : Int
  /-- last_unexplored_family_branch (10_state R46). -/
  lufb      : Int
  /-- previous_last_unexplored_branch (10_state R47). -/
  plub      : Int
  /-- `smode` (10_state R48). -/
  smode     : SearchMode
  /-- `salm` (10_state R48). -/
  salm      : Bool
  /-- `sfam` (10_state R48). -/
  sfam      : Byte
  /-- `starget` (10_state R48). Outside a ping search the spec leaves it open (93 U9): it keeps the last ping's target
  (DESIGN CHOICE, log 8). -/
  starget   : Long
  /-- SIGBUF by entry index (10_state R49): rising indexes, an unlisted entry has no value (log 9). -/
  sigbuf    : List (Nat × Signal)
  /-- DATABUF by byte index (10_state R50): rising indexes, an unlisted byte has no value (log 9). -/
  databuf   : List Host.Cell
  /-- The sequencer's control state (10_state R51). -/
  phase     : Phase
  /-- The outstanding port transaction (10_state R51, R53). -/
  wait      : Option Wait
  /-- The port history, oldest event first (10_state R52). -/
  history   : List PortEvent
  /-- The port's configuration (20_memory R76). -/
  portSetup : PortSetup
  /-- The model's own: what happens next at the block's outside, in order (log 1). -/
  inputs    : List Input
  /-- The model's own: the word the last host read returned (log 4). -/
  rdata     : Word
  /-- The model's own: how many free values have been drawn (log 5). -/
  draws     : Nat
deriving DecidableEq, Repr

/-- Undefined behaviour of the host, for which 60_exceptions R307 and 93 (U1, U2, U4, V6) ask a model to stop. All
of them are safe: the model stops where hardware would do something. -/
inductive Fault where
  /-- A host access whose width is not 4 bytes (R65, U1). Raised by a host read or write. Safe. -/
  | accessWidth
  /-- A host access at an offset that is no multiple of 4 (R65, U1). Raised by a host read or write. Safe. -/
  | accessMisaligned
  /-- A host access outside OWC_BASE + 0x0000..0x1FFF (V6). Raised by a host read or write. Safe. -/
  | outsideBlock
  /-- A host write, or the start of a command, while BUSY = 1 (R350, U2). Raised by a host write and by every command.
  Safe. -/
  | writeWhileBusy
  /-- A read of SIGBUF entry `i`, which has no value (D32, U4). Raised by a host read, DECODE, DECODE_BYTES. Safe. -/
  | sigbufNoValue (i : Nat)
  /-- A read of DATABUF byte `i`, which has no value (D32, U4). Raised by a host read, ENC_WRITE_BYTES, WRITE_BYTES,
  CRC8_BYTES. Safe. -/
  | databufNoValue (i : Nat)
deriving DecidableEq, Repr

/-- Instructions without a meaning in this model. -/
inductive Refusal where
  /-- The instruction has no meaning yet. Raised by an arm of `exec` only; no arm of this model raises it. Safe. -/
  | notModelled (mnemonic : String)
deriving DecidableEq, Repr

/-- A step's outcome. -/
abbrev Result := Host.Outcome State Fault Refusal

/-- The port's configuration at hardware reset (20_memory R76). -/
def PortSetup.atReset (c : Config) : PortSetup where
  outIdleLevel  := true
  inIdleThr     := idleThreshold
  filterTicks   := c.rxFilterTicks
  bufferSize    := c.rxBufferSize
  bidirectional := true
  pullUp        := c.pullUp

/-- The block with parameters `c` right after a hardware reset (10_state R55, 70 R341). `savedThr` and `starget` are
unspecified there: 0 is the model's (DESIGN CHOICE, logs 7 and 8). The last three fields are the model's own. -/
def State.resetWith (c : Config) (inputs : List Input) (draws : Nat) : State where
  cfg       := c
  busy      := false
  err       := false
  ecode     := .none
  res       := false
  idrdy     := false
  sact      := false
  closed    := false
  openDrain := true
  data      := 0
  arg       := 0
  sigLen    := 0
  crc       := 0
  idleThr   := idleThreshold
  savedThr  := 0
  sid       := 0
  lub       := -1
  lufb      := -1
  plub      := -1
  smode     := .plain
  salm      := false
  sfam      := 0
  starget   := 0
  sigbuf    := []
  databuf   := []
  phase     := .idle
  wait      := none
  history   := []
  portSetup := PortSetup.atReset c
  inputs    := inputs
  rdata     := 0
  draws     := draws

/-- The block right after hardware reset (10_state R55, 70 R341), with the default parameters of 00_scope R5 and
nothing arriving from outside. -/
def State.reset : State := State.resetWith Config.default [] 0

end Sys2Proof.Machine
end

