-- ==== Sys2Proof/Machine/Flags.lean ====
section
/-! DEFINITION. What the flags and the register words show: ECODE's numbers, STATUS, the link and search views,
and the presence predicate that RESET reports in RES. -/

namespace Sys2Proof.Machine

/-- The number of an error kind in STATUS.ECODE (60_exceptions R300). -/
def ErrKind.code : ErrKind → BitVec 4
  | .none            => 0
  | .busClosed       => 1
  | .noDevice        => 2
  | .busError        => 3
  | .crcError        => 4
  | .invalidSignal   => 5
  | .invalidArgument => 6
  | .transport       => 7
  | .illegalCommand  => 8

/-- The number of a search mode in SRCH1 (10_state R36, R48). -/
def SearchMode.code : SearchMode → BitVec 2
  | .plain  => 0
  | .family => 1
  | .ping   => 2

/-- One bit of a register word. -/
abbrev bit (b : Bool) : BitVec 1 := BitVec.ofBool b

/-- STATUS as the host reads it (10_state R23). -/
def statusWord (s : State) : Word :=
  (0 : BitVec 20) ++ s.ecode.code ++ (0 : BitVec 1) ++ bit s.openDrain ++ bit s.closed ++ bit s.sact ++
    bit s.idrdy ++ bit s.res ++ bit s.err ++ bit s.busy

/-- DATA_LO (10_state R31). -/
def dataLoWord (s : State) : Word := s.data.extractLsb' 0 32
/-- DATA_HI (10_state R31). -/
def dataHiWord (s : State) : Word := s.data.extractLsb' 32 32
/-- ARG (10_state R32). -/
def argWord (s : State) : Word := (0 : BitVec 16) ++ s.arg
/-- SIG_LEN (10_state R33). -/
def sigLenWord (s : State) : Word := (0 : BitVec 16) ++ s.sigLen
/-- IDLE_THR (10_state R34). -/
def idleThrWord (s : State) : Word := (0 : BitVec 16) ++ s.idleThr
/-- CRC (10_state R38). -/
def crcWord (s : State) : Word := (0 : BitVec 24) ++ s.crc

/-- A branch register as a two's-complement byte (10_state R35). -/
def branchByte (b : Int) : Byte := BitVec.ofInt 8 b

/-- SRCH0 (10_state R35). -/
def srch0Word (s : State) : Word :=
  (0 : BitVec 8) ++ branchByte s.plub ++ branchByte s.lufb ++ branchByte s.lub

/-- SRCH1 (10_state R36). -/
def srch1Word (s : State) : Word :=
  (0 : BitVec 21) ++ s.smode.code ++ bit s.salm ++ s.sfam

/-- SID_LO (10_state R37). -/
def sidLoWord (s : State) : Word := s.sid.extractLsb' 0 32
/-- SID_HI (10_state R37). -/
def sidHiWord (s : State) : Word := s.sid.extractLsb' 32 32

/-- PARAMS (10_state R39). -/
def paramsWord (s : State) : Word :=
  BitVec.ofNat 16 s.cfg.databufBytes ++ BitVec.ofNat 16 s.cfg.sigbufEntries

/-- A SIGBUF entry as the host reads it (30_encoding R110). -/
def signalWord (sg : Signal) : Word := (0 : BitVec 15) ++ bit sg.level ++ sg.period

/-- The SIGBUF entry that a host write of `w` stores (30_encoding R110). -/
def signalOfWord (w : Word) : Signal := ⟨w.getLsbD 16, w.extractLsb' 0 16⟩

/-- presence (41_link R172) on a captured list. -/
def presence : List Signal → Bool
  | e0 :: e1 :: e2 :: _ =>
    !e0.level && decide (resetLow - 2 ≤ e0.period) && decide (e0.period ≤ resetLow + 10) &&
    e1.level && decide (0 < e1.period) && !e2.level && decide (0 < e2.period)
  | _ => false

end Sys2Proof.Machine
end

