-- ==== Sys2Proof/Machine/Ops.lean ====
section
/-! DEFINITION. The named operations: the buffers, the start and the end of a command, ending it with an error, and
the pin mode, the threshold and the port transactions. -/

namespace Sys2Proof.Machine

/-- The value at key `k` of a sparse buffer; `none` is no value (10_state R49, R50; log 9). -/
def bufRead {α : Type} (k : Nat) : List (Nat × α) → Option α
  | [] => none
  | (j, v) :: t => if j = k then some v else bufRead k t

/-- Write of `v` at key `k`, keeping the keys rising. -/
def bufWrite {α : Type} (k : Nat) (v : α) : List (Nat × α) → List (Nat × α)
  | [] => [(k, v)]
  | (j, w) :: t =>
    if k < j then (k, v) :: (j, w) :: t
    else if k = j then (k, v) :: t
    else (j, w) :: bufWrite k v t

/-- Writes of a list at the keys `k`, `k + 1`, …. -/
def bufWriteList {α : Type} (k : Nat) : List α → List (Nat × α) → List (Nat × α)
  | [], m => m
  | v :: vs, m => bufWriteList (k + 1) vs (bufWrite k v m)

/-- The values at the keys `k`, …, `k + n - 1`, or the first key among them that has none. -/
def bufReadList {α : Type} (m : List (Nat × α)) (k : Nat) : Nat → Except Nat (List α)
  | 0 => .ok []
  | n + 1 =>
    match bufRead k m with
    | none => .error k
    | some v =>
      match bufReadList m (k + 1) n with
      | .ok vs => .ok (v :: vs)
      | .error e => .error e

/-- The canonical form of a sparse buffer of `size` entries: keys strictly rising and below `size`. An unlisted key
has no value, so no entry can equal what an unlisted key reads as. -/
abbrev bufWf {α : Type} (size : Nat) (m : List (Nat × α)) : Prop :=
  m.Pairwise (fun a b => a.1 < b.1) ∧ ∀ e ∈ m, e.1 < size

/-- Both buffers are in canonical form and within their sizes (10_state R49, R50). -/
abbrev Memory.wf (s : State) : Prop :=
  bufWf s.cfg.sigbufEntries s.sigbuf ∧ bufWf s.cfg.databufBytes s.databuf

/-- The phase at rest: YIELD while a delivered ID waits for its answer, else IDLE (10_state R51; log 18). -/
def restPhase (idrdy : Bool) : Phase := if idrdy then .yield else .idle

/-- The start of a command: BUSY set, ERR and ECODE cleared (10_state R24, R25). -/
def beginCommand (s : State) : State :=
  { s with busy := true, err := false, ecode := .none, phase := .exec, wait := none }

/-- The end of a command: BUSY cleared (10_state R24). -/
def finish (s : State) : State :=
  { s with busy := false, phase := restPhase s.idrdy, wait := none }

/-- `raise Error(e)` (60_exceptions R305): the command ends with ERR and ECODE set and nothing else written. This is
the OWC's one exception entry; there is no return from it (R306): the next `beginCommand` clears both. -/
def raise (e : ErrKind) (s : State) : State :=
  finish { s with err := true, ecode := e }

/-- The search ends: SACT and IDRDY cleared (10_state R27, R28). -/
def clearSearch (s : State) : State :=
  { s with sact := false, idrdy := false }

/-- EndSearch(r) (44_search R258). -/
def endSearch (r : Bool) (s : State) : State :=
  { clearSearch s with res := r }

/-- `raise Error(e)` in a command of which `inPass` says whether it is inside a search pass: there the error also ends
the search (60_exceptions R305, 44_search R260). -/
def raiseIn (inPass : Bool) (e : ErrKind) (s : State) : State :=
  raise e (if inPass then clearSearch s else s)

/-- PortSetOpenDrain(b) (20_memory R73): no event. -/
def setOpenDrain (b : Bool) (s : State) : State := { s with openDrain := b }

/-- PortSetIdleThreshold(t) (20_memory R74): no event. -/
def setIdleThr (t : Half) (s : State) : State := { s with idleThr := t }

/-- Issue of PortTx(l) (20_memory R71): the transaction is outstanding. -/
def portTx (l : List Signal) (k : AfterWrite) (s : State) : State :=
  { s with phase := .waitPort, wait := some (.tx l s.openDrain k) }

/-- Issue of PortTxRx(l, thr, tmo) (20_memory R72): the transaction is outstanding. -/
def portTxRx (l : List Signal) (thr : Half) (tmo : Option Nat) (k : AfterTxRx) (s : State) : State :=
  { s with phase := .waitPort, wait := some (.txRx l thr tmo s.openDrain k) }

/-- A transaction has its outcome: its event is appended and it is outstanding no longer (20_memory R77). -/
def logEvent (e : PortEvent) (s : State) : State :=
  { s with phase := .exec, wait := none, history := s.history ++ [e] }

/-- PortClose() (20_memory R75, R77). -/
def portClose (s : State) : State := { s with history := s.history ++ [.close] }

/-- The link check of 41_link R170. -/
def requireOpen (s : State) (body : State → State) : State :=
  if s.closed then raise .busClosed s else body s

end Sys2Proof.Machine
end

