-- ==== Sys2Proof/Machine/Operands.lean ====
section
/-! DEFINITION. The operand forms of 30_encoding R107 and the ROM bytes of 43_rom R230. -/

namespace Sys2Proof.Machine

/-- The family byte, DATA[7:0] (30_encoding R107). -/
def familyOperand (s : State) : Byte := s.data.extractLsb' 0 8

/-- The start index `from`, ARG[15:0] (30_encoding R107). -/
def fromOperand (s : State) : Nat := s.arg.toNat

/-- The size of the signal list operand, SIG_LEN (10_state R33). -/
def signalCount (s : State) : Nat := s.sigLen.toNat

/-- SIGBUF[k .. k+n-1] (30_encoding R107); the fault of D32 where an entry among them has no value. -/
def signalsOperand (s : State) (k n : Nat) : Except Fault (List Signal) :=
  (bufReadList s.sigbuf k n).mapError .sigbufNoValue

/-- DATABUF[0 .. n-1] (30_encoding R107); the fault of D32 where a byte among them has no value. -/
def bytesOperand (s : State) (n : Nat) : Except Fault (List Byte) :=
  (bufReadList s.databuf 0 n).mapError .databufNoValue

/-- SIGBUF[0 ..] <- l and SIG_LEN <- size(l) (40_codec R150-R152). -/
def storeSignals (l : List Signal) (s : State) : State :=
  { s with sigbuf := bufWriteList 0 l s.sigbuf, sigLen := BitVec.ofNat 16 l.length }

/-- DATABUF[0 ..] <- bs (40_codec R154, 41_link R181). -/
def storeBytes (bs : List Byte) (s : State) : State :=
  { s with databuf := bufWriteList 0 bs s.databuf }

/-- The ROM byte MATCH (43_rom R230). -/
def romMatchByte : Byte := 0x55
/-- The ROM byte SKIP (43_rom R230). -/
def romSkipByte : Byte := 0xCC
/-- The ROM byte SEARCH (43_rom R230). -/
def romSearchByte : Byte := 0xF0
/-- The ROM byte READ (43_rom R230). -/
def romReadByte : Byte := 0x33
/-- The ROM byte SEARCH_ALARM (43_rom R230). -/
def romSearchAlarmByte : Byte := 0xEC

/-- The ROM byte of a search pass (44_search R252 step 2). -/
def searchByte (alarm : Bool) : Byte := if alarm then romSearchAlarmByte else romSearchByte

end Sys2Proof.Machine
end

