-- ==== Sys2Proof/Machine/Sequencer.lean ====
section
/-! DEFINITION. The sequencer: the link procedures (41_link R171, R174, R175), the search procedures (44_search
R251-R259), what follows the outcome of each port transaction, and the frame every command runs in. -/

namespace Sys2Proof.Machine

/-- LinkReset() up to its transaction (41_link R171). -/
def linkReset (k : AfterReset) (s : State) : State :=
  portTxRx resetPulse resetIdleThreshold (some resetResponseTimeout) (.linkReset k)
    (setIdleThr resetIdleThreshold { s with savedThr := s.idleThr })

/-- LinkWriteBits(v, n, pwr) up to its transaction (41_link R174), for n ≥ 1. The case n = 0, which only WRITE_BITS
has, stands in its own meaning. -/
def linkWriteBits (v : Long) (n : Nat) (pwr : Bool) (k : AfterWrite) (s : State) : State :=
  portTx (encodeWrite v n) k (setOpenDrain (!pwr) s)

/-- A ROM byte sent by ROM-command framing or the search: LinkWriteBits(b, 8, 0) (43_rom R230, D18). -/
def linkWriteRom (b : Byte) (k : AfterWrite) (s : State) : State :=
  linkWriteBits (b.setWidth 64) 8 false k s

/-- LinkReadBits(n) up to its transaction (41_link R175), for n ≥ 1. The case n = 0, which only READ_BITS has, stands
in its own meaning. -/
def linkReadBits (n : Nat) (k : AfterRead) (s : State) : State :=
  let s := setOpenDrain true s
  portTxRx (encodeRead n) s.idleThr none (.linkRead n k) s

/-- SearchInit(m, alm) (44_search R251). -/
def searchInit (m : SearchMode) (alm : Bool) (s : State) : State :=
  let s := { s with smode := m, salm := alm, lub := -1, lufb := -1, sact := true, idrdy := false }
  match m with
  | .plain  => { s with sid := 0, plub := -1, sfam := 0 }
  | .family => { s with sid := (familyOperand s).setWidth 64, plub := 8, sfam := familyOperand s }
  | .ping   => { s with sid := s.data, plub := 64, sfam := 0, starget := s.data }

/-- The start of SearchPass(), and so of SearchStep(): its reset (44_search R252 step 1). -/
def searchStep (s : State) : State := linkReset .pass s

/-- The local copies at the start of a pass (44_search R252). -/
def passStart (s : State) : Pass := { id := s.sid, l := s.lub, lf := s.lufb, p := 0 }

/-- The end of a pass without error writes its local copies back (44_search R252 "commit"). -/
def passCommit (ps : Pass) (s : State) : State :=
  { s with sid := ps.id, lub := ps.l, lufb := ps.lf }

/-- SearchStep() on the result Candidate(id) (44_search R258). -/
def searchCandidate (id : Long) (s : State) : State :=
  match s.smode with
  | .ping => finish (endSearch (id == s.starget) s)
  | .family =>
    if byteOf id 0 ≠ s.sfam then finish (endSearch false s)
    else finish { s with data := id, res := true, idrdy := true }
  | .plain => finish { s with data := id, res := true, idrdy := true }

/-- The end of a pass after 64 bits: the CRC check, the commit, the candidate (44_search R252 step 4, R257). -/
def passEnd (ps : Pass) (s : State) : State :=
  if idValid ps.id then searchCandidate ps.id (passCommit ps s) else raiseIn true .crcError s

/-- The bit b' that a collision at position `p` chooses, `q` being plub and `id` the pass's id (44_search R253). -/
def collisionBit (p : Nat) (q : Int) (id : Long) : Bool :=
  if (p : Int) < q then id.getLsbD p else decide ((p : Int) = q)

/-- Bit `p` of `id` set to `b` (44_search R256). -/
def setIdBit (id : Long) (p : Nat) (b : Bool) : Long :=
  (id &&& ~~~((1 : Long) <<< p)) ||| (((BitVec.ofBool b).setWidth 64) <<< p)

/-- The pass after the choice of b' at its position: recording, when a collision chose 0 (44_search R254), and bit p of
the id (R256). -/
def passChoose (collision b' : Bool) (ps : Pass) : Pass :=
  let ps := if collision && !b' then
      { ps with l := (ps.p : Int), lf := if ps.p < 8 then (ps.p : Int) else ps.lf }
    else ps
  { ps with id := setIdBit ps.id ps.p b' }

/-- Steps 3b to 3f of a pass at its position, whose bit read `b` and complement read `c` (44_search R252). -/
def passDecide (ps : Pass) (b c : Bool) (s : State) : State :=
  if b && c then
    if s.salm then finish (endSearch false (passCommit ps s)) else raiseIn true .busError s
  else
    let collision := !b && !c
    let b' := if collision then collisionBit ps.p s.plub ps.id else b
    linkWriteBits ((BitVec.ofBool b').setWidth 64) 1 false (.passBit (passChoose collision b' ps)) s

/-- SearchAdvance(skip) (44_search R259). -/
def searchAdvance (skip : Bool) (s : State) : State :=
  let q := if skip then s.lufb else s.lub
  let s := { s with idrdy := false, plub := q, lub := -1, lufb := -1 }
  if q = -1 then finish (endSearch false s) else searchStep s

/-- A LinkReset has returned `present`: the rest of RESET (41_link R177), SELECT, SKIP, READ_ROM (43_rom R231-R233) or
a search pass (44_search R252 steps 1 and 2, R258). -/
def afterReset (k : AfterReset) (present : Bool) (s : State) : State :=
  match k with
  | .reset   => finish { s with res := present }
  | .select  => if present then linkWriteRom romMatchByte .selectId s else raise .noDevice s
  | .skip    => if present then linkWriteRom romSkipByte .done s else raise .noDevice s
  | .readRom => linkWriteRom romReadByte .readRomId s
  | .pass    => if present then linkWriteRom (searchByte s.salm) .passRom s else finish (endSearch false s)

/-- A transmission has ended with `Ok`. -/
def afterWrite (k : AfterWrite) (s : State) : State :=
  match k with
  | .done => finish s
  | .writeBytes [] => finish s
  | .writeBytes (b :: rest) => portTx (encodeWrite (b.setWidth 64) 8) (.writeBytes rest) s
  | .selectId => linkWriteBits s.data 64 false .done s
  | .readRomId => linkReadBits 64 .toData s
  | .passRom => linkReadBits 1 (.passBit (passStart s)) s
  | .passBit ps =>
    if ps.p < 63 then linkReadBits 1 (.passBit { ps with p := ps.p + 1 }) s else passEnd ps s

/-- A LinkReadBits has returned `v`. -/
def afterRead (k : AfterRead) (v : Long) (s : State) : State :=
  match k with
  | .toData => finish { s with data := v }
  | .passBit ps => linkReadBits 1 (.passCmp ps (v.getLsbD 0)) s
  | .passCmp ps b => passDecide ps b (v.getLsbD 0) s

/-- Whether a transaction's command is inside a search pass, so that its error ends the search (60_exceptions R305). -/
def AfterReset.inPass : AfterReset → Bool
  | .pass => true
  | .reset | .select | .skip | .readRom => false

/-- See `AfterReset.inPass`. -/
def AfterWrite.inPass : AfterWrite → Bool
  | .passRom | .passBit _ => true
  | .done | .writeBytes _ | .selectId | .readRomId => false

/-- See `AfterReset.inPass`. -/
def AfterRead.inPass : AfterRead → Bool
  | .passBit _ | .passCmp _ _ => true
  | .toData => false

/-- The outcome of a PortTx (41_link R174, R179). -/
def onTx (k : AfterWrite) (o : TxOutcome) (s : State) : State :=
  match o with
  | .ok    => afterWrite k s
  | .error => raiseIn k.inPass .transport s

/-- The rest of LinkReset() (41_link R171, R173): the threshold is restored on every outcome. `savedThr` keeps the
threshold it restored, although outside a LinkReset its value is open (93 U9; DESIGN CHOICE, log 7). -/
def onLinkReset (k : AfterReset) (o : RxOutcome) (s : State) : State :=
  let s := setIdleThr s.savedThr s
  match o with
  | .timeout     => afterReset k false s
  | .error       => raiseIn k.inPass .transport s
  | .captured cl => afterReset k (presence cl) s

/-- The rest of LinkReadBits(n) (41_link R175), on the two outcomes a transaction without timeout has. -/
def onLinkRead (n : Nat) (k : AfterRead) (captured : Option (List Signal)) (s : State) : State :=
  match captured with
  | none    => raiseIn k.inPass .transport s
  | some cl =>
    match decode cl 0 n with
    | none   => raiseIn k.inPass .invalidSignal s
    | some v => afterRead k v s

/-- The rest of READ_BYTES (41_link R181), on the two outcomes a transaction without timeout has. -/
def onReadBytes (n : Nat) (captured : Option (List Signal)) (s : State) : State :=
  match captured with
  | none    => raise .transport s
  | some cl =>
    match decodeBytes cl 0 n with
    | none    => raise .invalidSignal s
    | some bs => finish (storeBytes bs s)

/-- The captured list of an outcome, `none` where there is none. -/
def RxOutcome.list : RxOutcome → Option (List Signal)
  | .captured cl => some cl
  | .timeout | .error => none

/-- The outcome of a PortTxRx. -/
def onTxRx (k : AfterTxRx) (o : RxOutcome) (s : State) : State :=
  match k with
  | .linkReset k  => onLinkReset k o s
  | .linkRead n k => onLinkRead n k o.list s
  | .readBytes n  => onReadBytes n o.list s

/-- An answer of the port environment reaches the outstanding transaction: the event is appended and the command goes
on to its next transaction or to its end. `none` where the answer is no outcome of it (20_memory R78: a Timeout of a
transaction without one, an answer to the other kind of transaction, or nothing outstanding; log 3). -/
def deliver (a : PortAnswer) (s : State) : Option State :=
  match s.wait, a with
  | some (.tx l od k), .tx o => some (onTx k o (logEvent (.tx l od o) s))
  | some (.txRx l thr tmo od k), .txRx o =>
    if o = .timeout ∧ tmo = none then none
    else some (onTxRx k o (logEvent (.txRx l thr tmo od o) s))
  | _, _ => none

/-- The command goes on through the port answers that stand next among the inputs `l`, until it ends or waits for an
outcome that is not there (log 2). `s.inputs` is `l`. -/
def settleWith : List Input → State → State
  | .port a :: rest, s =>
    match deliver a { s with inputs := rest } with
    | some s' => settleWith rest s'
    | none => s
  | _, s => s

/-- `settleWith` on the inputs of the state. -/
def settle (s : State) : State := settleWith s.inputs s

/-- The frame of every command: a start while BUSY = 1 is the host's fault (70 R350), else BUSY is set and ERR and
ECODE are cleared, `body` runs up to its first transaction or its end, and the port answers that follow are taken. -/
def command (s : State) (body : State → Result) : Result :=
  if s.busy then .fault .writeWhileBusy
  else
    match body (beginCommand s) with
    | .next t    => .next (settle t)
    | .fault f   => .fault f
    | .refused r => .refused r

/-- A command word that decodes to nothing (30_encoding R105). -/
def illegalWord (s : State) : Result := command s fun s => .next (raise .illegalCommand s)

end Sys2Proof.Machine
end

