-- ==== Sys2Proof/Machine/Codec.lean ====
section
/-! DEFINITION. The codec commands (40_codec R150-R154). They touch no link, search or port state (R149). -/

namespace Sys2Proof.Machine

/-- ENC_WRITE (40_codec R150). -/
def execEncWrite (n : Nat) (s : State) : Result :=
  command s fun s =>
    if 64 < n ∨ s.cfg.sigbufEntries < 2 * n then .next (raise .invalidArgument s)
    else .next (finish (storeSignals (encodeWrite s.data n) s))

/-- ENC_WRITE_BYTES (40_codec R151). -/
def execEncWriteBytes (n : Nat) (s : State) : Result :=
  command s fun s =>
    if s.cfg.databufBytes < n ∨ s.cfg.sigbufEntries < 16 * n then .next (raise .invalidArgument s)
    else
      match bytesOperand s n with
      | .error f => .fault f
      | .ok bs   => .next (finish (storeSignals (encodeWriteBytes bs) s))

/-- ENC_READ (40_codec R152). -/
def execEncRead (n : Nat) (s : State) : Result :=
  command s fun s =>
    if s.cfg.sigbufEntries < 2 * n then .next (raise .invalidArgument s)
    else .next (finish (storeSignals (encodeRead n) s))

/-- DECODE (40_codec R153). The entries from `from` to `from + 2n - 1` are read once their range is known to lie in the
list, and an entry among them without a value is the host's fault (D32; log 10). -/
def execDecode (n : Nat) (s : State) : Result :=
  command s fun s =>
    if 64 < n ∨ s.cfg.sigbufEntries < signalCount s then .next (raise .invalidArgument s)
    else if signalCount s < fromOperand s + 2 * n then .next (raise .invalidSignal s)
    else
      match signalsOperand s (fromOperand s) (2 * n) with
      | .error f => .fault f
      | .ok l =>
        match decode l 0 n with
        | none   => .next (raise .invalidSignal s)
        | some v => .next (finish { s with data := v })

/-- DECODE_BYTES (40_codec R154). With n = 0 no signal is examined, whatever `from` is. See `execDecode` on entries
without a value. -/
def execDecodeBytes (n : Nat) (s : State) : Result :=
  command s fun s =>
    if s.cfg.databufBytes < n ∨ s.cfg.sigbufEntries < signalCount s then .next (raise .invalidArgument s)
    else if n = 0 then .next (finish s)
    else if signalCount s < 16 * (fromOperand s + n) then .next (raise .invalidSignal s)
    else
      match signalsOperand s (16 * fromOperand s) (16 * n) with
      | .error f => .fault f
      | .ok l =>
        match decodeBytes l 0 n with
        | none    => .next (raise .invalidSignal s)
        | some bs => .next (finish (storeBytes bs s))

end Sys2Proof.Machine
end

