-- ==== Sys2Proof/Machine/Crc.lean ====
section
/-! DEFINITION. The CRC commands (42_crc R212, R213). They touch no link, search or port state. -/

namespace Sys2Proof.Machine

/-- CRC8_ID (42_crc R212). -/
def execCrc8Id (s : State) : Result :=
  command s fun s => .next (finish { s with crc := crc8Id s.data, res := idValid s.data })

/-- CRC8_BYTES (42_crc R213). -/
def execCrc8Bytes (n : Nat) (s : State) : Result :=
  command s fun s =>
    if s.cfg.databufBytes < n then .next (raise .invalidArgument s)
    else
      match bytesOperand s n with
      | .error f => .fault f
      | .ok bs   => .next (finish { s with crc := crc8Bytes bs })

end Sys2Proof.Machine
end

