-- ==== Sys2Proof/Machine/Link.lean ====
section
/-! DEFINITION. The link commands (41_link R177-R183). -/

namespace Sys2Proof.Machine

/-- RESET (41_link R177). -/
def execReset (s : State) : Result :=
  command s fun s => .next (requireOpen s fun s => linkReset .reset s)

/-- WRITE_BITS (41_link R178). With n = 0 it only sets the pin mode (D21). -/
def execWriteBits (pwr : Bool) (n : Nat) (s : State) : Result :=
  command s fun s => .next (requireOpen s fun s =>
    if 64 < n then raise .invalidArgument s
    else if n = 0 then finish (setOpenDrain (!pwr) s)
    else linkWriteBits s.data n pwr .done s)

/-- WRITE_BYTES (41_link R179): one transaction per byte (D17). A byte without a value is the host's fault before
anything is sent (D32; log 11). -/
def execWriteBytes (pwr : Bool) (n : Nat) (s : State) : Result :=
  command s fun s =>
    if s.closed then .next (raise .busClosed s)
    else if s.cfg.databufBytes < n then .next (raise .invalidArgument s)
    else
      match bytesOperand s n with
      | .error f => .fault f
      | .ok bs   => .next (afterWrite (.writeBytes bs) (setOpenDrain (!pwr) s))

/-- READ_BITS (41_link R180). With n = 0 it sets the pin mode and writes DATA <- 0 (D21). -/
def execReadBits (n : Nat) (s : State) : Result :=
  command s fun s => .next (requireOpen s fun s =>
    if 64 < n then raise .invalidArgument s
    else if n = 0 then finish { setOpenDrain true s with data := 0 }
    else linkReadBits n .toData s)

/-- READ_BYTES (41_link R181): one capture of 8·n slots (D16). With n = 0 it only sets the pin mode (D21). -/
def execReadBytes (n : Nat) (s : State) : Result :=
  command s fun s => .next (requireOpen s fun s =>
    if s.cfg.databufBytes < n then raise .invalidArgument s
    else
      let s := setOpenDrain true s
      if n = 0 then finish s
      else portTxRx (encodeRead (8 * n)) s.idleThr none (.readBytes n) s)

/-- SET_POWER (41_link R182). -/
def execSetPower (pwr : Bool) (s : State) : Result :=
  command s fun s => .next (requireOpen s fun s => finish (setOpenDrain (!pwr) s))

/-- CLOSE (41_link R183): an active search ends, one Close event; with the link closed already, nothing. -/
def execClose (s : State) : Result :=
  command s fun s =>
    if s.closed then .next (finish s)
    else .next (finish { portClose (clearSearch s) with closed := true })

end Sys2Proof.Machine
end

