-- ==== Sys2Proof/Machine/Rom.lean ====
section
/-! DEFINITION. The ROM commands (43_rom R231-R233) and the ROM bytes by their own rows (43_rom R230; log 12). -/

namespace Sys2Proof.Machine

/-- SELECT (43_rom R231): what follows the reset stands in `afterReset` and `afterWrite`. -/
def execSelect (s : State) : Result :=
  command s fun s => .next (requireOpen s fun s => linkReset .select s)

/-- SKIP (43_rom R232). -/
def execSkip (s : State) : Result :=
  command s fun s => .next (requireOpen s fun s => linkReset .skip s)

/-- READ_ROM (43_rom R233): the reset's result is not examined. -/
def execReadRom (s : State) : Result :=
  command s fun s => .next (requireOpen s fun s => linkReset .readRom s)

/-- A ROM byte sent on its own: the write that ROM-command framing makes (43_rom R230, 41_link R170, R174), and
nothing around it. -/
def sendRomByte (b : Byte) (s : State) : Result :=
  command s fun s => .next (requireOpen s fun s => linkWriteRom b .done s)

/-- The ROM byte MATCH (43_rom R230). -/
def execRomMatch (s : State) : Result := sendRomByte romMatchByte s

/-- The ROM byte SKIP (43_rom R230). -/
def execRomSkip (s : State) : Result := sendRomByte romSkipByte s

/-- The ROM byte SEARCH (43_rom R230). -/
def execRomSearch (s : State) : Result := sendRomByte romSearchByte s

/-- The ROM byte READ (43_rom R230). -/
def execRomRead (s : State) : Result := sendRomByte romReadByte s

/-- The ROM byte SEARCH_ALARM (43_rom R230). -/
def execRomSearchAlarm (s : State) : Result := sendRomByte romSearchAlarmByte s

end Sys2Proof.Machine
end

