-- ==== Sys2Proof/Machine/Search.lean ====
section
/-! DEFINITION. The search commands (44_search R261-R264). -/

namespace Sys2Proof.Machine

/-- SEARCH_START(alm, m) (44_search R261). -/
def searchStart (m : SearchMode) (alm : Bool) (s : State) : Result :=
  command s fun s =>
    if s.sact then .next (raise .illegalCommand s)
    else .next (requireOpen s fun s => searchStep (searchInit m alm s))

/-- The answer to a delivery, SEARCH_NEXT or SEARCH_SKIP_FAMILY (44_search R262, R263). -/
def searchAnswer (skip : Bool) (s : State) : Result :=
  command s fun s =>
    if s.idrdy then .next (requireOpen s fun s => searchAdvance skip s)
    else .next (raise .illegalCommand s)

/-- SEARCH_START PLAIN (44_search R261). -/
def execSearchStartPlain (alm : Bool) (s : State) : Result := searchStart .plain alm s

/-- SEARCH_START FAMILY (44_search R261). -/
def execSearchStartFamily (alm : Bool) (s : State) : Result := searchStart .family alm s

/-- SEARCH_START PING (44_search R261); ALM is 0 (30_encoding R103). -/
def execSearchStartPing (s : State) : Result := searchStart .ping false s

/-- SEARCH_NEXT (44_search R262). -/
def execSearchNext (s : State) : Result := searchAnswer false s

/-- SEARCH_SKIP_FAMILY (44_search R263). -/
def execSearchSkipFamily (s : State) : Result := searchAnswer true s

/-- SEARCH_STOP (44_search R264). -/
def execSearchStop (s : State) : Result :=
  command s fun s =>
    if s.idrdy then .next (finish (clearSearch s)) else .next (raise .illegalCommand s)

end Sys2Proof.Machine
end

