-- ==== Sys2Proof/Machine/Dispatch.lean ====
section
/-! DEFINITION. The meaning of each instruction. -/

namespace Sys2Proof.Machine

def exec (i : Instr) (s : State) : Host.Outcome State Fault Refusal :=
  match i with
  | .encWrite n => Sys2Proof.Machine.execEncWrite n s
  | .encWriteBytes n => Sys2Proof.Machine.execEncWriteBytes n s
  | .encRead n => Sys2Proof.Machine.execEncRead n s
  | .decode n => Sys2Proof.Machine.execDecode n s
  | .decodeBytes n => Sys2Proof.Machine.execDecodeBytes n s
  | .reset => Sys2Proof.Machine.execReset s
  | .writeBits pwr n => Sys2Proof.Machine.execWriteBits pwr n s
  | .writeBytes pwr n => Sys2Proof.Machine.execWriteBytes pwr n s
  | .readBits n => Sys2Proof.Machine.execReadBits n s
  | .readBytes n => Sys2Proof.Machine.execReadBytes n s
  | .setPower pwr => Sys2Proof.Machine.execSetPower pwr s
  | .close => Sys2Proof.Machine.execClose s
  | .crc8Id => Sys2Proof.Machine.execCrc8Id s
  | .crc8Bytes n => Sys2Proof.Machine.execCrc8Bytes n s
  | .select => Sys2Proof.Machine.execSelect s
  | .skip => Sys2Proof.Machine.execSkip s
  | .readRom => Sys2Proof.Machine.execReadRom s
  | .searchStartPlain alm => Sys2Proof.Machine.execSearchStartPlain alm s
  | .searchStartFamily alm => Sys2Proof.Machine.execSearchStartFamily alm s
  | .searchStartPing => Sys2Proof.Machine.execSearchStartPing s
  | .searchNext => Sys2Proof.Machine.execSearchNext s
  | .searchSkipFamily => Sys2Proof.Machine.execSearchSkipFamily s
  | .searchStop => Sys2Proof.Machine.execSearchStop s
  | .romMatch => Sys2Proof.Machine.execRomMatch s
  | .romSkip => Sys2Proof.Machine.execRomSkip s
  | .romSearch => Sys2Proof.Machine.execRomSearch s
  | .romRead => Sys2Proof.Machine.execRomRead s
  | .romSearchAlarm => Sys2Proof.Machine.execRomSearchAlarm s

end Sys2Proof.Machine
end

