-- ==== Sys2Proof/Machine/HostBus.lean ====
section
/-! DEFINITION. The host's accesses to the register block (10_state R21, 20_memory R60-R67), the hardware reset
(70 R340-R342), and what each input does. -/

namespace Sys2Proof.Machine

/-- What an offset of the register block names (10_state R21). -/
inductive Reg where
  | cmd | status | dataLo | dataHi | arg | sigLen | idleThr | crc
  | srch0 | srch1 | sidLo | sidHi | params
  /-- The DATABUF word whose first byte is byte `i`. -/
  | databuf (i : Nat)
  /-- SIGBUF entry `i`. -/
  | sigbuf (i : Nat)
  | reserved
deriving DecidableEq, Repr

/-- The register map (10_state R21) at the offset `off`, a multiple of 4 below 0x2000. -/
def regAt (c : Config) (off : Nat) : Reg :=
  if off = 0x000 then .cmd
  else if off = 0x004 then .status
  else if off = 0x008 then .dataLo
  else if off = 0x00C then .dataHi
  else if off = 0x010 then .arg
  else if off = 0x014 then .sigLen
  else if off = 0x018 then .idleThr
  else if off = 0x01C then .crc
  else if off = 0x020 then .srch0
  else if off = 0x024 then .srch1
  else if off = 0x028 then .sidLo
  else if off = 0x02C then .sidHi
  else if off = 0x030 then .params
  else if off < 0x100 then .reserved
  else if off < 0x200 then if off - 0x100 < c.databufBytes then .databuf (off - 0x100) else .reserved
  else if off < 0x1000 then .reserved
  else if (off - 0x1000) / 4 < c.sigbufEntries then .sigbuf ((off - 0x1000) / 4)
  else .reserved

/-- The register a host access names, or the fault of an access the block does not have (20_memory R65, 93 U1 and V6;
log 13). -/
def accessReg (c : Config) (addr width : Nat) : Except Fault Reg :=
  if width ≠ 4 then .error .accessWidth
  else if addr < c.owcBase ∨ c.owcBase + 0x2000 ≤ addr then .error .outsideBlock
  else if (addr - c.owcBase) % 4 ≠ 0 then .error .accessMisaligned
  else .ok (regAt c (addr - c.owcBase))

/-- The word of a list of bytes, the first byte lowest (20_memory R64). -/
def wordOfBytes (bs : List Byte) : Word :=
  bs.foldr (fun b w => (w <<< 8) ||| b.setWidth 32) 0

/-- The bytes of a word, the lowest first (20_memory R64). -/
def bytesOfWord (w : Word) : List Byte :=
  [w.extractLsb' 0 8, w.extractLsb' 8 8, w.extractLsb' 16 8, w.extractLsb' 24 8]

/-- The DATABUF word whose first byte is byte `i` (10_state R50); the fault of D32 where one of its bytes has no
value. -/
def databufWord (s : State) (i : Nat) : Except Fault Word :=
  ((bufReadList s.databuf i 4).map wordOfBytes).mapError .databufNoValue

/-- What a register reads as while BUSY = 0 (10_state R21). -/
def readReg (r : Reg) (s : State) : Except Fault Word :=
  match r with
  | .cmd => .ok 0
  | .status => .ok (statusWord s)
  | .dataLo => .ok (dataLoWord s)
  | .dataHi => .ok (dataHiWord s)
  | .arg => .ok (argWord s)
  | .sigLen => .ok (sigLenWord s)
  | .idleThr => .ok (idleThrWord s)
  | .crc => .ok (crcWord s)
  | .srch0 => .ok (srch0Word s)
  | .srch1 => .ok (srch1Word s)
  | .sidLo => .ok (sidLoWord s)
  | .sidHi => .ok (sidHiWord s)
  | .params => .ok (paramsWord s)
  | .databuf i => databufWord s i
  | .sigbuf i =>
    match bufRead i s.sigbuf with
    | some sg => .ok (signalWord sg)
    | none => .error (.sigbufNoValue i)
  | .reserved => .ok 0

/-- A host read (20_memory R67). While BUSY = 1 every register but STATUS returns a free value (70 R351; log 5), a
buffer entry without a value among them (log 14); a reserved offset is no register and reads 0 at all times (10_state
R21, 93 V4). -/
def hostRead (addr width : Nat) (s : State) : Result :=
  match accessReg s.cfg addr width with
  | .error f => .fault f
  | .ok r =>
    if s.busy = true ∧ r ≠ .status ∧ r ≠ .reserved then
      .next { s with rdata := Config.busyRead s.draws, draws := s.draws + 1 }
    else
      match readReg r s with
      | .ok w    => .next { s with rdata := w }
      | .error f => .fault f

/-- A host write to a register other than CMD while BUSY = 0 (10_state R21, R31-R33, R49, R50): read-only registers and
reserved offsets ignore it. -/
def writeReg (r : Reg) (v : Word) (s : State) : State :=
  match r with
  | .dataLo    => { s with data := s.data.extractLsb' 32 32 ++ v }
  | .dataHi    => { s with data := v ++ s.data.extractLsb' 0 32 }
  | .arg       => { s with arg := v.extractLsb' 0 16 }
  | .sigLen    => { s with sigLen := v.extractLsb' 0 16 }
  | .databuf i => { s with databuf := bufWriteList i (bytesOfWord v) s.databuf }
  | .sigbuf i  => { s with sigbuf := bufWrite i (signalOfWord v) s.sigbuf }
  | .cmd | .status | .idleThr | .crc | .srch0 | .srch1 | .sidLo | .sidHi | .params | .reserved => s

/-- The start of what a code says: the instruction it decodes to, or its refusal with ILLEGAL_COMMAND
(30_encoding R105). -/
def startCode (c : Code) (s : State) : Result :=
  match decodeCode c with
  | .ok i    => exec i s
  | .error _ => illegalWord s

/-- A host write (20_memory R67, 70 R350). -/
def hostWrite (addr width : Nat) (v : Word) (s : State) : Result :=
  match accessReg s.cfg addr width with
  | .error f => .fault f
  | .ok r =>
    if s.busy then .fault .writeWhileBusy
    else if r = .cmd then startCode (.cmd v) s
    else .next (writeReg r v s)

/-- A port answer that comes after a command has begun to wait for it; one that answers nothing outstanding has no
effect (log 3). -/
def portAnswer (a : PortAnswer) (s : State) : State :=
  match deliver a s with
  | some s' => settle s'
  | none    => s

/-- A hardware reset (70 R340-R342): every piece of the block's state takes its reset value. The parameters, the inputs
still to come and the count of draws are not the block's (log 15). -/
def hardReset (s : State) : State := State.resetWith s.cfg s.inputs s.draws

/-- What the input `i`, taken from the inputs of `s`, does. -/
def stepInput (i : Input) (s : State) : Result :=
  match i with
  | .read addr width    => hostRead addr width s
  | .write addr width v => hostWrite addr width v s
  | .port a             => .next (portAnswer a s)
  | .hardReset          => .next (hardReset s)
  | .rom b              => startCode (.rom b) s

/-- The input that makes the block run the code `c` (10_state R22; log 12). -/
def inputOfCode (base : Nat) (c : Code) : Input :=
  match c with
  | .cmd w => .write base 4 w
  | .rom b => .rom b

end Sys2Proof.Machine
end

