-- ==== Sys2Proof/Machine/Step.lean ====
section
/-! DEFINITION. One step of the machine: it takes the next input (logs 1 and 16). -/

namespace Sys2Proof.Machine

/-- One step: the next input happens. Where none is left the block stays as it is (log 16). -/
def step (s : State) : Host.Outcome State Fault Refusal :=
  match s.inputs with
  | []        => .next s
  | i :: rest => stepInput i { s with inputs := rest }

/-- `s` with the instruction whose table word is `w` placed as the next input: a host write of a command word to CMD,
or a ROM byte (log 16). -/
def State.withFetchWord (s : State) (nbits w : Nat) : State :=
  { s with inputs := inputOfCode s.cfg.owcBase (codeOfTable nbits w) :: s.inputs }

end Sys2Proof.Machine
end

