-- ==== Sys2Proof/Safety.lean ====
section
/-! DEFINITION. The terms in which statements speak of states: the block at rest, and the invariant that the spec's
own sentences about every state make up. -/

namespace Sys2Proof.Machine

/-- The block at rest: no command runs, so nothing is outstanding and the phase is IDLE or, while a delivered ID waits,
YIELD (10_state R51). Every state with BUSY = 0 that meets `Inv` is at rest. -/
abbrev Quiet (s : State) : Prop :=
  s.busy = false ∧ s.wait = none ∧ s.phase = restPhase s.idrdy

/-- A pass between two of its transactions: p in 0..63, its branch copies in the ranges of 10_state R45 and R46. -/
def Pass.ok (ps : Pass) : Bool :=
  decide (ps.p ≤ 63) && decide (-1 ≤ ps.l) && decide (ps.l ≤ 63) && decide (-1 ≤ ps.lf) && decide (ps.lf ≤ 7)

/-- The pass inside what follows a transmission is in range. -/
def AfterWrite.ok : AfterWrite → Bool
  | .passBit ps => ps.ok
  | .done | .writeBytes _ | .selectId | .readRomId | .passRom => true

/-- The pass inside what follows a bit read is in range. -/
def AfterRead.ok : AfterRead → Bool
  | .passBit ps => ps.ok
  | .passCmp ps _ => ps.ok
  | .toData => true

/-- Whether an outstanding transaction belongs to a search pass. -/
def Wait.inPass : Wait → Bool
  | .tx _ _ k => k.inPass
  | .txRx _ _ _ _ (.linkReset k) => k.inPass
  | .txRx _ _ _ _ (.linkRead _ k) => k.inPass
  | .txRx _ _ _ _ (.readBytes _) => false

/-- Whether an outstanding transaction is a reset's (41_link R171). -/
def Wait.isReset : Wait → Bool
  | .txRx _ _ _ _ (.linkReset _) => true
  | .txRx _ _ _ _ (.linkRead _ _) | .txRx _ _ _ _ (.readBytes _) | .tx _ _ _ => false

/-- An outstanding transaction has the form its rule gives: a reset sends the reset pulse with threshold 530 and a
timeout of 500 ms (41_link R171), a read sends `n` read slots in open-drain mode with threshold 75 and no timeout
(R173, R175, R181), of at most 64 bits or DATABUF_BYTES bytes. -/
def Wait.ok (c : Config) : Wait → Bool
  | .tx _ _ k => k.ok
  | .txRx l thr tmo _ (.linkReset _) =>
    decide (l = [.low 480, .high 480]) && decide (thr = 530) && decide (tmo = some 500)
  | .txRx l thr tmo od (.linkRead n k) =>
    decide (l = encodeRead n) && decide (thr = 75) && decide (tmo = none) && od && decide (n ≤ 64) && k.ok
  | .txRx l thr tmo od (.readBytes n) =>
    decide (l = encodeRead (8 * n)) && decide (thr = 75) && decide (tmo = none) && od && decide (n ≤ c.databufBytes)

/-- A property of the outstanding transaction, if there is one. -/
def waitIs (p : Wait → Bool) (s : State) : Bool :=
  match s.wait with
  | some w => p w
  | none => false

/-- The outstanding transaction, if there is one, has the form its rule gives. -/
abbrev waitOk (s : State) : Prop := s.wait = none ∨ waitIs (Wait.ok s.cfg) s = true

/-- BUSY is 1 exactly while a transaction is outstanding, and the phase says the same (10_state R24, R51): between two
steps no command is in EXEC (log 2). -/
abbrev busyOk (s : State) : Prop :=
  s.busy = s.wait.isSome ∧ s.phase = if s.busy then .waitPort else restPhase s.idrdy

/-- ECODE is NONE exactly when ERR is 0 (10_state R23), and ERR is 0 while a command runs (R25). -/
abbrev errOk (s : State) : Prop :=
  (s.err = false ↔ s.ecode = .none) ∧ (s.busy = true → s.err = false)

/-- IDRDY and SACT (10_state R27, R28): a delivered ID waits only in an active search, an active search has delivered
an ID or has a pass outstanding, and a pass is outstanding only in an active search that has delivered none. A ping
delivers none (44_search R258). -/
abbrev searchOk (s : State) : Prop :=
  (s.idrdy = true → s.sact = true ∧ s.smode ≠ .ping) ∧
  (s.sact = true → s.idrdy = true ∨ waitIs Wait.inPass s = true) ∧
  (waitIs Wait.inPass s = true → s.sact = true ∧ s.idrdy = false)

/-- After CLOSE no command uses the link and no search is active (41_link R170, R183). -/
abbrev closedOk (s : State) : Prop := s.closed = true → s.busy = false ∧ s.sact = false

/-- The idle threshold is 75 except while a reset transaction is outstanding, when it is 530 and 75 is saved
(10_state R42, 41_link R173). -/
abbrev thresholdOk (s : State) : Prop :=
  if waitIs Wait.isReset s then s.idleThr = 530 ∧ s.savedThr = 75 else s.idleThr = 75

/-- The ranges of the branch registers (10_state R45-R47). -/
abbrev branchOk (s : State) : Prop :=
  (-1 ≤ s.lub ∧ s.lub ≤ 63) ∧ (-1 ≤ s.lufb ∧ s.lufb ≤ 7) ∧ (-1 ≤ s.plub ∧ s.plub ≤ 64)

/-- The port's configuration is that of the last hardware reset (20_memory R76). -/
abbrev setupOk (s : State) : Prop := s.portSetup = PortSetup.atReset s.cfg

/-- The invariant of the machine. -/
abbrev State.Inv (s : State) : Prop :=
  s.cfg.wf ∧ Memory.wf s ∧ busyOk s ∧ waitOk s ∧ errOk s ∧ searchOk s ∧ closedOk s ∧ thresholdOk s ∧ branchOk s ∧
  setupOk s

/-- The ROM bytes by their own rows (log 12). -/
def isRomByte : Instr → Bool
  | .romMatch | .romSkip | .romSearch | .romRead | .romSearchAlarm => true
  | .encWrite _ | .encWriteBytes _ | .encRead _ | .decode _ | .decodeBytes _ => false
  | .reset | .writeBits _ _ | .writeBytes _ _ | .readBits _ | .readBytes _ | .setPower _ | .close => false
  | .crc8Id | .crc8Bytes _ | .select | .skip | .readRom => false
  | .searchStartPlain _ | .searchStartFamily _ | .searchStartPing => false
  | .searchNext | .searchSkipFamily | .searchStop => false

/-- The commands that need the bus open (41_link R170): the link commands but CLOSE, the ROM commands, SEARCH_START and
the two answers that start a pass. The ROM bytes' own rows are no commands and stand apart (`isRomByte`). -/
def needsOpen : Instr → Bool
  | .reset | .writeBits _ _ | .writeBytes _ _ | .readBits _ | .readBytes _ | .setPower _ => true
  | .select | .skip | .readRom => true
  | .searchStartPlain _ | .searchStartFamily _ | .searchStartPing | .searchNext | .searchSkipFamily => true
  | .encWrite _ | .encWriteBytes _ | .encRead _ | .decode _ | .decodeBytes _ => false
  | .close | .crc8Id | .crc8Bytes _ | .searchStop => false
  | .romMatch | .romSkip | .romSearch | .romRead | .romSearchAlarm => false

/-- The state-check of the search commands fails (60_exceptions R301): a search is started while one is active, or a
delivery is answered that is not there. -/
def searchRefuses (i : Instr) (s : State) : Bool :=
  match i with
  | .searchStartPlain _ | .searchStartFamily _ | .searchStartPing => s.sact
  | .searchNext | .searchSkipFamily | .searchStop => !s.idrdy
  | .encWrite _ | .encWriteBytes _ | .encRead _ | .decode _ | .decodeBytes _ => false
  | .reset | .writeBits _ _ | .writeBytes _ _ | .readBits _ | .readBytes _ | .setPower _ | .close => false
  | .crc8Id | .crc8Bytes _ | .select | .skip | .readRom => false
  | .romMatch | .romSkip | .romSearch | .romRead | .romSearchAlarm => false

/-- The count and length checks of a command fail (60_exceptions R304 3; 40_codec R150-R154, 41_link R178-R181,
42_crc R213). -/
def countRefuses (i : Instr) (s : State) : Bool :=
  match i with
  | .encWrite n => decide (64 < n ∨ s.cfg.sigbufEntries < 2 * n)
  | .encWriteBytes n => decide (s.cfg.databufBytes < n ∨ s.cfg.sigbufEntries < 16 * n)
  | .encRead n => decide (s.cfg.sigbufEntries < 2 * n)
  | .decode n => decide (64 < n ∨ s.cfg.sigbufEntries < s.sigLen.toNat)
  | .decodeBytes n => decide (s.cfg.databufBytes < n ∨ s.cfg.sigbufEntries < s.sigLen.toNat)
  | .writeBits _ n | .readBits n => decide (64 < n)
  | .writeBytes _ n | .readBytes n | .crc8Bytes n => decide (s.cfg.databufBytes < n)
  | .reset | .setPower _ | .close | .crc8Id | .select | .skip | .readRom => false
  | .searchStartPlain _ | .searchStartFamily _ | .searchStartPing => false
  | .searchNext | .searchSkipFamily | .searchStop => false
  | .romMatch | .romSkip | .romSearch | .romRead | .romSearchAlarm => false

end Sys2Proof.Machine
end

