-- ==== Sys2Proof/Certificates/Slice0/Obligations.lean ====
section
/-! DEFINITION. The statements about the model, each from the spec's rules. They state and prove nothing. -/

open Sys2Proof Sys2Proof.Machine

namespace Sys2Proof.Spec

/-! ### The words in which the statements speak, written from the rules and not from the model's own functions -/

/-- The number of an error kind in ECODE (60_exceptions R300). -/
def errNumber : ErrKind → Nat
  | .none => 0 | .busClosed => 1 | .noDevice => 2 | .busError => 3 | .crcError => 4 | .invalidSignal => 5
  | .invalidArgument => 6 | .transport => 7 | .illegalCommand => 8

/-- The number of a search mode in SRCH1 (10_state R48). -/
def modeNumber : SearchMode → Nat
  | .plain => 0 | .family => 1 | .ping => 2

/-- The low period of a write slot (40_codec R140, R143). -/
def lowOf (b : Bool) : Half := if b then 6 else 60

/-- The high period of a write slot (40_codec R140, R143). -/
def highOf (b : Bool) : Half := if b then 64 else 10

/-- The state of a command that ended without an error, before its results: ERR and ECODE are 0. -/
abbrev ok (s : State) : State := { s with err := false, ecode := .none }

/-- The state of a command that ended with the error `e` and changed nothing else. -/
abbrev failed (e : ErrKind) (s : State) : State := { s with err := true, ecode := e }

/-- The event of a reset transaction (41_link R171). -/
abbrev resetEvent (od : Bool) (o : RxOutcome) : PortEvent := .txRx [.low 480, .high 480] 530 (some 500) od o

/-- A captured list whose first slot reads as the bit `b` (40_codec R146). -/
def readsBit (cl : List Signal) (b : Bool) : Prop :=
  ∃ lo hi rest, cl = lo :: hi :: rest ∧ lo.level = false ∧ hi.level = true ∧ b = decide (lo.period.toNat < 14)

/-- presence (41_link R172). -/
def present (cl : List Signal) : Prop :=
  ∃ e0 e1 e2 rest, cl = e0 :: e1 :: e2 :: rest ∧
    e0.level = false ∧ 478 ≤ e0.period.toNat ∧ e0.period.toNat ≤ 490 ∧
    e1.level = true ∧ 0 < e1.period.toNat ∧ e2.level = false ∧ 0 < e2.period.toNat

/-- The outcome of a reset transaction is a presence: a captured list that shows it (41_link R171, R172). -/
def showsPresence (o : RxOutcome) : Prop := ∃ cl, o = .captured cl ∧ present cl

/-- The outcome of a reset transaction is no presence and no error: a Timeout, or a captured list without one. -/
def showsNone (o : RxOutcome) : Prop := o = .timeout ∨ ∃ cl, o = .captured cl ∧ ¬ present cl

/-! The bits of a search pass (44_search R252-R254). `b p` and `c p` are what the bus answers at position p, `q` is
plub and `sid` the id at the start of the pass. -/

/-- b' at position `p` (44_search R252 3c, 3d, R253). -/
def choice (q : Int) (sid : Long) (b c : Nat → Bool) (p : Nat) : Bool :=
  if b p = false ∧ c p = false then
    if (p : Int) < q then sid.getLsbD p else decide ((p : Int) = q)
  else b p

/-- Position `p` is recorded: a collision whose chosen bit is 0 (44_search R254). -/
def recorded (q : Int) (sid : Long) (b c : Nat → Bool) (p : Nat) : Bool :=
  !b p && !c p && !choice q sid b c p

/-- The highest position below `n` with `r`, and -1 if there is none (44_search R254). -/
def lastBelow (r : Nat → Bool) : Nat → Int
  | 0 => -1
  | n + 1 => if r n then (n : Int) else lastBelow r n

/-- The answers of the port environment to the positions 0, …, n-1 of a pass, every transmission Ok. -/
def passAnswers (rb rc : Nat → List Signal) (n : Nat) : List Input :=
  (List.range n).flatMap fun p =>
    [.port (.txRx (.captured (rb p))), .port (.txRx (.captured (rc p))), .port (.tx .ok)]

/-- The events of one bit read (44_search R252 3a). -/
abbrev bitReadEvent (thr : Half) (cl : List Signal) : PortEvent :=
  .txRx [.low 6, .high 69] thr none true (.captured cl)

/-- The event of the one-bit write of b' (44_search R252 3f). -/
abbrev bitWriteEvent (b : Bool) : PortEvent := .tx [.low (lowOf b), .high (highOf b)] true .ok

/-- The events of the positions 0, …, n-1 of a pass (D40). -/
def passEvents (thr : Half) (rb rc : Nat → List Signal) (w : Nat → Bool) (n : Nat) : List PortEvent :=
  (List.range n).flatMap fun p => [bitReadEvent thr (rb p), bitReadEvent thr (rc p), bitWriteEvent (w p)]

/-- The slots of a byte (40_codec R143). -/
def byteSlots (b : Byte) : List Signal :=
  (List.range 8).flatMap fun i => [.low (lowOf (b.getLsbD i)), .high (highOf (b.getLsbD i))]

/-- The slots of bits 0, …, n-1 of a value (40_codec R143). -/
def valueSlots (v : Long) (n : Nat) : List Signal :=
  (List.range n).flatMap fun i => [.low (lowOf (v.getLsbD i)), .high (highOf (v.getLsbD i))]

/-- `n` read slots (40_codec R145). -/
def readSlots (n : Nat) : List Signal := (List.range n).flatMap fun _ => [.low 6, .high 69]

/-- The events of a pass before its positions, its reset answered by `cl` in the mode `od` (44_search R252 steps 1 and
2). -/
def passOpening (alm od : Bool) (cl : List Signal) : List PortEvent :=
  [resetEvent od (.captured cl), .tx (byteSlots (if alm then 0xEC else 0xF0)) true .ok]

/-- The events of a whole pass whose reset was answered by `cl` in the mode `od` (44_search R252): 194 of them. -/
def wholePassEvents (alm od : Bool) (cl : List Signal) (thr : Half) (rb rc : Nat → List Signal) (w : Nat → Bool) :
    List PortEvent :=
  passOpening alm od cl ++ passEvents thr rb rc w 64

/-- The bus answers the positions 0, …, n-1 of a pass with the bits `b` and `c`, none of them (1,1). -/
def busAnswers (rb rc : Nat → List Signal) (b c : Nat → Bool) (n : Nat) : Prop :=
  ∀ p, p < n → readsBit (rb p) (b p) ∧ readsBit (rc p) (c p) ∧ ¬ (b p = true ∧ c p = true)

/-- `id` is the ID a pass ends with (44_search R256). -/
def isChosen (id : Long) (q : Int) (sid : Long) (b c : Nat → Bool) : Prop :=
  ∀ p, p < 64 → id.getLsbD p = choice q sid b c p

/-- The search has ended: SACT = 0, IDRDY = 0, and at rest the phase is IDLE (10_state R27, R28, R51). -/
abbrev searchEnded (s : State) : State := { s with sact := false, idrdy := false, phase := .idle }

/-- The instruction `i`, accepted in `s`, starts a search pass, and `u` is the state at the start of the pass: what
SearchInit (44_search R250, R251) or SearchAdvance (R259) makes of `s`, with ERR and ECODE 0. The registers plub and sid
of `u` are the q and the id that choose the pass's bits. -/
def startsPass (i : Instr) (s u : State) : Prop :=
  match i with
  | .searchStartPlain alm =>
    s.sact = false ∧ u = { ok s with
      smode := .plain, salm := alm, sfam := 0, sid := 0, plub := -1, lub := -1, lufb := -1, sact := true, idrdy := false }
  | .searchStartFamily alm =>
    s.sact = false ∧ ∃ (fam : Byte) (sid : Long), fam.toNat = s.data.toNat % 256 ∧ sid.toNat = fam.toNat ∧ u = { ok s with
      smode := .family, salm := alm, sfam := fam, sid := sid, plub := 8, lub := -1, lufb := -1, sact := true,
      idrdy := false }
  | .searchStartPing =>
    s.sact = false ∧ u = { ok s with
      smode := .ping, salm := false, sfam := 0, sid := s.data, starget := s.data, plub := 64, lub := -1, lufb := -1,
      sact := true, idrdy := false }
  | .searchNext => s.idrdy = true ∧ s.lub ≠ -1 ∧ u = { ok s with plub := s.lub, lub := -1, lufb := -1, idrdy := false }
  | .searchSkipFamily =>
    s.idrdy = true ∧ s.lufb ≠ -1 ∧ u = { ok s with plub := s.lufb, lub := -1, lufb := -1, idrdy := false }
  | .encWrite _ | .encWriteBytes _ | .encRead _ | .decode _ | .decodeBytes _ => False
  | .reset | .writeBits _ _ | .writeBytes _ _ | .readBits _ | .readBytes _ | .setPower _ | .close => False
  | .crc8Id | .crc8Bytes _ | .select | .skip | .readRom | .searchStop => False
  | .romMatch | .romSkip | .romSearch | .romRead | .romSearchAlarm => False

/-- A captured list that does not decode to `m` bits: too short, or with a wrong level in the first `m` pairs
(40_codec R146). -/
def undecodable (cl : List Signal) (m : Nat) : Prop :=
  cl.length < 2 * m ∨ ∃ k sg, k < m ∧ ((cl[2 * k]? = some sg ∧ sg.level = true) ∨
    (cl[2 * k + 1]? = some sg ∧ sg.level = false))

/-- A command word is illegal (30_encoding R105), bit by bit: the reserved bits, the OP of R104, the fields each OP
uses. -/
def illegal (w : Word) : Prop :=
  let op := w.toNat % 256
  let pwr := w.getLsbD 8
  let alm := w.getLsbD 9
  let smode := w.toNat / 1024 % 4
  let count := w.toNat / 65536 % 256
  w.toNat / 4096 % 16 ≠ 0 ∨ w.toNat / 16777216 ≠ 0 ∨
  op ∉ [0x01, 0x02, 0x03, 0x04, 0x05, 0x10, 0x11, 0x12, 0x13, 0x14, 0x15, 0x1F, 0x20, 0x21, 0x30, 0x31, 0x32,
    0x40, 0x41, 0x42, 0x43] ∨
  (pwr = true ∧ op ∉ [0x11, 0x12, 0x15]) ∨
  ((alm = true ∨ smode ≠ 0) ∧ op ≠ 0x40) ∨
  (count ≠ 0 ∧ op ∉ [0x01, 0x02, 0x03, 0x04, 0x05, 0x11, 0x12, 0x13, 0x14, 0x21]) ∨
  (op = 0x40 ∧ (smode = 3 ∨ (smode = 2 ∧ alm = true)))

/-- The match and mask of each command row of spec/opcode_table.json (30_encoding R108). -/
def commandRows : List (Word × Word) :=
  [(0x00000001, 0xFF00FFFF), (0x00000002, 0xFF00FFFF), (0x00000003, 0xFF00FFFF), (0x00000004, 0xFF00FFFF),
   (0x00000005, 0xFF00FFFF), (0x00000010, 0xFFFFFFFF), (0x00000011, 0xFF00FEFF), (0x00000012, 0xFF00FEFF),
   (0x00000013, 0xFF00FFFF), (0x00000014, 0xFF00FFFF), (0x00000015, 0xFFFFFEFF), (0x0000001F, 0xFFFFFFFF)] ++
  [(0x00000020, 0xFFFFFFFF), (0x00000021, 0xFF00FFFF), (0x00000030, 0xFFFFFFFF), (0x00000031, 0xFFFFFFFF),
   (0x00000032, 0xFFFFFFFF), (0x00000040, 0xFFFFFDFF), (0x00000440, 0xFFFFFDFF), (0x00000840, 0xFFFFFFFF),
   (0x00000041, 0xFFFFFFFF), (0x00000042, 0xFFFFFFFF), (0x00000043, 0xFFFFFFFF)]

/-- The words a host reads at the offsets of the single registers while BUSY = 0 (10_state R21, R22, R31-R39), as
numbers. -/
def registerReads (s : State) : List (Nat × Nat) :=
  [(0x000, 0), (0x008, s.data.toNat % 2 ^ 32), (0x00C, s.data.toNat / 2 ^ 32), (0x010, s.arg.toNat),
   (0x014, s.sigLen.toNat), (0x018, s.idleThr.toNat), (0x01C, s.crc.toNat),
   (0x020, (s.lub % 256).toNat + 256 * (s.lufb % 256).toNat + 65536 * (s.plub % 256).toNat),
   (0x024, s.sfam.toNat + 256 * s.salm.toNat + 512 * modeNumber s.smode),
   (0x028, s.sid.toNat % 2 ^ 32), (0x02C, s.sid.toNat / 2 ^ 32),
   (0x030, s.cfg.sigbufEntries + 65536 * s.cfg.databufBytes)]

/-- The offsets that no register occupies and that the buffers' windows leave free (10_state R21). -/
def reservedOffset (c : Config) (off : Nat) : Prop :=
  off % 4 = 0 ∧ ((0x034 ≤ off ∧ off < 0x100) ∨ (0x100 + c.databufBytes ≤ off ∧ off < 0x1000) ∨
    (0x1000 + 4 * c.sigbufEntries ≤ off ∧ off < 0x2000))

/-- The read-only registers (10_state R21). -/
def readOnlyOffset (off : Nat) : Prop :=
  off ∈ [0x004, 0x018, 0x01C, 0x020, 0x024, 0x028, 0x02C, 0x030]

/-- The commands that may write RES (10_state R26). -/
def writesRes : Instr → Prop
  | .reset | .crc8Id | .searchStartPlain _ | .searchStartFamily _ | .searchStartPing => True
  | .searchNext | .searchSkipFamily => True
  | .encWrite _ | .encWriteBytes _ | .encRead _ | .decode _ | .decodeBytes _ => False
  | .writeBits _ _ | .writeBytes _ _ | .readBits _ | .readBytes _ | .setPower _ | .close | .crc8Bytes _ => False
  | .select | .skip | .readRom | .searchStop => False
  | .romMatch | .romSkip | .romSearch | .romRead | .romSearchAlarm => False

end Sys2Proof.Spec

open Sys2Proof.Spec

/-! ### Encoding -/

/-- Tier 3. 30_encoding R100-R106, R115 and 43_rom R230: what the encoder writes, the decoder reads back, for every
well-formed instruction with every operand. -/
def Obligations.DecodeOfEncodeIsTheInstruction : Prop :=
  ∀ i : Instr, i.WellFormed → decodeCode (encode i) = .ok i

/-- Tier 2. 30_encoding R106: a code that decodes to an instruction is the one code of it, so no bit of a code is
dropped, and the instruction is well-formed. -/
def Obligations.EncodeOfDecodeIsTheCode : Prop :=
  ∀ (c : Code) (i : Instr), decodeCode c = .ok i → i.WellFormed ∧ encode i = c

/-- Tier 2. 30_encoding R108: a command word is legal exactly when it matches a row of the opcode table, and no word
matches two rows. -/
def Obligations.LegalWordMatchesExactlyOneRow : Prop :=
  (∀ w : Word, (∃ i, decodeCmd w = .ok i) ↔ ∃ r ∈ commandRows, w &&& r.2 = r.1) ∧
  (∀ w : Word, ∀ r ∈ commandRows, ∀ r' ∈ commandRows, w &&& r.2 = r.1 → w &&& r'.2 = r'.1 → r = r')

/-- Tier 1. 30_encoding R115, 43_rom R230: words of each family decode to the instruction they stand for. -/
def Obligations.SampleWordsDecode : Prop :=
  decodeCmd 0x00080001 = .ok (.encWrite 8) ∧ decodeCmd 0x00020005 = .ok (.decodeBytes 2) ∧
  decodeCmd 0x00080111 = .ok (.writeBits true 8) ∧ decodeCmd 0x00000115 = .ok (.setPower true) ∧
  decodeCmd 0x00090021 = .ok (.crc8Bytes 9) ∧ decodeCmd 0x00000032 = .ok .readRom ∧
  decodeCmd 0x00000240 = .ok (.searchStartPlain true) ∧ decodeCmd 0x00000840 = .ok .searchStartPing ∧
  decodeRom 0x55 = .ok .romMatch ∧ decodeRom 0xEC = .ok .romSearchAlarm

/-- Tier 2. 30_encoding R105: a host write to CMD of a word that is illegal by the rule's own list sets ERR and ECODE =
ILLEGAL_COMMAND and changes nothing else (the input is taken); a word that is not illegal is some command. -/
def Obligations.IllegalWordIsRefused : Prop :=
  (∀ (s : State) (w : Word) (rest : List Input), Quiet s → s.inputs = .write s.cfg.owcBase 4 w :: rest → illegal w →
    step s = .next (failed .illegalCommand { s with inputs := rest })) ∧
  (∀ w : Word, ¬ illegal w → ∃ i, decodeCmd w = .ok i)

/-! ### Steps and host accesses -/

/-- Tier 1. 10_state R22, 20_memory R83, and logs 12 and 16 (the model's choices of where an instruction comes from): a
step whose next input is a write to CMD of a word that decodes to `i`, with BUSY = 0, is `exec i` on the state with that
input taken; the same of a ROM byte; a step with no input to come changes nothing. -/
def Obligations.StepRunsTheDecodedInstruction : Prop :=
  (∀ (s : State) (w : Word) (i : Instr) (rest : List Input), s.busy = false →
    s.inputs = .write s.cfg.owcBase 4 w :: rest → decodeCmd w = .ok i → step s = exec i { s with inputs := rest }) ∧
  (∀ (s : State) (b : Byte) (i : Instr) (rest : List Input), s.inputs = .rom b :: rest → decodeRom b = .ok i →
    step s = exec i { s with inputs := rest }) ∧
  (∀ s : State, s.inputs = [] → step s = .next s)

/-- Tier 1. 70 R350: a host write of an aligned word inside the block while BUSY = 1 faults, CMD included, and so does
the start of any command. -/
def Obligations.WriteWhileBusyFaults : Prop :=
  (∀ (s : State) (off : Nat) (v : Word) (rest : List Input), s.busy = true → off < 0x2000 → off % 4 = 0 →
    s.inputs = .write (s.cfg.owcBase + off) 4 v :: rest → step s = .fault .writeWhileBusy) ∧
  (∀ (s : State) (i : Instr), isRomByte i = false → s.busy = true → exec i s = .fault .writeWhileBusy)

/-- Tier 2. 20_memory R65, 60_exceptions R307, and V6 of 93 (log 13: the order of these checks is the model's): a host
access of another width, outside the block, or misaligned faults, whatever BUSY is. -/
def Obligations.BadAccessFaults : Prop :=
  ∀ (s : State) (addr width : Nat) (v : Word) (rest : List Input) (f : Fault),
    ((width ≠ 4 ∧ f = .accessWidth) ∨
     (width = 4 ∧ (addr < s.cfg.owcBase ∨ s.cfg.owcBase + 0x2000 ≤ addr) ∧ f = .outsideBlock) ∨
     (width = 4 ∧ s.cfg.owcBase ≤ addr ∧ addr < s.cfg.owcBase + 0x2000 ∧ (addr - s.cfg.owcBase) % 4 ≠ 0 ∧
      f = .accessMisaligned)) →
    (s.inputs = .read addr width :: rest ∨ s.inputs = .write addr width v :: rest) → step s = .fault f

/-- Tier 2. 10_state R23: a STATUS read, whatever BUSY is, returns the flags in their bits and changes nothing of the
block. -/
def Obligations.StatusReadShowsTheFlags : Prop :=
  ∀ (s : State) (rest : List Input), s.inputs = .read (s.cfg.owcBase + 4) 4 :: rest →
    ∃ w : Word, step s = .next { s with inputs := rest, rdata := w } ∧
      w.toNat = s.busy.toNat + 2 * s.err.toNat + 4 * s.res.toNat + 8 * s.idrdy.toNat + 16 * s.sact.toNat +
        32 * s.closed.toNat + 64 * s.openDrain.toNat + 256 * errNumber s.ecode

/-- Tier 2. 10_state R22 and R31-R39: what the other single registers read as while BUSY = 0; a read changes nothing of
the block. -/
def Obligations.RegisterReadsShowTheState : Prop :=
  ∀ (s : State) (off n : Nat) (rest : List Input), s.busy = false → s.cfg.wf → (off, n) ∈ registerReads s →
    s.inputs = .read (s.cfg.owcBase + off) 4 :: rest →
    step s = .next { s with inputs := rest, rdata := BitVec.ofNat 32 n }

/-- Tier 2. 10_state R49, R50, 30_encoding R110, D32: what the buffers' windows read as while BUSY = 0. A SIGBUF entry
reads as (level << 16) | period, a DATABUF word as its four bytes, the first lowest; an entry or byte without a value
faults; a reserved offset reads 0. -/
def Obligations.BufferReadsShowTheEntries : Prop :=
  ∀ (s : State) (off : Nat) (rest : List Input), s.busy = false → s.cfg.wf →
    s.inputs = .read (s.cfg.owcBase + off) 4 :: rest →
    (∀ i sg, i < s.cfg.sigbufEntries → off = 0x1000 + 4 * i → bufRead i s.sigbuf = some sg →
      step s = .next { s with inputs := rest, rdata := BitVec.ofNat 32 (65536 * sg.level.toNat + sg.period.toNat) }) ∧
    (∀ i, i < s.cfg.sigbufEntries → off = 0x1000 + 4 * i → bufRead i s.sigbuf = none →
      step s = .fault (.sigbufNoValue i)) ∧
    (∀ i b0 b1 b2 b3, i % 4 = 0 → i < s.cfg.databufBytes → off = 0x100 + i → bufRead i s.databuf = some b0 →
      bufRead (i + 1) s.databuf = some b1 → bufRead (i + 2) s.databuf = some b2 → bufRead (i + 3) s.databuf = some b3 →
      step s = .next { s with
        inputs := rest,
        rdata := BitVec.ofNat 32 (b0.toNat + 256 * b1.toNat + 65536 * b2.toNat + 16777216 * b3.toNat) }) ∧
    (∀ i j, i % 4 = 0 → i < s.cfg.databufBytes → off = 0x100 + i → i ≤ j → j < i + 4 → bufRead j s.databuf = none →
      (∀ k, i ≤ k → k < j → bufRead k s.databuf ≠ none) → step s = .fault (.databufNoValue j)) ∧
    (reservedOffset s.cfg off → step s = .next { s with inputs := rest, rdata := 0 })

/-- Tier 2. 70 R351 (log 5): a read while BUSY = 1 of an aligned word that a register or a buffer occupies, other than
STATUS, returns a free value, draws it, and changes nothing of the block. It holds of every value of `Config.busyRead`.
For a buffer entry without a value, of which 93 U4 also speaks, the free value is the model's choice (log 14). A reserved
offset reads 0 (10_state R21). -/
def Obligations.BusyReadReturnsAnyValue : Prop :=
  ∀ (s : State) (off : Nat) (rest : List Input), s.busy = true → s.cfg.wf → off < 0x2000 → off % 4 = 0 →
    s.inputs = .read (s.cfg.owcBase + off) 4 :: rest →
    (off ≠ 4 → ¬ reservedOffset s.cfg off →
      step s = .next { s with inputs := rest, rdata := Config.busyRead s.draws, draws := s.draws + 1 }) ∧
    (reservedOffset s.cfg off → step s = .next { s with inputs := rest, rdata := 0 })

/-- Tier 2. 10_state R31-R33 and R21, 20_memory R64: what a host write while BUSY = 0 to each single register does. It
writes its half of DATA, or the low 16 bits to ARG or SIG_LEN; read-only and reserved offsets ignore it. -/
def Obligations.RegisterWritesStoreTheirValue : Prop :=
  ∀ (s : State) (off : Nat) (v : Word) (rest : List Input), s.busy = false → s.cfg.wf →
    s.inputs = .write (s.cfg.owcBase + off) 4 v :: rest →
    (off = 0x008 → ∃ d, step s = .next { s with inputs := rest, data := d } ∧
      d.toNat = s.data.toNat / 2 ^ 32 * 2 ^ 32 + v.toNat) ∧
    (off = 0x00C → ∃ d, step s = .next { s with inputs := rest, data := d } ∧
      d.toNat = v.toNat * 2 ^ 32 + s.data.toNat % 2 ^ 32) ∧
    (off = 0x010 → step s = .next { s with inputs := rest, arg := BitVec.ofNat 16 v.toNat }) ∧
    (off = 0x014 → step s = .next { s with inputs := rest, sigLen := BitVec.ofNat 16 v.toNat }) ∧
    (readOnlyOffset off ∨ reservedOffset s.cfg off → step s = .next { s with inputs := rest })

/-- Tier 2. 10_state R49, R50, 30_encoding R110: a host write while BUSY = 0 to a buffer's window gives exactly its entry
or its four bytes a value and leaves every other one. -/
def Obligations.BufferWritesStoreTheirEntries : Prop :=
  ∀ (s : State) (off : Nat) (v : Word) (rest : List Input), s.busy = false → s.cfg.wf →
    s.inputs = .write (s.cfg.owcBase + off) 4 v :: rest →
    (∀ i, i < s.cfg.sigbufEntries → off = 0x1000 + 4 * i → ∃ t, step s = .next t ∧
      t = { s with inputs := rest, sigbuf := t.sigbuf } ∧
      bufRead i t.sigbuf = some ⟨v.getLsbD 16, BitVec.ofNat 16 v.toNat⟩ ∧
      ∀ j, j ≠ i → bufRead j t.sigbuf = bufRead j s.sigbuf) ∧
    (∀ i, i % 4 = 0 → i < s.cfg.databufBytes → off = 0x100 + i → ∃ t, step s = .next t ∧
      t = { s with inputs := rest, databuf := t.databuf } ∧
      (∀ j, j < 4 → bufRead (i + j) t.databuf = some (BitVec.ofNat 8 (v.toNat / 256 ^ j))) ∧
      ∀ j, j < i ∨ i + 4 ≤ j → bufRead j t.databuf = bufRead j s.databuf)

/-! ### Reset and the invariant -/

/-- Tier 1. 10_state R55 and 70 R341: the state right after a hardware reset, with any parameters: STATUS and each of
its fields, the registers, the link and search state, no value in the buffers, an empty port history, the parameters, and
the port's configuration. -/
def Obligations.ResetLeavesTheResetValues : Prop :=
  ∀ (c : Config) (l : List Input) (d : Nat),
    let s := State.resetWith c l d
    statusWord s = 0x40 ∧ s.data = 0 ∧ s.arg = 0 ∧ s.sigLen = 0 ∧ s.crc = 0 ∧ s.idleThr = 75 ∧
    s.lub = -1 ∧ s.lufb = -1 ∧ s.plub = -1 ∧ s.smode = .plain ∧ s.salm = false ∧ s.sfam = 0 ∧
    srch0Word s = 0x00FFFFFF ∧ srch1Word s = 0 ∧ s.sid = 0 ∧ s.closed = false ∧ s.openDrain = true ∧
    s.busy = false ∧ s.err = false ∧ s.ecode = .none ∧ s.res = false ∧ s.idrdy = false ∧ s.sact = false ∧
    s.phase = .idle ∧ s.wait = none ∧ s.history = [] ∧ (∀ i, bufRead i s.sigbuf = none) ∧
    (∀ i, bufRead i s.databuf = none) ∧ s.cfg = c ∧
    s.portSetup = ⟨true, 75, c.rxFilterTicks, c.rxBufferSize, true, c.pullUp⟩

/-- Tier 1. 70 R342, 10_state R55 (log 15: what is not the block's state stays): a hardware reset in any state, a
command running or not, gives the reset state. -/
def Obligations.HardwareResetComesAtAnyTime : Prop :=
  ∀ (s : State) (rest : List Input), s.inputs = .hardReset :: rest →
    step s = .next (State.resetWith s.cfg rest s.draws)

/-- Tier 1. The invariant of the model (Safety.lean) holds right after reset, with any parameters that 00_scope R5
allows. -/
def Obligations.ResetMeetsTheInvariant : Prop :=
  ∀ (c : Config) (l : List Input) (d : Nat), c.wf → (State.resetWith c l d).Inv

/-- Tier 3. Every step keeps the invariant: the buffers stay canonical and within their sizes (10_state R49, R50), BUSY
and the phase agree with what is outstanding (R24, R51; log 2), ECODE is 0 exactly when ERR is and both are 0 while a
command runs (R23, R25), IDRDY implies SACT and an active search waits or runs a pass (R27, R28), a ping delivers nothing
(44_search R258), after CLOSE nothing runs on the link (41_link R170, R183), the idle threshold is 75 outside a reset
(R173), and the branch registers stay in their ranges (R45-R47). -/
def Obligations.StepKeepsTheInvariant : Prop :=
  ∀ s t : State, s.Inv → step s = .next t → t.Inv

/-! ### Refusals and errors -/

/-- Tier 2. 60_exceptions R301 and R304: SEARCH_START while a search is active, and SEARCH_NEXT, SEARCH_SKIP_FAMILY and
SEARCH_STOP while none waits, are refused with ILLEGAL_COMMAND before any other check. Nothing changes but ERR and ECODE;
a search that waits keeps waiting. (The illegal words: IllegalWordIsRefused.) -/
def Obligations.SearchStateCheckRefuses : Prop :=
  (∀ (s : State), Quiet s → s.sact = true →
    (∀ alm : Bool, exec (.searchStartPlain alm) s = .next (failed .illegalCommand s) ∧
      exec (.searchStartFamily alm) s = .next (failed .illegalCommand s)) ∧
    exec .searchStartPing s = .next (failed .illegalCommand s)) ∧
  (∀ (s : State), Quiet s → s.idrdy = false →
    exec .searchNext s = .next (failed .illegalCommand s) ∧
    exec .searchSkipFamily s = .next (failed .illegalCommand s) ∧
    exec .searchStop s = .next (failed .illegalCommand s))

/-- Tier 2. 41_link R170: with the link closed every command that needs it ends with BUS_CLOSED and changes nothing
else, after the ILLEGAL_COMMAND check and before the count checks; no other command ends with BUS_CLOSED. (The ROM bytes'
own rows: RomBytesAreSentLsbFirst.) -/
def Obligations.ClosedLinkRefuses : Prop :=
  (∀ (i : Instr) (s : State), Quiet s → s.closed = true → needsOpen i = true → searchRefuses i s = false →
    exec i s = .next (failed .busClosed s)) ∧
  (∀ (i : Instr) (s t : State), needsOpen i = false → isRomByte i = false → exec i s = .next t → t.ecode ≠ .busClosed)

/-- Tier 2. 30_encoding R101 and 60_exceptions R304: a count or a length out of a command's range ends it with
INVALID_ARGUMENT, after the two checks before, and changes nothing else. -/
def Obligations.CountOutOfRangeRefuses : Prop :=
  ∀ (i : Instr) (s : State), Quiet s → searchRefuses i s = false → (needsOpen i = true → s.closed = false) →
    countRefuses i s = true → exec i s = .next (failed .invalidArgument s)

/-- Tier 2. 60_exceptions R305 and R300 (TRANSPORT), 41_link R173: whichever command waits, an Error outcome of its
outstanding transaction ends it. The event is in the history, no result is written, the threshold is restored after a
reset, and the error of a search pass ends the search. -/
def Obligations.TransportErrorEndsTheCommand : Prop :=
  (∀ (s : State) (l : List Signal) (od : Bool) (k : AfterWrite) (rest : List Input), s.wait = some (.tx l od k) →
    s.inputs = .port (.tx .error) :: rest →
    step s = .next { failed .transport s with
      busy := false, wait := none, phase := restPhase (s.idrdy && !waitIs Wait.inPass s), inputs := rest,
      history := s.history ++ [.tx l od .error],
      sact := s.sact && !waitIs Wait.inPass s, idrdy := s.idrdy && !waitIs Wait.inPass s }) ∧
  (∀ (s : State) (l : List Signal) (thr : Half) (tmo : Option Nat) (od : Bool) (k : AfterTxRx) (rest : List Input),
    s.wait = some (.txRx l thr tmo od k) → s.inputs = .port (.txRx .error) :: rest →
    step s = .next { failed .transport s with
      busy := false, wait := none, phase := restPhase (s.idrdy && !waitIs Wait.inPass s), inputs := rest,
      history := s.history ++ [.txRx l thr tmo od .error],
      idleThr := if waitIs Wait.isReset s then s.savedThr else s.idleThr,
      sact := s.sact && !waitIs Wait.inPass s, idrdy := s.idrdy && !waitIs Wait.inPass s })

/-- Tier 3. 60_exceptions R305 "No result of the failing command is written": an instruction that has ended with an
error has left DATA, RES, CRC, SIG_LEN, SIGBUF and DATABUF as they were, and so has an answer that comes later and ends
the command that waited for it with an error. (ERR is 0 while a command runs: StepKeepsTheInvariant.) -/
def Obligations.FailingCommandWritesNoResult : Prop :=
  (∀ (i : Instr) (s t : State), exec i s = .next t → t.err = true →
    t.data = s.data ∧ t.res = s.res ∧ t.crc = s.crc ∧ t.sigLen = s.sigLen ∧ t.sigbuf = s.sigbuf ∧
    t.databuf = s.databuf) ∧
  (∀ (s t : State) (a : PortAnswer) (rest : List Input), s.inputs = .port a :: rest → s.err = false →
    step s = .next t → t.err = true →
    t.data = s.data ∧ t.res = s.res ∧ t.crc = s.crc ∧ t.sigLen = s.sigLen ∧ t.sigbuf = s.sigbuf ∧
    t.databuf = s.databuf)

/-- Tier 3. 10_state R26 (log 12: that the ROM bytes' own rows run as commands is the model's choice): only RESET, CRC8_ID
and the search commands that start a pass change RES, and a command that ends with an error does not. An answer that comes
later changes it only for a RESET or a search pass, and not where it ends the command with an error. (ERR is 0 while a
command runs: StepKeepsTheInvariant.) -/
def Obligations.ResIsWrittenOnlyByItsCommands : Prop :=
  (∀ (i : Instr) (s t : State), exec i s = .next t → ¬ writesRes i ∨ t.err = true → t.res = s.res) ∧
  (∀ (s t : State) (a : PortAnswer) (rest : List Input), s.inputs = .port a :: rest → step s = .next t →
    (waitIs Wait.inPass s = false → (∀ l thr tmo od, s.wait ≠ some (.txRx l thr tmo od (.linkReset .reset))) →
      t.res = s.res) ∧
    (s.err = false → t.err = true → t.res = s.res))

/-- Tier 2. 10_state R40: once closed, the link stays closed until a hardware reset, whatever happens. -/
def Obligations.ClosedLastsUntilHardwareReset : Prop :=
  ∀ s t : State, s.closed = true → s.inputs.head? ≠ some .hardReset → step s = .next t → t.closed = true

/-- Tier 3. 10_state R52: a step other than a hardware reset only appends to the port history. -/
def Obligations.PortHistoryOnlyGrows : Prop :=
  ∀ s t : State, s.inputs.head? ≠ some .hardReset → step s = .next t → s.history <+: t.history

/-- Tier 2. 10_state R24, 70 R359 (log 2: how far a step runs is the model's): an answer that comes after the command
has begun to wait for it, with the answers before it taken (`l`, of any length), has the effect it has when it stands ready
behind them, and so have the answers that stand behind it. -/
def Obligations.LateAnswerHasTheSameEffect : Prop :=
  ∀ (i : Instr) (s u v : State) (a : PortAnswer) (l rest : List Input),
    exec i { s with inputs := l } = .next u → u.inputs = [] →
    exec i { s with inputs := l ++ .port a :: rest } = .next v → v.inputs.length ≤ rest.length →
    step { u with inputs := .port a :: rest } = .next v

/-! ### The codec functions and commands -/

/-- Tier 2. 40_codec R155 (source property P1): decoding what was encoded gives the low `n` bits back. -/
def Obligations.CodecRoundTrip : Prop :=
  ∀ (v : Long) (n : Nat), n ≤ 64 → decode (encodeWrite v n) 0 n = some (v &&& BitVec.ofNat 64 (2 ^ n - 1))

/-- Tier 2. 40_codec R156 and R158 (source property P2, and S6 as the spec corrects it): the shape of a read stimulus of
any length, and that its decoding is all ones. -/
def Obligations.ReadStimulusShapeAndDecoding : Prop :=
  (∀ n : Nat, (encodeRead n).length = 2 * n ∧
    ∀ k, k < n → (encodeRead n)[2 * k]? = some (.low 6) ∧ (encodeRead n)[2 * k + 1]? = some (.high 69)) ∧
  (∀ n : Nat, n ≤ 64 → decode (encodeRead n) 0 n = some (BitVec.ofNat 64 (2 ^ n - 1)))

/-- Tier 2. 40_codec R150, R143, R152, R145: ENC_WRITE stores the slots of bits 0 to n-1 of DATA, bit 0 first, and
ENC_READ stores n read slots; each sets SIG_LEN and leaves every other entry and register. They work after CLOSE. (Their
errors: CountOutOfRangeRefuses.) -/
def Obligations.EncWriteAndEncReadStoreTheSlots : Prop :=
  ∀ (s : State) (n : Nat), Quiet s → 2 * n ≤ s.cfg.sigbufEntries →
    (n ≤ 64 → ∃ t, exec (.encWrite n) s = .next t ∧
      t = { ok s with sigLen := BitVec.ofNat 16 (2 * n), sigbuf := t.sigbuf } ∧
      (∀ k, k < n → bufRead (2 * k) t.sigbuf = some (.low (lowOf (s.data.getLsbD k))) ∧
        bufRead (2 * k + 1) t.sigbuf = some (.high (highOf (s.data.getLsbD k)))) ∧
      ∀ i, 2 * n ≤ i → bufRead i t.sigbuf = bufRead i s.sigbuf) ∧
    (∃ t, exec (.encRead n) s = .next t ∧
      t = { ok s with sigLen := BitVec.ofNat 16 (2 * n), sigbuf := t.sigbuf } ∧
      (∀ k, k < n → bufRead (2 * k) t.sigbuf = some (.low 6) ∧ bufRead (2 * k + 1) t.sigbuf = some (.high 69)) ∧
      ∀ i, 2 * n ≤ i → bufRead i t.sigbuf = bufRead i s.sigbuf)

/-- Tier 2. 40_codec R151 and R144: ENC_WRITE_BYTES stores the slots of the bytes, each byte's bit 0 first; where one of
the bytes has no value it faults (D32). -/
def Obligations.EncWriteBytesStoresTheSlots : Prop :=
  ∀ (s : State) (n : Nat), Quiet s → n ≤ s.cfg.databufBytes → 16 * n ≤ s.cfg.sigbufEntries →
    (∀ bs : List Byte, bs.length = n → (∀ k, k < n → bufRead k s.databuf = bs[k]?) →
      ∃ t, exec (.encWriteBytes n) s = .next t ∧
        t = { ok s with sigLen := BitVec.ofNat 16 (16 * n), sigbuf := t.sigbuf } ∧
        (∀ k j b, k < n → j < 8 → bs[k]? = some b →
          bufRead (16 * k + 2 * j) t.sigbuf = some (.low (lowOf (b.getLsbD j))) ∧
          bufRead (16 * k + 2 * j + 1) t.sigbuf = some (.high (highOf (b.getLsbD j)))) ∧
        ∀ i, 16 * n ≤ i → bufRead i t.sigbuf = bufRead i s.sigbuf) ∧
    (∀ k, k < n → bufRead k s.databuf = none → (∀ j, j < k → bufRead j s.databuf ≠ none) →
      exec (.encWriteBytes n) s = .fault (.databufNoValue k))

/-- Tier 2. 40_codec R153 and R146: DECODE writes to DATA the bits of the n pairs from ARG on, 1 for a low below 14, and
0 above bit n-1, whatever the highs' periods; nothing else changes. -/
def Obligations.DecodeReadsTheBits : Prop :=
  ∀ (s : State) (n : Nat) (lo hi : Nat → Signal), Quiet s → n ≤ 64 → s.sigLen.toNat ≤ s.cfg.sigbufEntries →
    s.arg.toNat + 2 * n ≤ s.sigLen.toNat →
    (∀ k, k < n → bufRead (s.arg.toNat + 2 * k) s.sigbuf = some (lo k) ∧
      bufRead (s.arg.toNat + 2 * k + 1) s.sigbuf = some (hi k) ∧ (lo k).level = false ∧ (hi k).level = true) →
    ∃ v : Long, exec (.decode n) s = .next { ok s with data := v } ∧
      ∀ k, k < 64 → v.getLsbD k = (decide (k < n) && decide ((lo k).period.toNat < 14))

/-- Tier 2. 40_codec R153 and R157: DECODE ends with INVALID_SIGNAL, DATA unchanged, when the pairs do not lie within
SIG_LEN, or when all their entries have a value and some pair has the wrong levels; an entry among them without a value
faults (D32; log 10: the order of these is the model's). -/
def Obligations.DecodeRejectsBadSignals : Prop :=
  ∀ (s : State) (n : Nat), Quiet s → n ≤ 64 → s.sigLen.toNat ≤ s.cfg.sigbufEntries →
    (s.sigLen.toNat < s.arg.toNat + 2 * n → exec (.decode n) s = .next (failed .invalidSignal s)) ∧
    (s.arg.toNat + 2 * n ≤ s.sigLen.toNat →
      (∀ i, s.arg.toNat ≤ i → i < s.arg.toNat + 2 * n → bufRead i s.sigbuf ≠ none) →
      (∃ k sg, k < n ∧ ((bufRead (s.arg.toNat + 2 * k) s.sigbuf = some sg ∧ sg.level = true) ∨
        (bufRead (s.arg.toNat + 2 * k + 1) s.sigbuf = some sg ∧ sg.level = false))) →
      exec (.decode n) s = .next (failed .invalidSignal s)) ∧
    (∀ i, s.arg.toNat + 2 * n ≤ s.sigLen.toNat → s.arg.toNat ≤ i → i < s.arg.toNat + 2 * n →
      bufRead i s.sigbuf = none → (∀ j, s.arg.toNat ≤ j → j < i → bufRead j s.sigbuf ≠ none) →
      exec (.decode n) s = .fault (.sigbufNoValue i))

/-- Tier 2. 40_codec R154 and R147: DECODE_BYTES writes the n bytes of the slots from 16·ARG on to DATABUF[0..n-1] and
leaves every other byte; with n = 0 it succeeds whatever ARG is. -/
def Obligations.DecodeBytesReadsTheBytes : Prop :=
  ∀ (s : State) (n : Nat) (lo hi : Nat → Signal), Quiet s → n ≤ s.cfg.databufBytes →
    s.sigLen.toNat ≤ s.cfg.sigbufEntries → n = 0 ∨ 16 * (s.arg.toNat + n) ≤ s.sigLen.toNat →
    (∀ k, k < 8 * n → bufRead (16 * s.arg.toNat + 2 * k) s.sigbuf = some (lo k) ∧
      bufRead (16 * s.arg.toNat + 2 * k + 1) s.sigbuf = some (hi k) ∧ (lo k).level = false ∧ (hi k).level = true) →
    ∃ t, exec (.decodeBytes n) s = .next t ∧ t = { ok s with databuf := t.databuf } ∧
      (∀ k, k < n → ∃ b : Byte, bufRead k t.databuf = some b ∧
        ∀ j, j < 8 → b.getLsbD j = decide ((lo (8 * k + j)).period.toNat < 14)) ∧
      ∀ i, n ≤ i → bufRead i t.databuf = bufRead i s.databuf

/-- Tier 2. 40_codec R154: DECODE_BYTES ends with INVALID_SIGNAL and writes no byte when, for n at least 1, the slots do
not lie within SIG_LEN, or when all their entries have a value and some pair has the wrong levels; an entry among them
without a value faults (D32; log 10). -/
def Obligations.DecodeBytesRejectsBadSignals : Prop :=
  ∀ (s : State) (n : Nat), Quiet s → 0 < n → n ≤ s.cfg.databufBytes → s.sigLen.toNat ≤ s.cfg.sigbufEntries →
    (s.sigLen.toNat < 16 * (s.arg.toNat + n) → exec (.decodeBytes n) s = .next (failed .invalidSignal s)) ∧
    (16 * (s.arg.toNat + n) ≤ s.sigLen.toNat →
      (∀ i, 16 * s.arg.toNat ≤ i → i < 16 * (s.arg.toNat + n) → bufRead i s.sigbuf ≠ none) →
      (∃ k sg, k < 8 * n ∧ ((bufRead (16 * s.arg.toNat + 2 * k) s.sigbuf = some sg ∧ sg.level = true) ∨
        (bufRead (16 * s.arg.toNat + 2 * k + 1) s.sigbuf = some sg ∧ sg.level = false))) →
      exec (.decodeBytes n) s = .next (failed .invalidSignal s)) ∧
    (∀ i, 16 * (s.arg.toNat + n) ≤ s.sigLen.toNat → 16 * s.arg.toNat ≤ i → i < 16 * (s.arg.toNat + n) →
      bufRead i s.sigbuf = none → (∀ j, 16 * s.arg.toNat ≤ j → j < i → bufRead j s.sigbuf ≠ none) →
      exec (.decodeBytes n) s = .fault (.sigbufNoValue i))

/-! ### The link commands -/

/-- Tier 2. 41_link R177, R171, R172: RESET with the outcome `o` of its transaction standing ready, a captured list or a
Timeout: RES is the presence, one event with threshold 530 and timeout 500 is appended in the mode at issue, the pin mode
and the threshold are as before. -/
def Obligations.ResetReportsPresence : Prop :=
  ∀ (s : State) (o : RxOutcome) (rest : List Input), Quiet s → s.closed = false →
    s.inputs = .port (.txRx o) :: rest →
    (showsPresence o → exec .reset s = .next { ok s with
      res := true, savedThr := s.idleThr, history := s.history ++ [resetEvent s.openDrain o], inputs := rest }) ∧
    (showsNone o → exec .reset s = .next { ok s with
      res := false, savedThr := s.idleThr, history := s.history ++ [resetEvent s.openDrain o], inputs := rest })

/-- Tier 2. 41_link R178, R174: WRITE_BITS with n bits sets the pin mode to not PWR and transmits the slots of bits 0 to
n-1 of DATA in one transaction issued in that mode; with n = 0 it only sets the mode and takes no answer. -/
def Obligations.WriteBitsTransmitsTheBits : Prop :=
  ∀ (s : State) (pwr : Bool) (n : Nat) (rest : List Input), Quiet s → s.closed = false → n ≤ 64 →
    (0 < n → s.inputs = .port (.tx .ok) :: rest →
      exec (.writeBits pwr n) s = .next { ok s with
        openDrain := !pwr, history := s.history ++ [.tx (valueSlots s.data n) (!pwr) .ok], inputs := rest }) ∧
    (n = 0 → exec (.writeBits pwr n) s = .next { ok s with openDrain := !pwr })

/-- Tier 2. 41_link R179 (D17): WRITE_BYTES with n bytes, every transmission Ok, transmits each byte in a transaction of
its own, in order, in the mode not PWR; where one of the bytes has no value it faults before anything is sent (D32; log
11). -/
def Obligations.WriteBytesTransmitsEachByte : Prop :=
  ∀ (s : State) (pwr : Bool) (n : Nat) (rest : List Input), Quiet s → s.closed = false → n ≤ s.cfg.databufBytes →
    (∀ bs : List Byte, bs.length = n → (∀ k, k < n → bufRead k s.databuf = bs[k]?) →
      s.inputs = List.replicate n (.port (.tx .ok)) ++ rest →
      exec (.writeBytes pwr n) s = .next { ok s with
        openDrain := !pwr, history := s.history ++ bs.map (fun b => .tx (byteSlots b) (!pwr) .ok), inputs := rest }) ∧
    (∀ k, k < n → bufRead k s.databuf = none → (∀ j, j < k → bufRead j s.databuf ≠ none) →
      exec (.writeBytes pwr n) s = .fault (.databufNoValue k))

/-- Tier 2. 41_link R180, R175: READ_BITS with n bits restores open-drain, sends n read slots in one transaction with the
link's threshold and no timeout, and writes to DATA the bits of the captured list's first n pairs, zero above; with n = 0
it writes DATA <- 0 and takes no answer. -/
def Obligations.ReadBitsReadsTheBits : Prop :=
  ∀ (s : State) (n : Nat) (cl : List Signal) (lo hi : Nat → Signal) (rest : List Input), Quiet s →
    s.closed = false → n ≤ 64 →
    (0 < n → s.inputs = .port (.txRx (.captured cl)) :: rest →
      (∀ k, k < n → cl[2 * k]? = some (lo k) ∧ cl[2 * k + 1]? = some (hi k) ∧ (lo k).level = false ∧
        (hi k).level = true) →
      ∃ v : Long, exec (.readBits n) s = .next { ok s with
          openDrain := true, data := v, inputs := rest,
          history := s.history ++ [.txRx (readSlots n) s.idleThr none true (.captured cl)] } ∧
        ∀ k, k < 64 → v.getLsbD k = (decide (k < n) && decide ((lo k).period.toNat < 14))) ∧
    (n = 0 → exec (.readBits n) s = .next { ok s with openDrain := true, data := 0 })

/-- Tier 2. 41_link R175, R180, R181, 43_rom R233, 44_search R252, R260: a captured list that is too short, or has a wrong
level in the pairs that are read, ends READ_BITS, READ_BYTES, READ_ROM and a search pass with INVALID_SIGNAL: open-drain is
restored, the event is in the history, and DATA and DATABUF are unchanged. In a pass, of any mode and whichever of the two
bit reads of a position `p` it is, the search ends too, with the search registers as at the start of the pass. -/
def Obligations.ReadsRejectBadCaptures : Prop :=
  (∀ (s : State) (cl : List Signal) (m : Nat) (rest : List Input), Quiet s → s.closed = false → 0 < m →
    s.inputs = .port (.txRx (.captured cl)) :: rest → undecodable cl m →
    (m ≤ 64 → exec (.readBits m) s = .next { failed .invalidSignal s with
      openDrain := true, inputs := rest,
      history := s.history ++ [.txRx (readSlots m) s.idleThr none true (.captured cl)] }) ∧
    (∀ n, m = 8 * n → n ≤ s.cfg.databufBytes → exec (.readBytes n) s = .next { failed .invalidSignal s with
      openDrain := true, inputs := rest,
      history := s.history ++ [.txRx (readSlots m) s.idleThr none true (.captured cl)] })) ∧
  (∀ (s : State) (o : RxOutcome) (cl : List Signal) (rest : List Input), Quiet s → s.closed = false → o ≠ .error →
    s.inputs = .port (.txRx o) :: .port (.tx .ok) :: .port (.txRx (.captured cl)) :: rest → undecodable cl 64 →
    exec .readRom s = .next { failed .invalidSignal s with
      openDrain := true, savedThr := s.idleThr, inputs := rest,
      history := s.history ++ [resetEvent s.openDrain o, .tx (byteSlots 0x33) true .ok,
        .txRx (readSlots 64) s.idleThr none true (.captured cl)] }) ∧
  (∀ (i : Instr) (s u : State) (p : Nat) (cl bad : List Signal) (first : List (List Signal))
    (rb rc : Nat → List Signal) (b c : Nat → Bool) (rest : List Input), startsPass i s u → Quiet s → s.closed = false →
    present cl → p < 64 → busAnswers rb rc b c p → (first = [] ∨ ∃ r x, readsBit r x ∧ first = [r]) →
    undecodable bad 1 →
    s.inputs = .port (.txRx (.captured cl)) :: .port (.tx .ok) ::
      (passAnswers rb rc p ++ (first ++ [bad]).map (fun r => .port (.txRx (.captured r))) ++ rest) →
    exec i s = .next { failed .invalidSignal (searchEnded u) with
      openDrain := true, savedThr := s.idleThr, inputs := rest,
      history := s.history ++ passOpening u.salm s.openDrain cl ++
        passEvents s.idleThr rb rc (choice u.plub u.sid b c) p ++ (first ++ [bad]).map (bitReadEvent s.idleThr) })

/-- Tier 2. 41_link R181 (D16): READ_BYTES with n bytes restores open-drain, sends 8·n read slots in one transaction, and
writes the n bytes of the captured list to DATABUF[0..n-1], leaving every other byte; with n = 0 it only sets the pin
mode and takes no answer. -/
def Obligations.ReadBytesReadsTheBytes : Prop :=
  ∀ (s : State) (n : Nat) (cl : List Signal) (lo hi : Nat → Signal) (rest : List Input), Quiet s →
    s.closed = false → n ≤ s.cfg.databufBytes →
    (0 < n → s.inputs = .port (.txRx (.captured cl)) :: rest →
      (∀ k, k < 8 * n → cl[2 * k]? = some (lo k) ∧ cl[2 * k + 1]? = some (hi k) ∧ (lo k).level = false ∧
        (hi k).level = true) →
      ∃ t, exec (.readBytes n) s = .next t ∧
        t = { ok s with
          openDrain := true, databuf := t.databuf, inputs := rest,
          history := s.history ++ [.txRx (readSlots (8 * n)) s.idleThr none true (.captured cl)] } ∧
        (∀ k, k < n → ∃ b : Byte, bufRead k t.databuf = some b ∧
          ∀ j, j < 8 → b.getLsbD j = decide ((lo (8 * k + j)).period.toNat < 14)) ∧
        ∀ i, n ≤ i → bufRead i t.databuf = bufRead i s.databuf) ∧
    (n = 0 → exec (.readBytes n) s = .next { ok s with openDrain := true })

/-- Tier 1. 41_link R182: SET_POWER sets the pin mode to not PWR and does nothing else: no event is appended. -/
def Obligations.SetPowerSetsThePinMode : Prop :=
  ∀ (s : State) (pwr : Bool), Quiet s → s.closed = false →
    exec (.setPower pwr) s = .next { ok s with openDrain := !pwr }

/-- Tier 1. 41_link R183: CLOSE ends an active search, appends one Close event and marks the link closed; a second CLOSE
has no effect and no error. -/
def Obligations.CloseIsIdempotent : Prop :=
  ∀ s : State, Quiet s →
    (s.closed = false → exec .close s = .next { ok s with
      closed := true, sact := false, idrdy := false, phase := .idle, history := s.history ++ [.close] }) ∧
    (s.closed = true → exec .close s = .next (ok s))

/-- Tier 2. 41_link R185: WRITE_BITS 8 with the low byte of DATA and WRITE_BYTES 1 with the same byte in DATABUF[0] have
the same effect, whatever the outcome of the transmission: one Tx event of the byte's slots, and the pin mode. -/
def Obligations.WriteBitsEightIsWriteBytesOne : Prop :=
  ∀ (s : State) (pwr : Bool) (o : TxOutcome) (rest : List Input), Quiet s → s.closed = false →
    1 ≤ s.cfg.databufBytes → bufRead 0 s.databuf = some (s.data.setWidth 8) → s.inputs = .port (.tx o) :: rest →
    exec (.writeBits pwr 8) s = exec (.writeBytes pwr 1) s ∧
    ∃ t, exec (.writeBits pwr 8) s = .next t ∧ t.busy = false ∧ t.openDrain = !pwr ∧
      t.history = s.history ++ [.tx (encodeWrite s.data 8) (!pwr) o]

/-! ### The CRC unit -/

/-- Tier 2. 42_crc R212, R211: CRC8_ID writes the CRC of bytes 0 to 6 of DATA to CRC and to RES whether it equals byte 7;
it works with the link closed and changes nothing else. -/
def Obligations.Crc8IdValidatesData : Prop :=
  ∀ s : State, Quiet s → ∃ bs : List Byte, bs.length = 7 ∧
    (∀ i b, bs[i]? = some b → b.toNat = s.data.toNat / 256 ^ i % 256) ∧
    exec .crc8Id s = .next { ok s with
      crc := crc8Bytes bs, res := decide ((crc8Bytes bs).toNat = s.data.toNat / 2 ^ 56) }

/-- Tier 2. 42_crc R213: CRC8_BYTES writes the CRC of DATABUF[0..n-1] to CRC and leaves RES; where one of the bytes has
no value it faults (D32). -/
def Obligations.Crc8BytesSumsTheBuffer : Prop :=
  ∀ (s : State) (n : Nat), Quiet s → n ≤ s.cfg.databufBytes →
    (∀ bs : List Byte, bs.length = n → (∀ k, k < n → bufRead k s.databuf = bs[k]?) →
      exec (.crc8Bytes n) s = .next { ok s with crc := crc8Bytes bs }) ∧
    (∀ k, k < n → bufRead k s.databuf = none → (∀ j, j < k → bufRead j s.databuf ≠ none) →
      exec (.crc8Bytes n) s = .fault (.databufNoValue k))

/-- Tier 2. 42_crc R215: the CRC is linear over XOR for sequences of equal length, and 0 for zero bytes. -/
def Obligations.CrcIsLinear : Prop :=
  (∀ a b : List Byte, a.length = b.length →
    crc8Bytes (List.zipWith (· ^^^ ·) a b) = crc8Bytes a ^^^ crc8Bytes b) ∧
  (∀ n : Nat, crc8Bytes (List.replicate n 0) = 0)

/-- Tier 2. 42_crc R214: for every valid ID the CRC over all eight of its bytes is 0. -/
def Obligations.ValidIdHasZeroCrc : Prop :=
  ∀ id : Long, crc8Id id = id.extractLsb' 56 8 → crc8Bytes ((List.range 8).map fun i => id.extractLsb' (8 * i) 8) = 0

/-- Tier 1. 42_crc R216: the values the rule lists, "123456789" among them, the crc after each of the eight bit steps of
[0x01], and source property P4 on the seven known ROM IDs of source scenario S3 (95 §2). -/
def Obligations.CrcCheckValues : Prop :=
  crc8Bytes [] = 0 ∧ crc8Bytes [0x01] = 0x5E ∧ crc8Bytes [0x02] = 0xBC ∧ crc8Bytes [0x28] = 0xE1 ∧
  crc8Bytes [0x80] = 0x8C ∧ crc8Bytes [0xFF] = 0x35 ∧ crc8Bytes [0x01, 0x00] = 0xC4 ∧
  crc8Bytes [0x31, 0x32, 0x33, 0x34, 0x35, 0x36, 0x37, 0x38, 0x39] = 0xA1 ∧
  (List.range 8).map (fun k => crcBits (k + 1) 0 0x01) = [0x8C, 0x46, 0x23, 0x9D, 0xC2, 0x61, 0xBC, 0x5E] ∧
  crc8Id 0xA200000001B81C02 = 0xA2 ∧ crc8Id 0xD7AA13C029169085 = 0xD7 ∧ crc8Id 0xA600080194701310 = 0xA6 ∧
  crc8Id 0x2E0000028FAD4928 = 0x2E ∧ crc8Id 0x3D00000000000001 = 0x3D ∧ crc8Id 0x51000000FF2A5A28 = 0x51 ∧
  crc8Id 0xFA000001FF2A5A28 = 0xFA

/-! ### The ROM commands and bytes -/

/-- Tier 2. 43_rom R231 and R232: SELECT and SKIP after a reset that shows a presence, every transmission Ok: the reset's
event, then the ROM byte, then for SELECT the 64 bits of DATA, each in open-drain mode. After a reset without presence,
Timeout included, they end with NO_DEVICE: one event, no write, the pin mode unchanged. -/
def Obligations.SelectAndSkipAddressTheBus : Prop :=
  (∀ (s : State) (cl : List Signal) (rest : List Input), Quiet s → s.closed = false → present cl →
    (s.inputs = .port (.txRx (.captured cl)) :: .port (.tx .ok) :: .port (.tx .ok) :: rest →
      exec .select s = .next { ok s with
        openDrain := true, savedThr := s.idleThr, inputs := rest,
        history := s.history ++ [resetEvent s.openDrain (.captured cl), .tx (byteSlots 0x55) true .ok,
          .tx (valueSlots s.data 64) true .ok] }) ∧
    (s.inputs = .port (.txRx (.captured cl)) :: .port (.tx .ok) :: rest →
      exec .skip s = .next { ok s with
        openDrain := true, savedThr := s.idleThr, inputs := rest,
        history := s.history ++ [resetEvent s.openDrain (.captured cl), .tx (byteSlots 0xCC) true .ok] })) ∧
  (∀ (i : Instr) (s : State) (o : RxOutcome) (rest : List Input), i = .select ∨ i = .skip → Quiet s →
    s.closed = false → showsNone o → s.inputs = .port (.txRx o) :: rest →
    exec i s = .next { failed .noDevice s with
      savedThr := s.idleThr, history := s.history ++ [resetEvent s.openDrain o], inputs := rest })

/-- Tier 2. 43_rom R233: READ_ROM goes on whatever its reset returned, sends READ and reads 64 bits into DATA. -/
def Obligations.ReadRomReadsTheId : Prop :=
  ∀ (s : State) (o : RxOutcome) (cl : List Signal) (lo hi : Nat → Signal) (rest : List Input), Quiet s →
    s.closed = false → o ≠ .error →
    s.inputs = .port (.txRx o) :: .port (.tx .ok) :: .port (.txRx (.captured cl)) :: rest →
    (∀ k, k < 64 → cl[2 * k]? = some (lo k) ∧ cl[2 * k + 1]? = some (hi k) ∧ (lo k).level = false ∧
      (hi k).level = true) →
    ∃ v : Long, exec .readRom s = .next { ok s with
        openDrain := true, savedThr := s.idleThr, data := v, inputs := rest,
        history := s.history ++ [resetEvent s.openDrain o, .tx (byteSlots 0x33) true .ok,
          .txRx (readSlots 64) s.idleThr none true (.captured cl)] } ∧
      ∀ k, k < 64 → v.getLsbD k = decide ((lo k).period.toNat < 14)

/-- Tier 2. 43_rom R230, 41_link R174 and R170 (log 12: that a ROM byte runs by its own row is the model's choice): each
ROM byte is sent as one byte, bit 0 first, in open-drain mode, and nothing else changes; with the link closed it ends
with BUS_CLOSED and nothing is sent, and while BUSY = 1 it faults as a CMD write does. -/
def Obligations.RomBytesAreSentLsbFirst : Prop :=
  ∀ (i : Instr) (b : Byte) (s : State) (rest : List Input),
    (i, b) ∈ [(Instr.romMatch, (0x55 : Byte)), (.romSkip, 0xCC), (.romSearch, 0xF0), (.romRead, 0x33),
      (.romSearchAlarm, 0xEC)] →
    (Quiet s → s.closed = false → s.inputs = .port (.tx .ok) :: rest → exec i s = .next { ok s with
      openDrain := true, history := s.history ++ [.tx (byteSlots b) true .ok], inputs := rest }) ∧
    (Quiet s → s.closed = true → exec i s = .next (failed .busClosed s)) ∧
    (s.busy = true → exec i s = .fault .writeWhileBusy)

/-! ### The search -/

/-- Tier 2. 44_search R252-R258, R261: SEARCH_START PLAIN on a bus that answers the reset with a presence and the 64
positions with bits, none of them (1,1): the pass's ID has the bits that R253 chooses, `lub` and `lufb` are the highest
positions recorded, 194 events are appended, and an ID with a valid CRC is delivered: DATA, RES = 1, IDRDY = 1. -/
def Obligations.PlainSearchDelivers : Prop :=
  ∀ (s : State) (alm : Bool) (cl : List Signal) (rb rc : Nat → List Signal) (b c : Nat → Bool) (id : Long)
    (rest : List Input), Quiet s → s.closed = false → s.sact = false → present cl → busAnswers rb rc b c 64 →
    isChosen id (-1) 0 b c → crc8Id id = id.extractLsb' 56 8 →
    s.inputs = .port (.txRx (.captured cl)) :: .port (.tx .ok) :: (passAnswers rb rc 64 ++ rest) →
    exec (.searchStartPlain alm) s = .next { ok s with
      data := id, res := true, idrdy := true, sact := true, phase := .yield,
      sid := id, lub := lastBelow (recorded (-1) 0 b c) 64, lufb := lastBelow (recorded (-1) 0 b c) 8, plub := -1,
      smode := .plain, salm := alm, sfam := 0, openDrain := true, savedThr := s.idleThr, inputs := rest,
      history := s.history ++ wholePassEvents alm s.openDrain cl s.idleThr rb rc (choice (-1) 0 b c) }

/-- Tier 2. 44_search R250, R258, R261: SEARCH_START FAMILY starts from the family byte of DATA with plub = 8; the
candidate is delivered when its low byte is the family byte, else the search ends with RES = 0 and DATA unchanged. -/
def Obligations.FamilySearchDeliversOrEnds : Prop :=
  ∀ (s : State) (alm : Bool) (cl : List Signal) (rb rc : Nat → List Signal) (b c : Nat → Bool) (id sid : Long)
    (fam : Byte) (rest : List Input), Quiet s → s.closed = false → s.sact = false → present cl →
    busAnswers rb rc b c 64 → fam.toNat = s.data.toNat % 256 → sid.toNat = fam.toNat → isChosen id 8 sid b c →
    crc8Id id = id.extractLsb' 56 8 →
    s.inputs = .port (.txRx (.captured cl)) :: .port (.tx .ok) :: (passAnswers rb rc 64 ++ rest) →
    exec (.searchStartFamily alm) s = .next { ok s with
      data := if id.extractLsb' 0 8 = fam then id else s.data,
      res := decide (id.extractLsb' 0 8 = fam), idrdy := decide (id.extractLsb' 0 8 = fam),
      sact := decide (id.extractLsb' 0 8 = fam), phase := if id.extractLsb' 0 8 = fam then .yield else .idle,
      sid := id, lub := lastBelow (recorded 8 sid b c) 64, lufb := lastBelow (recorded 8 sid b c) 8, plub := 8,
      smode := .family, salm := alm, sfam := fam, openDrain := true, savedThr := s.idleThr, inputs := rest,
      history := s.history ++ wholePassEvents alm s.openDrain cl s.idleThr rb rc (choice 8 sid b c) }

/-- Tier 2. 44_search R250, R258, R270: SEARCH_START PING walks with plub = 64 from DATA, delivers nothing, and ends with
RES = 1 exactly when the pass's ID equals DATA; DATA is unchanged. -/
def Obligations.PingReportsItsTarget : Prop :=
  ∀ (s : State) (cl : List Signal) (rb rc : Nat → List Signal) (b c : Nat → Bool) (id : Long) (rest : List Input),
    Quiet s → s.closed = false → s.sact = false → present cl → busAnswers rb rc b c 64 → isChosen id 64 s.data b c →
    crc8Id id = id.extractLsb' 56 8 →
    s.inputs = .port (.txRx (.captured cl)) :: .port (.tx .ok) :: (passAnswers rb rc 64 ++ rest) →
    exec .searchStartPing s = .next { ok s with
      res := decide (id = s.data), idrdy := false, sact := false, phase := .idle,
      sid := id, lub := lastBelow (recorded 64 s.data b c) 64, lufb := lastBelow (recorded 64 s.data b c) 8, plub := 64,
      smode := .ping, salm := false, sfam := 0, starget := s.data, openDrain := true, savedThr := s.idleThr,
      inputs := rest,
      history := s.history ++ wholePassEvents false s.openDrain cl s.idleThr rb rc (choice 64 s.data b c) }

/-- Tier 2. 44_search R258, R259, R262, R263: SEARCH_NEXT goes on at `lub`, SEARCH_SKIP_FAMILY at `lufb`. Where that is -1
the search is complete: RES = 0 and no port traffic. Else the next pass runs, and its ID, with a valid CRC, is delivered in
a plain search and, where it is of the family, in a family search, which else ends with RES = 0 and DATA unchanged. No ping
waits for an answer (StepKeepsTheInvariant). The next passes that end otherwise: BadCrcEndsTheSearch,
NoResponseEndsTheSearch, EmptyBusEndsTheSearch, ReadsRejectBadCaptures. -/
def Obligations.SearchAnswerRunsTheNextPass : Prop :=
  ∀ (i : Instr) (q : Int) (s : State), (i = .searchNext ∧ q = s.lub) ∨ (i = .searchSkipFamily ∧ q = s.lufb) →
    Quiet s → s.closed = false → s.idrdy = true →
    (q = -1 → exec i s = .next { ok s with
      res := false, sact := false, idrdy := false, phase := .idle, plub := -1, lub := -1, lufb := -1 }) ∧
    (∀ (cl : List Signal) (rb rc : Nat → List Signal) (b c : Nat → Bool) (id : Long) (rest : List Input), q ≠ -1 →
      present cl → busAnswers rb rc b c 64 → isChosen id q s.sid b c → crc8Id id = id.extractLsb' 56 8 →
      s.inputs = .port (.txRx (.captured cl)) :: .port (.tx .ok) :: (passAnswers rb rc 64 ++ rest) →
      (s.smode = .plain ∨ (s.smode = .family ∧ id.extractLsb' 0 8 = s.sfam) → exec i s = .next { ok s with
        data := id, res := true, sid := id, lub := lastBelow (recorded q s.sid b c) 64,
        lufb := lastBelow (recorded q s.sid b c) 8, plub := q, openDrain := true, savedThr := s.idleThr,
        inputs := rest,
        history := s.history ++ wholePassEvents s.salm s.openDrain cl s.idleThr rb rc (choice q s.sid b c) }) ∧
      (s.smode = .family → id.extractLsb' 0 8 ≠ s.sfam → exec i s = .next { searchEnded (ok s) with
        res := false, sid := id, lub := lastBelow (recorded q s.sid b c) 64,
        lufb := lastBelow (recorded q s.sid b c) 8, plub := q, openDrain := true, savedThr := s.idleThr,
        inputs := rest,
        history := s.history ++ wholePassEvents s.salm s.openDrain cl s.idleThr rb rc (choice q s.sid b c) }))

/-- Tier 2. 44_search R257, R252: a pass whose ID fails the CRC check, in every mode (ping included) and whichever
instruction started it, raises CRC_ERROR, delivers nothing and ends the search, and sid, lub and lufb are as they were when
the pass began. -/
def Obligations.BadCrcEndsTheSearch : Prop :=
  ∀ (i : Instr) (s u : State) (cl : List Signal) (rb rc : Nat → List Signal) (b c : Nat → Bool) (id : Long)
    (rest : List Input), startsPass i s u → Quiet s → s.closed = false → present cl → busAnswers rb rc b c 64 →
    isChosen id u.plub u.sid b c → crc8Id id ≠ id.extractLsb' 56 8 →
    s.inputs = .port (.txRx (.captured cl)) :: .port (.tx .ok) :: (passAnswers rb rc 64 ++ rest) →
    exec i s = .next { failed .crcError (searchEnded u) with
      openDrain := true, savedThr := s.idleThr, inputs := rest,
      history := s.history ++ wholePassEvents u.salm s.openDrain cl s.idleThr rb rc (choice u.plub u.sid b c) }

/-- Tier 2. 44_search R255, R260: the response (1,1) at position `p`, after `p` answered positions, in a pass of any mode
and whichever instruction started it, raises BUS_ERROR in a search that is not alarm-only, with the search registers as at
the start of the pass; in an alarm-only search it ends the search without error, RES = 0, with the registers of the
positions passed. -/
def Obligations.NoResponseEndsTheSearch : Prop :=
  ∀ (i : Instr) (s u : State) (p : Nat) (cl r1 r2 : List Signal) (rb rc : Nat → List Signal) (b c : Nat → Bool)
    (id : Long) (rest : List Input), startsPass i s u → Quiet s → s.closed = false → present cl → p < 64 →
    busAnswers rb rc b c p → readsBit r1 true → readsBit r2 true →
    (∀ k, k < 64 → id.getLsbD k = if k < p then choice u.plub u.sid b c k else u.sid.getLsbD k) →
    s.inputs = .port (.txRx (.captured cl)) :: .port (.tx .ok) ::
      (passAnswers rb rc p ++ .port (.txRx (.captured r1)) :: .port (.txRx (.captured r2)) :: rest) →
    (u.salm = false → exec i s = .next { failed .busError (searchEnded u) with
      openDrain := true, savedThr := s.idleThr, inputs := rest,
      history := s.history ++ passOpening false s.openDrain cl ++
        passEvents s.idleThr rb rc (choice u.plub u.sid b c) p ++ [bitReadEvent s.idleThr r1, bitReadEvent s.idleThr r2] }) ∧
    (u.salm = true → exec i s = .next { searchEnded u with
      res := false, sid := id, lub := lastBelow (recorded u.plub u.sid b c) p,
      lufb := lastBelow (recorded u.plub u.sid b c) (min p 8), openDrain := true, savedThr := s.idleThr, inputs := rest,
      history := s.history ++ passOpening true s.openDrain cl ++
        passEvents s.idleThr rb rc (choice u.plub u.sid b c) p ++ [bitReadEvent s.idleThr r1, bitReadEvent s.idleThr r2] })

/-- Tier 2. 44_search R251, R258, R259, R260: a search pass that finds no presence, Timeout included, in any mode and
whichever instruction started it, ends the search after its one reset with RES = 0 and no error, the search registers as at
the start of the pass and the pin mode unchanged. -/
def Obligations.EmptyBusEndsTheSearch : Prop :=
  ∀ (i : Instr) (s u : State) (o : RxOutcome) (rest : List Input), startsPass i s u → Quiet s → s.closed = false →
    showsNone o → s.inputs = .port (.txRx o) :: rest →
    exec i s = .next { searchEnded u with
      res := false, savedThr := s.idleThr, history := s.history ++ [resetEvent s.openDrain o], inputs := rest }

/-- Tier 1. 44_search R264: SEARCH_STOP ends a search that waits, with no port traffic; RES, DATA and the search
registers keep their values. (With IDRDY = 0: SearchStateCheckRefuses.) -/
def Obligations.SearchStopEndsTheSearch : Prop :=
  ∀ s : State, Quiet s → s.idrdy = true →
    exec .searchStop s = .next { ok s with sact := false, idrdy := false, phase := .idle }
end

