-- ==== Sys2Proof/Laws/Buffers.lean ====
section
/-! SUPPORT. The laws of the sparse buffers: a read after a write, what a list of writes leaves, what a list of reads
gives, and that every write keeps the canonical form. -/

namespace Sys2Proof.Machine

variable {α : Type}

/-- A read after a write: the value at the key written, the old value elsewhere. -/
theorem bufRead_bufWrite (i k : Nat) (v : α) (m : List (Nat × α)) :
    bufRead i (bufWrite k v m) = if i = k then some v else bufRead i m := by
  induction m with
  | nil => by_cases h : i = k <;> simp [bufWrite, bufRead, h, eq_comm]
  | cons e t ih =>
    obtain ⟨j, w⟩ := e
    simp only [bufWrite]
    split
    · by_cases h : i = k
      · subst h; simp [bufRead]
      · simp [bufRead, h, Ne.symm h]
    · split
      · rename_i hk
        subst hk
        by_cases h : i = k
        · subst h; simp [bufRead]
        · simp [bufRead, h, Ne.symm h]
      · simp only [bufRead, ih]
        by_cases h : i = k
        · subst h
          rename_i h1 h2
          simp [Ne.symm h2]
        · simp [h]

@[simp] theorem bufRead_bufWrite_same (k : Nat) (v : α) (m : List (Nat × α)) :
    bufRead k (bufWrite k v m) = some v := by simp [bufRead_bufWrite]

theorem bufRead_bufWrite_ne {i k : Nat} (h : i ≠ k) (v : α) (m : List (Nat × α)) :
    bufRead i (bufWrite k v m) = bufRead i m := by simp [bufRead_bufWrite, h]

/-- A read after writes of a list: an element of the list inside its range, the old value outside. -/
theorem bufRead_bufWriteList (i k : Nat) (vs : List α) (m : List (Nat × α)) :
    bufRead i (bufWriteList k vs m) =
      if k ≤ i ∧ i < k + vs.length then vs[i - k]? else bufRead i m := by
  induction vs generalizing k m with
  | nil => simp [bufWriteList]
  | cons v vs ih =>
    simp only [bufWriteList, ih, bufRead_bufWrite, List.length_cons]
    by_cases h1 : k + 1 ≤ i ∧ i < k + 1 + vs.length
    · have h2 : k ≤ i ∧ i < k + (vs.length + 1) := by omega
      have h3 : i - k = (i - (k + 1)) + 1 := by omega
      simp [h1, h2, h3]
    · by_cases h : i = k
      · subst h; simp
      · have h2 : ¬ (k ≤ i ∧ i < k + (vs.length + 1)) := by omega
        rw [if_neg h1, if_neg h2, if_neg h]

theorem bufRead_bufWriteList_outside {i k : Nat} {vs : List α} (h : i < k ∨ k + vs.length ≤ i)
    (m : List (Nat × α)) : bufRead i (bufWriteList k vs m) = bufRead i m := by
  rw [bufRead_bufWriteList, if_neg (by omega)]

theorem bufRead_bufWriteList_inside {i k : Nat} {vs : List α} (h : i < vs.length) (m : List (Nat × α)) :
    bufRead (k + i) (bufWriteList k vs m) = some vs[i] := by
  rw [bufRead_bufWriteList, if_pos (by omega)]
  simp [h]

/-- A list of reads answers a list exactly when each key has the value listed. -/
theorem bufReadList_ok {m : List (Nat × α)} {k n : Nat} {vs : List α} :
    bufReadList m k n = .ok vs ↔ vs.length = n ∧ ∀ i < n, bufRead (k + i) m = vs[i]? := by
  induction n generalizing k vs with
  | zero => simp [bufReadList, eq_comm]
  | succ n ih =>
    simp only [bufReadList]
    constructor
    · intro h
      split at h
      · cases h
      · rename_i v hv
        split at h
        · rename_i us hus
          cases h
          obtain ⟨hl, hu⟩ := ih.mp hus
          refine ⟨by simp [hl], ?_⟩
          rintro (_ | i) hi
          · simpa using hv
          · have := hu i (by omega)
            simpa [Nat.add_assoc, Nat.add_comm 1 i] using this
        · cases h
    · rintro ⟨hl, hu⟩
      cases vs with
      | nil => simp at hl
      | cons v vs =>
        have h0 : bufRead k m = some v := by simpa using hu 0 (by omega)
        have ht : bufReadList m (k + 1) n = .ok vs := by
          refine ih.mpr ⟨by simpa using hl, fun i hi => ?_⟩
          have := hu (i + 1) (by omega)
          simpa [Nat.add_assoc, Nat.add_comm 1 i] using this
        simp [h0, ht]

/-- A list of reads stops at the first key without a value. -/
theorem bufReadList_error {m : List (Nat × α)} {k n j : Nat} :
    bufReadList m k n = .error j ↔
      k ≤ j ∧ j < k + n ∧ bufRead j m = none ∧ ∀ i, k ≤ i → i < j → (bufRead i m).isSome := by
  induction n generalizing k with
  | zero => simp [bufReadList]; intro h1 h2; omega
  | succ n ih =>
    simp only [bufReadList]
    cases hk : bufRead k m with
    | none =>
      simp only [Except.error.injEq]
      constructor
      · rintro rfl
        exact ⟨le_refl _, by omega, hk, fun i h1 h2 => by omega⟩
      · rintro ⟨h1, -, -, h4⟩
        by_contra hne
        have := h4 k (le_refl _) (by omega)
        simp [hk] at this
    | some v =>
      have key : bufReadList m (k + 1) n = .error j ↔
          k ≤ j ∧ j < k + (n + 1) ∧ bufRead j m = none ∧ ∀ i, k ≤ i → i < j → (bufRead i m).isSome := by
        rw [ih]
        constructor
        · rintro ⟨h1, h2, h3, h4⟩
          refine ⟨by omega, by omega, h3, fun i hi hj => ?_⟩
          by_cases h : i = k
          · subst h; simp [hk]
          · exact h4 i (by omega) hj
        · rintro ⟨h1, h2, h3, h4⟩
          have : k ≠ j := by rintro rfl; simp [hk] at h3
          exact ⟨by omega, by omega, h3, fun i hi hj => h4 i (by omega) hj⟩
      rw [← key]
      cases bufReadList m (k + 1) n <;> simp

/-- A write within the size keeps the canonical form. -/
theorem bufWf_bufWrite {size k : Nat} (v : α) {m : List (Nat × α)} (h : bufWf size m) (hk : k < size) :
    bufWf size (bufWrite k v m) := by
  obtain ⟨hp, hb⟩ := h
  induction m with
  | nil => exact ⟨by simp [bufWrite], by simp [bufWrite, hk]⟩
  | cons e t ih =>
    obtain ⟨j, w⟩ := e
    have hj : j < size := hb (j, w) (by simp)
    have ht : ∀ e ∈ t, e.1 < size := fun e he => hb e (by simp [he])
    rw [List.pairwise_cons] at hp
    obtain ⟨hh, hp⟩ := hp
    simp only [bufWrite]
    split
    · rename_i hlt
      refine ⟨?_, ?_⟩
      · refine List.pairwise_cons.mpr ⟨?_, List.pairwise_cons.mpr ⟨hh, hp⟩⟩
        intro e he
        rcases List.mem_cons.mp he with rfl | he
        · exact hlt
        · exact lt_trans hlt (hh e he)
      · intro e he
        rcases List.mem_cons.mp he with rfl | he
        · exact hk
        · exact hb e he
    · split
      · rename_i heq
        subst heq
        refine ⟨List.pairwise_cons.mpr ⟨hh, hp⟩, ?_⟩
        intro e he
        rcases List.mem_cons.mp he with rfl | he
        · exact hk
        · exact ht e he
      · rename_i h1 h2
        obtain ⟨ip, ib⟩ := ih hp ht
        refine ⟨List.pairwise_cons.mpr ⟨?_, ip⟩, ?_⟩
        · have hmem : ∀ (t : List (Nat × α)), (∀ e ∈ t, j < e.1) → ∀ e ∈ bufWrite k v t, j < e.1 := by
            intro t
            induction t with
            | nil => intro _ e he; simp [bufWrite] at he; subst he; show j < k; omega
            | cons f t iht =>
              obtain ⟨j', w'⟩ := f
              intro ha e he
              simp only [bufWrite] at he
              split at he
              · rcases List.mem_cons.mp he with rfl | he
                · show j < k; omega
                · exact ha e he
              · split at he
                · rcases List.mem_cons.mp he with rfl | he
                  · show j < k; omega
                  · exact ha e (by simp [he])
                · rcases List.mem_cons.mp he with rfl | he
                  · exact ha _ (by simp)
                  · exact iht (fun e he => ha e (by simp [he])) e he
          exact hmem t hh
        · intro e he
          rcases List.mem_cons.mp he with rfl | he
          · exact hj
          · exact ib e he

/-- Writes of a list within the size keep the canonical form. -/
theorem bufWf_bufWriteList {size k : Nat} (vs : List α) {m : List (Nat × α)} (h : bufWf size m)
    (hk : k + vs.length ≤ size) : bufWf size (bufWriteList k vs m) := by
  induction vs generalizing k m with
  | nil => exact h
  | cons v vs ih =>
    simp only [List.length_cons] at hk
    exact ih (bufWf_bufWrite v h (by omega)) (by omega)

end Sys2Proof.Machine
end

