-- ==== Sys2Proof/Laws/Decode.lean ====
section
/-! SUPPORT. The fields of a command word and the word of given fields are the same thing written twice. -/

namespace Sys2Proof

/-- Each bit of the word with the fields `f` (30_encoding R100). -/
theorem toWord_getLsbD (f : CmdFields) (i : Nat) :
    f.toWord.getLsbD i =
      if i < 8 then f.op.getLsbD i
      else if i = 8 then f.pwr
      else if i = 9 then f.alm
      else if i < 12 then f.smode.getLsbD (i - 10)
      else if i < 16 then f.low.getLsbD (i - 12)
      else if i < 24 then f.count.getLsbD (i - 16)
      else f.high.getLsbD (i - 24) := by
  have h : f.toWord.getLsbD i =
      BitVec.getLsbD (f.high ++ f.count ++ f.low ++ f.smode ++ BitVec.ofBool f.alm ++ BitVec.ofBool f.pwr ++ f.op) i := rfl
  rw [h]
  simp only [BitVec.getLsbD_append, BitVec.getLsbD_ofBool]
  by_cases h0 : i < 8
  · simp [h0]
  by_cases h1 : i = 8
  · subst h1; simp
  by_cases h2 : i = 9
  · subst h2; simp
  have e1 : ¬ (i - 8 < 1) := by omega
  have e2 : ¬ (i - 8 - 1 < 1) := by omega
  by_cases h3 : i < 12
  · have a1 : i - 8 - 1 - 1 < 2 := by omega
    have a2 : i - 8 - 1 - 1 = i - 10 := by omega
    rw [if_neg h0, if_neg e1, if_neg e2, if_pos a1, if_neg h0, if_neg h1, if_neg h2, if_pos h3, a2]
  have e3 : ¬ (i - 8 - 1 - 1 < 2) := by omega
  by_cases h4 : i < 16
  · have a1 : i - 8 - 1 - 1 - 2 < 4 := by omega
    have a2 : i - 8 - 1 - 1 - 2 = i - 12 := by omega
    rw [if_neg h0, if_neg e1, if_neg e2, if_neg e3, if_pos a1, if_neg h0, if_neg h1, if_neg h2, if_neg h3, if_pos h4, a2]
  have e4 : ¬ (i - 8 - 1 - 1 - 2 < 4) := by omega
  by_cases h5 : i < 24
  · have a1 : i - 8 - 1 - 1 - 2 - 4 < 8 := by omega
    have a2 : i - 8 - 1 - 1 - 2 - 4 = i - 16 := by omega
    rw [if_neg h0, if_neg e1, if_neg e2, if_neg e3, if_neg e4, if_pos a1, if_neg h0, if_neg h1, if_neg h2, if_neg h3,
      if_neg h4, if_pos h5, a2]
  · have a1 : ¬ (i - 8 - 1 - 1 - 2 - 4 < 8) := by omega
    have a2 : i - 8 - 1 - 1 - 2 - 4 - 8 = i - 24 := by omega
    rw [if_neg h0, if_neg e1, if_neg e2, if_neg e3, if_neg e4, if_neg a1, if_neg h0, if_neg h1, if_neg h2, if_neg h3,
      if_neg h4, if_neg h5, a2]

/-- The fields of the word with the fields `f` are `f` (30_encoding R100). -/
@[simp] theorem cmdFields_toWord (f : CmdFields) : cmdFields f.toWord = f := by
  have field : ∀ (k n : Nat) (v : BitVec n), (∀ i, i < n → f.toWord.getLsbD (k + i) = v.getLsbD i) →
      f.toWord.extractLsb' k n = v := by
    intro k n v h
    apply BitVec.eq_of_getLsbD_eq
    intro i hi
    rw [BitVec.getLsbD_extractLsb', h i hi]
    simp [hi]
  have h8 : f.toWord.getLsbD 8 = f.pwr := by rw [toWord_getLsbD]; rfl
  have h9 : f.toWord.getLsbD 9 = f.alm := by rw [toWord_getLsbD]; rfl
  have hop := field 0 8 f.op fun i hi => by
    rw [toWord_getLsbD, if_pos (by omega), Nat.zero_add]
  have hmode := field 10 2 f.smode fun i hi => by
    rw [toWord_getLsbD, if_neg (by omega), if_neg (by omega), if_neg (by omega), if_pos (by omega), Nat.add_sub_cancel_left]
  have hlow := field 12 4 f.low fun i hi => by
    rw [toWord_getLsbD, if_neg (by omega), if_neg (by omega), if_neg (by omega), if_neg (by omega), if_pos (by omega),
      Nat.add_sub_cancel_left]
  have hcount := field 16 8 f.count fun i hi => by
    rw [toWord_getLsbD, if_neg (by omega), if_neg (by omega), if_neg (by omega), if_neg (by omega), if_neg (by omega),
      if_pos (by omega), Nat.add_sub_cancel_left]
  have hhigh := field 24 8 f.high fun i hi => by
    rw [toWord_getLsbD, if_neg (by omega), if_neg (by omega), if_neg (by omega), if_neg (by omega), if_neg (by omega),
      if_neg (by omega), Nat.add_sub_cancel_left]
  unfold cmdFields
  rw [h8, h9, hop, hmode, hlow, hcount, hhigh]

/-- The word with the fields of `w` is `w` (30_encoding R100). -/
@[simp] theorem toWord_cmdFields (w : Word) : (cmdFields w).toWord = w := by
  have field : ∀ (k n i : Nat), k ≤ i → i < k + n → (w.extractLsb' k n).getLsbD (i - k) = w.getLsbD i := by
    intro k n i h1 h2
    have h3 : i - k < n := by omega
    rw [BitVec.getLsbD_extractLsb', Nat.add_sub_cancel' h1]
    simp [h3]
  apply BitVec.eq_of_getLsbD_eq
  intro i hi
  rw [toWord_getLsbD]
  simp only [cmdFields]
  by_cases h0 : i < 8
  · rw [if_pos h0]
    exact field 0 8 i (by omega) (by omega)
  rw [if_neg h0]
  by_cases h1 : i = 8
  · rw [if_pos h1, h1]
  rw [if_neg h1]
  by_cases h2 : i = 9
  · rw [if_pos h2, h2]
  rw [if_neg h2]
  split
  · exact field 10 2 i (by omega) (by omega)
  split
  · exact field 12 4 i (by omega) (by omega)
  split
  · exact field 16 8 i (by omega) (by omega)
  · exact field 24 8 i (by omega) (by omega)

/-- Two words with the same fields are the same word. -/
theorem cmdFields_injective {w w' : Word} (h : cmdFields w = cmdFields w') : w = w' := by
  rw [← toWord_cmdFields w, h, toWord_cmdFields]

/-- An `if` that answers an instruction took its first branch or its second. -/
theorem ite_ok {c : Prop} [Decidable c] {x i : Instr} {e : Except Reject Instr}
    (h : (if c then .ok x else e) = .ok i) : (c ∧ i = x) ∨ e = .ok i := by
  by_cases hc : c
  · rw [if_pos hc] at h; exact .inl ⟨hc, (Except.ok.inj h).symm⟩
  · rw [if_neg hc] at h; exact .inr h

/-- An `if` that rejects in its first branch and answers an instruction took its second. -/
theorem ite_error {c : Prop} [Decidable c] {r : Reject} {i : Instr} {e : Except Reject Instr}
    (h : (if c then .error r else e) = .ok i) : ¬ c ∧ e = .ok i := by
  by_cases hc : c
  · rw [if_pos hc] at h; cases h
  · rw [if_neg hc] at h; exact ⟨hc, h⟩

/-- What a row of 30_encoding R104 gives: the instruction, with the fields its row uses. -/
theorem instrOf_ok {f : CmdFields} {i : Instr} (h : instrOf f = .ok i) :
    (f.op = 0x01 ∧ i = .encWrite f.count.toNat) ∨ (f.op = 0x02 ∧ i = .encWriteBytes f.count.toNat) ∨
    (f.op = 0x03 ∧ i = .encRead f.count.toNat) ∨ (f.op = 0x04 ∧ i = .decode f.count.toNat) ∨
    (f.op = 0x05 ∧ i = .decodeBytes f.count.toNat) ∨ (f.op = 0x10 ∧ i = .reset) ∨
    (f.op = 0x11 ∧ i = .writeBits f.pwr f.count.toNat) ∨ (f.op = 0x12 ∧ i = .writeBytes f.pwr f.count.toNat) ∨
    (f.op = 0x13 ∧ i = .readBits f.count.toNat) ∨ (f.op = 0x14 ∧ i = .readBytes f.count.toNat) ∨
    (f.op = 0x15 ∧ i = .setPower f.pwr) ∨ (f.op = 0x1F ∧ i = .close) ∨ (f.op = 0x20 ∧ i = .crc8Id) ∨
    (f.op = 0x21 ∧ i = .crc8Bytes f.count.toNat) ∨ (f.op = 0x30 ∧ i = .select) ∨ (f.op = 0x31 ∧ i = .skip) ∨
    (f.op = 0x32 ∧ i = .readRom) ∨ ((f.op = 0x40 ∧ f.smode = 0) ∧ i = .searchStartPlain f.alm) ∨
    ((f.op = 0x40 ∧ f.smode = 1) ∧ i = .searchStartFamily f.alm) ∨
    ((f.op = 0x40 ∧ f.smode = 2 ∧ f.alm = false) ∧ i = .searchStartPing) ∨ (f.op = 0x41 ∧ i = .searchNext) ∨
    (f.op = 0x42 ∧ i = .searchSkipFamily) ∨ (f.op = 0x43 ∧ i = .searchStop) := by
  unfold instrOf at h
  iterate 17 (refine (ite_ok h).imp id fun h => ?_)
  by_cases hs : f.op = 0x40
  · rw [if_pos hs] at h
    refine (ite_ok h).imp (And.imp_left fun h => ⟨hs, h⟩) fun h => ?_
    refine (ite_ok h).imp (And.imp_left fun h => ⟨hs, h⟩) fun h => ?_
    exact .inl ((ite_ok h).elim (And.imp_left fun h => ⟨hs, h⟩) (nomatch ·))
  · rw [if_neg hs] at h
    refine .inr (.inr (.inr ?_))
    refine (ite_ok h).imp id fun h => ?_
    refine (ite_ok h).imp id fun h => ?_
    exact (ite_ok h).elim id (nomatch ·)

/-- What a legal command word is: the five checks of 30_encoding R106 passed, and a row. -/
theorem decodeCmd_ok {w : Word} {i : Instr} : decodeCmd w = .ok i ↔
    (cmdFields w).low = 0 ∧ (cmdFields w).high = 0 ∧ (cmdFields w).op ∈ cmdOps ∧
    ((cmdFields w).pwr = true → (cmdFields w).op ∈ pwrOps) ∧
    ((cmdFields w).op = 0x40 ∨ ((cmdFields w).alm = false ∧ (cmdFields w).smode = 0)) ∧
    ((cmdFields w).op ∈ countOps ∨ (cmdFields w).count = 0) ∧ instrOf (cmdFields w) = .ok i := by
  unfold decodeCmd
  generalize cmdFields w = f
  constructor
  · intro h
    obtain ⟨h1, h⟩ := ite_error h
    obtain ⟨h2, h⟩ := ite_error h
    obtain ⟨h3, h⟩ := ite_error h
    obtain ⟨h4, h⟩ := ite_error h
    obtain ⟨h5, h⟩ := ite_error h
    refine ⟨by_contra fun hh => h1 (.inl hh), by_contra fun hh => h1 (.inr hh), by_contra h2,
      fun hp => by_contra fun hh => h3 ⟨hp, hh⟩, ?_, ?_, h⟩
    · by_contra hh
      push Not at hh
      refine h4 ⟨?_, hh.1⟩
      by_cases ha : f.alm = true
      · exact .inl ha
      · exact .inr (hh.2 (by simpa using ha))
    · by_contra hh
      push Not at hh
      exact h5 ⟨hh.2, hh.1⟩
  · rintro ⟨h1, h2, h3, h4, h5, h6, h⟩
    rw [if_neg (by simp [h1, h2]), if_neg (by simpa using h3), if_neg (fun hh => hh.2 (h4 hh.1)), if_neg, if_neg, h]
    · rintro ⟨ha, hb⟩
      exact h6.elim hb ha
    · rintro ⟨ha, hb⟩
      rcases h5 with h5 | ⟨h5, h6⟩
      · exact hb h5
      · simp [h5, h6] at ha

end Sys2Proof
end

