-- ==== Sys2Proof/Laws/State.lean ====
section
/-! SUPPORT. Each field of the state after each named update: what the update writes, and what it leaves. -/

namespace Sys2Proof.Machine

variable (s : State)

/-! ### beginCommand -/
@[simp] theorem beginCommand_cfg : (beginCommand s).cfg = s.cfg := rfl
@[simp] theorem beginCommand_busy : (beginCommand s).busy = true := rfl
@[simp] theorem beginCommand_err : (beginCommand s).err = false := rfl
@[simp] theorem beginCommand_ecode : (beginCommand s).ecode = .none := rfl
@[simp] theorem beginCommand_res : (beginCommand s).res = s.res := rfl
@[simp] theorem beginCommand_idrdy : (beginCommand s).idrdy = s.idrdy := rfl
@[simp] theorem beginCommand_sact : (beginCommand s).sact = s.sact := rfl
@[simp] theorem beginCommand_closed : (beginCommand s).closed = s.closed := rfl
@[simp] theorem beginCommand_openDrain : (beginCommand s).openDrain = s.openDrain := rfl
@[simp] theorem beginCommand_data : (beginCommand s).data = s.data := rfl
@[simp] theorem beginCommand_arg : (beginCommand s).arg = s.arg := rfl
@[simp] theorem beginCommand_sigLen : (beginCommand s).sigLen = s.sigLen := rfl
@[simp] theorem beginCommand_crc : (beginCommand s).crc = s.crc := rfl
@[simp] theorem beginCommand_idleThr : (beginCommand s).idleThr = s.idleThr := rfl
@[simp] theorem beginCommand_savedThr : (beginCommand s).savedThr = s.savedThr := rfl
@[simp] theorem beginCommand_sid : (beginCommand s).sid = s.sid := rfl
@[simp] theorem beginCommand_lub : (beginCommand s).lub = s.lub := rfl
@[simp] theorem beginCommand_lufb : (beginCommand s).lufb = s.lufb := rfl
@[simp] theorem beginCommand_plub : (beginCommand s).plub = s.plub := rfl
@[simp] theorem beginCommand_smode : (beginCommand s).smode = s.smode := rfl
@[simp] theorem beginCommand_salm : (beginCommand s).salm = s.salm := rfl
@[simp] theorem beginCommand_sfam : (beginCommand s).sfam = s.sfam := rfl
@[simp] theorem beginCommand_starget : (beginCommand s).starget = s.starget := rfl
@[simp] theorem beginCommand_sigbuf : (beginCommand s).sigbuf = s.sigbuf := rfl
@[simp] theorem beginCommand_databuf : (beginCommand s).databuf = s.databuf := rfl
@[simp] theorem beginCommand_phase : (beginCommand s).phase = .exec := rfl
@[simp] theorem beginCommand_wait : (beginCommand s).wait = none := rfl
@[simp] theorem beginCommand_history : (beginCommand s).history = s.history := rfl
@[simp] theorem beginCommand_portSetup : (beginCommand s).portSetup = s.portSetup := rfl
@[simp] theorem beginCommand_inputs : (beginCommand s).inputs = s.inputs := rfl
@[simp] theorem beginCommand_rdata : (beginCommand s).rdata = s.rdata := rfl
@[simp] theorem beginCommand_draws : (beginCommand s).draws = s.draws := rfl

/-! ### finish -/
@[simp] theorem finish_cfg : (finish s).cfg = s.cfg := rfl
@[simp] theorem finish_busy : (finish s).busy = false := rfl
@[simp] theorem finish_err : (finish s).err = s.err := rfl
@[simp] theorem finish_ecode : (finish s).ecode = s.ecode := rfl
@[simp] theorem finish_res : (finish s).res = s.res := rfl
@[simp] theorem finish_idrdy : (finish s).idrdy = s.idrdy := rfl
@[simp] theorem finish_sact : (finish s).sact = s.sact := rfl
@[simp] theorem finish_closed : (finish s).closed = s.closed := rfl
@[simp] theorem finish_openDrain : (finish s).openDrain = s.openDrain := rfl
@[simp] theorem finish_data : (finish s).data = s.data := rfl
@[simp] theorem finish_arg : (finish s).arg = s.arg := rfl
@[simp] theorem finish_sigLen : (finish s).sigLen = s.sigLen := rfl
@[simp] theorem finish_crc : (finish s).crc = s.crc := rfl
@[simp] theorem finish_idleThr : (finish s).idleThr = s.idleThr := rfl
@[simp] theorem finish_savedThr : (finish s).savedThr = s.savedThr := rfl
@[simp] theorem finish_sid : (finish s).sid = s.sid := rfl
@[simp] theorem finish_lub : (finish s).lub = s.lub := rfl
@[simp] theorem finish_lufb : (finish s).lufb = s.lufb := rfl
@[simp] theorem finish_plub : (finish s).plub = s.plub := rfl
@[simp] theorem finish_smode : (finish s).smode = s.smode := rfl
@[simp] theorem finish_salm : (finish s).salm = s.salm := rfl
@[simp] theorem finish_sfam : (finish s).sfam = s.sfam := rfl
@[simp] theorem finish_starget : (finish s).starget = s.starget := rfl
@[simp] theorem finish_sigbuf : (finish s).sigbuf = s.sigbuf := rfl
@[simp] theorem finish_databuf : (finish s).databuf = s.databuf := rfl
@[simp] theorem finish_phase : (finish s).phase = restPhase s.idrdy := rfl
@[simp] theorem finish_wait : (finish s).wait = none := rfl
@[simp] theorem finish_history : (finish s).history = s.history := rfl
@[simp] theorem finish_portSetup : (finish s).portSetup = s.portSetup := rfl
@[simp] theorem finish_inputs : (finish s).inputs = s.inputs := rfl
@[simp] theorem finish_rdata : (finish s).rdata = s.rdata := rfl
@[simp] theorem finish_draws : (finish s).draws = s.draws := rfl

/-! ### raise -/
@[simp] theorem raise_cfg (e : ErrKind) : (raise e s).cfg = s.cfg := rfl
@[simp] theorem raise_busy (e : ErrKind) : (raise e s).busy = false := rfl
@[simp] theorem raise_err (e : ErrKind) : (raise e s).err = true := rfl
@[simp] theorem raise_ecode (e : ErrKind) : (raise e s).ecode = e := rfl
@[simp] theorem raise_res (e : ErrKind) : (raise e s).res = s.res := rfl
@[simp] theorem raise_idrdy (e : ErrKind) : (raise e s).idrdy = s.idrdy := rfl
@[simp] theorem raise_sact (e : ErrKind) : (raise e s).sact = s.sact := rfl
@[simp] theorem raise_closed (e : ErrKind) : (raise e s).closed = s.closed := rfl
@[simp] theorem raise_openDrain (e : ErrKind) : (raise e s).openDrain = s.openDrain := rfl
@[simp] theorem raise_data (e : ErrKind) : (raise e s).data = s.data := rfl
@[simp] theorem raise_arg (e : ErrKind) : (raise e s).arg = s.arg := rfl
@[simp] theorem raise_sigLen (e : ErrKind) : (raise e s).sigLen = s.sigLen := rfl
@[simp] theorem raise_crc (e : ErrKind) : (raise e s).crc = s.crc := rfl
@[simp] theorem raise_idleThr (e : ErrKind) : (raise e s).idleThr = s.idleThr := rfl
@[simp] theorem raise_savedThr (e : ErrKind) : (raise e s).savedThr = s.savedThr := rfl
@[simp] theorem raise_sid (e : ErrKind) : (raise e s).sid = s.sid := rfl
@[simp] theorem raise_lub (e : ErrKind) : (raise e s).lub = s.lub := rfl
@[simp] theorem raise_lufb (e : ErrKind) : (raise e s).lufb = s.lufb := rfl
@[simp] theorem raise_plub (e : ErrKind) : (raise e s).plub = s.plub := rfl
@[simp] theorem raise_smode (e : ErrKind) : (raise e s).smode = s.smode := rfl
@[simp] theorem raise_salm (e : ErrKind) : (raise e s).salm = s.salm := rfl
@[simp] theorem raise_sfam (e : ErrKind) : (raise e s).sfam = s.sfam := rfl
@[simp] theorem raise_starget (e : ErrKind) : (raise e s).starget = s.starget := rfl
@[simp] theorem raise_sigbuf (e : ErrKind) : (raise e s).sigbuf = s.sigbuf := rfl
@[simp] theorem raise_databuf (e : ErrKind) : (raise e s).databuf = s.databuf := rfl
@[simp] theorem raise_phase (e : ErrKind) : (raise e s).phase = restPhase s.idrdy := rfl
@[simp] theorem raise_wait (e : ErrKind) : (raise e s).wait = none := rfl
@[simp] theorem raise_history (e : ErrKind) : (raise e s).history = s.history := rfl
@[simp] theorem raise_portSetup (e : ErrKind) : (raise e s).portSetup = s.portSetup := rfl
@[simp] theorem raise_inputs (e : ErrKind) : (raise e s).inputs = s.inputs := rfl
@[simp] theorem raise_rdata (e : ErrKind) : (raise e s).rdata = s.rdata := rfl
@[simp] theorem raise_draws (e : ErrKind) : (raise e s).draws = s.draws := rfl

/-! ### clearSearch -/
@[simp] theorem clearSearch_cfg : (clearSearch s).cfg = s.cfg := rfl
@[simp] theorem clearSearch_busy : (clearSearch s).busy = s.busy := rfl
@[simp] theorem clearSearch_err : (clearSearch s).err = s.err := rfl
@[simp] theorem clearSearch_ecode : (clearSearch s).ecode = s.ecode := rfl
@[simp] theorem clearSearch_res : (clearSearch s).res = s.res := rfl
@[simp] theorem clearSearch_idrdy : (clearSearch s).idrdy = false := rfl
@[simp] theorem clearSearch_sact : (clearSearch s).sact = false := rfl
@[simp] theorem clearSearch_closed : (clearSearch s).closed = s.closed := rfl
@[simp] theorem clearSearch_openDrain : (clearSearch s).openDrain = s.openDrain := rfl
@[simp] theorem clearSearch_data : (clearSearch s).data = s.data := rfl
@[simp] theorem clearSearch_arg : (clearSearch s).arg = s.arg := rfl
@[simp] theorem clearSearch_sigLen : (clearSearch s).sigLen = s.sigLen := rfl
@[simp] theorem clearSearch_crc : (clearSearch s).crc = s.crc := rfl
@[simp] theorem clearSearch_idleThr : (clearSearch s).idleThr = s.idleThr := rfl
@[simp] theorem clearSearch_savedThr : (clearSearch s).savedThr = s.savedThr := rfl
@[simp] theorem clearSearch_sid : (clearSearch s).sid = s.sid := rfl
@[simp] theorem clearSearch_lub : (clearSearch s).lub = s.lub := rfl
@[simp] theorem clearSearch_lufb : (clearSearch s).lufb = s.lufb := rfl
@[simp] theorem clearSearch_plub : (clearSearch s).plub = s.plub := rfl
@[simp] theorem clearSearch_smode : (clearSearch s).smode = s.smode := rfl
@[simp] theorem clearSearch_salm : (clearSearch s).salm = s.salm := rfl
@[simp] theorem clearSearch_sfam : (clearSearch s).sfam = s.sfam := rfl
@[simp] theorem clearSearch_starget : (clearSearch s).starget = s.starget := rfl
@[simp] theorem clearSearch_sigbuf : (clearSearch s).sigbuf = s.sigbuf := rfl
@[simp] theorem clearSearch_databuf : (clearSearch s).databuf = s.databuf := rfl
@[simp] theorem clearSearch_phase : (clearSearch s).phase = s.phase := rfl
@[simp] theorem clearSearch_wait : (clearSearch s).wait = s.wait := rfl
@[simp] theorem clearSearch_history : (clearSearch s).history = s.history := rfl
@[simp] theorem clearSearch_portSetup : (clearSearch s).portSetup = s.portSetup := rfl
@[simp] theorem clearSearch_inputs : (clearSearch s).inputs = s.inputs := rfl
@[simp] theorem clearSearch_rdata : (clearSearch s).rdata = s.rdata := rfl
@[simp] theorem clearSearch_draws : (clearSearch s).draws = s.draws := rfl

/-! ### endSearch -/
@[simp] theorem endSearch_cfg (r : Bool) : (endSearch r s).cfg = s.cfg := rfl
@[simp] theorem endSearch_busy (r : Bool) : (endSearch r s).busy = s.busy := rfl
@[simp] theorem endSearch_err (r : Bool) : (endSearch r s).err = s.err := rfl
@[simp] theorem endSearch_ecode (r : Bool) : (endSearch r s).ecode = s.ecode := rfl
@[simp] theorem endSearch_res (r : Bool) : (endSearch r s).res = r := rfl
@[simp] theorem endSearch_idrdy (r : Bool) : (endSearch r s).idrdy = false := rfl
@[simp] theorem endSearch_sact (r : Bool) : (endSearch r s).sact = false := rfl
@[simp] theorem endSearch_closed (r : Bool) : (endSearch r s).closed = s.closed := rfl
@[simp] theorem endSearch_openDrain (r : Bool) : (endSearch r s).openDrain = s.openDrain := rfl
@[simp] theorem endSearch_data (r : Bool) : (endSearch r s).data = s.data := rfl
@[simp] theorem endSearch_arg (r : Bool) : (endSearch r s).arg = s.arg := rfl
@[simp] theorem endSearch_sigLen (r : Bool) : (endSearch r s).sigLen = s.sigLen := rfl
@[simp] theorem endSearch_crc (r : Bool) : (endSearch r s).crc = s.crc := rfl
@[simp] theorem endSearch_idleThr (r : Bool) : (endSearch r s).idleThr = s.idleThr := rfl
@[simp] theorem endSearch_savedThr (r : Bool) : (endSearch r s).savedThr = s.savedThr := rfl
@[simp] theorem endSearch_sid (r : Bool) : (endSearch r s).sid = s.sid := rfl
@[simp] theorem endSearch_lub (r : Bool) : (endSearch r s).lub = s.lub := rfl
@[simp] theorem endSearch_lufb (r : Bool) : (endSearch r s).lufb = s.lufb := rfl
@[simp] theorem endSearch_plub (r : Bool) : (endSearch r s).plub = s.plub := rfl
@[simp] theorem endSearch_smode (r : Bool) : (endSearch r s).smode = s.smode := rfl
@[simp] theorem endSearch_salm (r : Bool) : (endSearch r s).salm = s.salm := rfl
@[simp] theorem endSearch_sfam (r : Bool) : (endSearch r s).sfam = s.sfam := rfl
@[simp] theorem endSearch_starget (r : Bool) : (endSearch r s).starget = s.starget := rfl
@[simp] theorem endSearch_sigbuf (r : Bool) : (endSearch r s).sigbuf = s.sigbuf := rfl
@[simp] theorem endSearch_databuf (r : Bool) : (endSearch r s).databuf = s.databuf := rfl
@[simp] theorem endSearch_phase (r : Bool) : (endSearch r s).phase = s.phase := rfl
@[simp] theorem endSearch_wait (r : Bool) : (endSearch r s).wait = s.wait := rfl
@[simp] theorem endSearch_history (r : Bool) : (endSearch r s).history = s.history := rfl
@[simp] theorem endSearch_portSetup (r : Bool) : (endSearch r s).portSetup = s.portSetup := rfl
@[simp] theorem endSearch_inputs (r : Bool) : (endSearch r s).inputs = s.inputs := rfl
@[simp] theorem endSearch_rdata (r : Bool) : (endSearch r s).rdata = s.rdata := rfl
@[simp] theorem endSearch_draws (r : Bool) : (endSearch r s).draws = s.draws := rfl

/-! ### setOpenDrain -/
@[simp] theorem setOpenDrain_cfg (b : Bool) : (setOpenDrain b s).cfg = s.cfg := rfl
@[simp] theorem setOpenDrain_busy (b : Bool) : (setOpenDrain b s).busy = s.busy := rfl
@[simp] theorem setOpenDrain_err (b : Bool) : (setOpenDrain b s).err = s.err := rfl
@[simp] theorem setOpenDrain_ecode (b : Bool) : (setOpenDrain b s).ecode = s.ecode := rfl
@[simp] theorem setOpenDrain_res (b : Bool) : (setOpenDrain b s).res = s.res := rfl
@[simp] theorem setOpenDrain_idrdy (b : Bool) : (setOpenDrain b s).idrdy = s.idrdy := rfl
@[simp] theorem setOpenDrain_sact (b : Bool) : (setOpenDrain b s).sact = s.sact := rfl
@[simp] theorem setOpenDrain_closed (b : Bool) : (setOpenDrain b s).closed = s.closed := rfl
@[simp] theorem setOpenDrain_openDrain (b : Bool) : (setOpenDrain b s).openDrain = b := rfl
@[simp] theorem setOpenDrain_data (b : Bool) : (setOpenDrain b s).data = s.data := rfl
@[simp] theorem setOpenDrain_arg (b : Bool) : (setOpenDrain b s).arg = s.arg := rfl
@[simp] theorem setOpenDrain_sigLen (b : Bool) : (setOpenDrain b s).sigLen = s.sigLen := rfl
@[simp] theorem setOpenDrain_crc (b : Bool) : (setOpenDrain b s).crc = s.crc := rfl
@[simp] theorem setOpenDrain_idleThr (b : Bool) : (setOpenDrain b s).idleThr = s.idleThr := rfl
@[simp] theorem setOpenDrain_savedThr (b : Bool) : (setOpenDrain b s).savedThr = s.savedThr := rfl
@[simp] theorem setOpenDrain_sid (b : Bool) : (setOpenDrain b s).sid = s.sid := rfl
@[simp] theorem setOpenDrain_lub (b : Bool) : (setOpenDrain b s).lub = s.lub := rfl
@[simp] theorem setOpenDrain_lufb (b : Bool) : (setOpenDrain b s).lufb = s.lufb := rfl
@[simp] theorem setOpenDrain_plub (b : Bool) : (setOpenDrain b s).plub = s.plub := rfl
@[simp] theorem setOpenDrain_smode (b : Bool) : (setOpenDrain b s).smode = s.smode := rfl
@[simp] theorem setOpenDrain_salm (b : Bool) : (setOpenDrain b s).salm = s.salm := rfl
@[simp] theorem setOpenDrain_sfam (b : Bool) : (setOpenDrain b s).sfam = s.sfam := rfl
@[simp] theorem setOpenDrain_starget (b : Bool) : (setOpenDrain b s).starget = s.starget := rfl
@[simp] theorem setOpenDrain_sigbuf (b : Bool) : (setOpenDrain b s).sigbuf = s.sigbuf := rfl
@[simp] theorem setOpenDrain_databuf (b : Bool) : (setOpenDrain b s).databuf = s.databuf := rfl
@[simp] theorem setOpenDrain_phase (b : Bool) : (setOpenDrain b s).phase = s.phase := rfl
@[simp] theorem setOpenDrain_wait (b : Bool) : (setOpenDrain b s).wait = s.wait := rfl
@[simp] theorem setOpenDrain_history (b : Bool) : (setOpenDrain b s).history = s.history := rfl
@[simp] theorem setOpenDrain_portSetup (b : Bool) : (setOpenDrain b s).portSetup = s.portSetup := rfl
@[simp] theorem setOpenDrain_inputs (b : Bool) : (setOpenDrain b s).inputs = s.inputs := rfl
@[simp] theorem setOpenDrain_rdata (b : Bool) : (setOpenDrain b s).rdata = s.rdata := rfl
@[simp] theorem setOpenDrain_draws (b : Bool) : (setOpenDrain b s).draws = s.draws := rfl

/-! ### setIdleThr -/
@[simp] theorem setIdleThr_cfg (t : Half) : (setIdleThr t s).cfg = s.cfg := rfl
@[simp] theorem setIdleThr_busy (t : Half) : (setIdleThr t s).busy = s.busy := rfl
@[simp] theorem setIdleThr_err (t : Half) : (setIdleThr t s).err = s.err := rfl
@[simp] theorem setIdleThr_ecode (t : Half) : (setIdleThr t s).ecode = s.ecode := rfl
@[simp] theorem setIdleThr_res (t : Half) : (setIdleThr t s).res = s.res := rfl
@[simp] theorem setIdleThr_idrdy (t : Half) : (setIdleThr t s).idrdy = s.idrdy := rfl
@[simp] theorem setIdleThr_sact (t : Half) : (setIdleThr t s).sact = s.sact := rfl
@[simp] theorem setIdleThr_closed (t : Half) : (setIdleThr t s).closed = s.closed := rfl
@[simp] theorem setIdleThr_openDrain (t : Half) : (setIdleThr t s).openDrain = s.openDrain := rfl
@[simp] theorem setIdleThr_data (t : Half) : (setIdleThr t s).data = s.data := rfl
@[simp] theorem setIdleThr_arg (t : Half) : (setIdleThr t s).arg = s.arg := rfl
@[simp] theorem setIdleThr_sigLen (t : Half) : (setIdleThr t s).sigLen = s.sigLen := rfl
@[simp] theorem setIdleThr_crc (t : Half) : (setIdleThr t s).crc = s.crc := rfl
@[simp] theorem setIdleThr_idleThr (t : Half) : (setIdleThr t s).idleThr = t := rfl
@[simp] theorem setIdleThr_savedThr (t : Half) : (setIdleThr t s).savedThr = s.savedThr := rfl
@[simp] theorem setIdleThr_sid (t : Half) : (setIdleThr t s).sid = s.sid := rfl
@[simp] theorem setIdleThr_lub (t : Half) : (setIdleThr t s).lub = s.lub := rfl
@[simp] theorem setIdleThr_lufb (t : Half) : (setIdleThr t s).lufb = s.lufb := rfl
@[simp] theorem setIdleThr_plub (t : Half) : (setIdleThr t s).plub = s.plub := rfl
@[simp] theorem setIdleThr_smode (t : Half) : (setIdleThr t s).smode = s.smode := rfl
@[simp] theorem setIdleThr_salm (t : Half) : (setIdleThr t s).salm = s.salm := rfl
@[simp] theorem setIdleThr_sfam (t : Half) : (setIdleThr t s).sfam = s.sfam := rfl
@[simp] theorem setIdleThr_starget (t : Half) : (setIdleThr t s).starget = s.starget := rfl
@[simp] theorem setIdleThr_sigbuf (t : Half) : (setIdleThr t s).sigbuf = s.sigbuf := rfl
@[simp] theorem setIdleThr_databuf (t : Half) : (setIdleThr t s).databuf = s.databuf := rfl
@[simp] theorem setIdleThr_phase (t : Half) : (setIdleThr t s).phase = s.phase := rfl
@[simp] theorem setIdleThr_wait (t : Half) : (setIdleThr t s).wait = s.wait := rfl
@[simp] theorem setIdleThr_history (t : Half) : (setIdleThr t s).history = s.history := rfl
@[simp] theorem setIdleThr_portSetup (t : Half) : (setIdleThr t s).portSetup = s.portSetup := rfl
@[simp] theorem setIdleThr_inputs (t : Half) : (setIdleThr t s).inputs = s.inputs := rfl
@[simp] theorem setIdleThr_rdata (t : Half) : (setIdleThr t s).rdata = s.rdata := rfl
@[simp] theorem setIdleThr_draws (t : Half) : (setIdleThr t s).draws = s.draws := rfl

/-! ### portTx -/
@[simp] theorem portTx_cfg (l : List Signal) (k : AfterWrite) : (portTx l k s).cfg = s.cfg := rfl
@[simp] theorem portTx_busy (l : List Signal) (k : AfterWrite) : (portTx l k s).busy = s.busy := rfl
@[simp] theorem portTx_err (l : List Signal) (k : AfterWrite) : (portTx l k s).err = s.err := rfl
@[simp] theorem portTx_ecode (l : List Signal) (k : AfterWrite) : (portTx l k s).ecode = s.ecode := rfl
@[simp] theorem portTx_res (l : List Signal) (k : AfterWrite) : (portTx l k s).res = s.res := rfl
@[simp] theorem portTx_idrdy (l : List Signal) (k : AfterWrite) : (portTx l k s).idrdy = s.idrdy := rfl
@[simp] theorem portTx_sact (l : List Signal) (k : AfterWrite) : (portTx l k s).sact = s.sact := rfl
@[simp] theorem portTx_closed (l : List Signal) (k : AfterWrite) : (portTx l k s).closed = s.closed := rfl
@[simp] theorem portTx_openDrain (l : List Signal) (k : AfterWrite) : (portTx l k s).openDrain = s.openDrain := rfl
@[simp] theorem portTx_data (l : List Signal) (k : AfterWrite) : (portTx l k s).data = s.data := rfl
@[simp] theorem portTx_arg (l : List Signal) (k : AfterWrite) : (portTx l k s).arg = s.arg := rfl
@[simp] theorem portTx_sigLen (l : List Signal) (k : AfterWrite) : (portTx l k s).sigLen = s.sigLen := rfl
@[simp] theorem portTx_crc (l : List Signal) (k : AfterWrite) : (portTx l k s).crc = s.crc := rfl
@[simp] theorem portTx_idleThr (l : List Signal) (k : AfterWrite) : (portTx l k s).idleThr = s.idleThr := rfl
@[simp] theorem portTx_savedThr (l : List Signal) (k : AfterWrite) : (portTx l k s).savedThr = s.savedThr := rfl
@[simp] theorem portTx_sid (l : List Signal) (k : AfterWrite) : (portTx l k s).sid = s.sid := rfl
@[simp] theorem portTx_lub (l : List Signal) (k : AfterWrite) : (portTx l k s).lub = s.lub := rfl
@[simp] theorem portTx_lufb (l : List Signal) (k : AfterWrite) : (portTx l k s).lufb = s.lufb := rfl
@[simp] theorem portTx_plub (l : List Signal) (k : AfterWrite) : (portTx l k s).plub = s.plub := rfl
@[simp] theorem portTx_smode (l : List Signal) (k : AfterWrite) : (portTx l k s).smode = s.smode := rfl
@[simp] theorem portTx_salm (l : List Signal) (k : AfterWrite) : (portTx l k s).salm = s.salm := rfl
@[simp] theorem portTx_sfam (l : List Signal) (k : AfterWrite) : (portTx l k s).sfam = s.sfam := rfl
@[simp] theorem portTx_starget (l : List Signal) (k : AfterWrite) : (portTx l k s).starget = s.starget := rfl
@[simp] theorem portTx_sigbuf (l : List Signal) (k : AfterWrite) : (portTx l k s).sigbuf = s.sigbuf := rfl
@[simp] theorem portTx_databuf (l : List Signal) (k : AfterWrite) : (portTx l k s).databuf = s.databuf := rfl
@[simp] theorem portTx_phase (l : List Signal) (k : AfterWrite) : (portTx l k s).phase = .waitPort := rfl
@[simp] theorem portTx_wait (l : List Signal) (k : AfterWrite) : (portTx l k s).wait = some (.tx l s.openDrain k) := rfl
@[simp] theorem portTx_history (l : List Signal) (k : AfterWrite) : (portTx l k s).history = s.history := rfl
@[simp] theorem portTx_portSetup (l : List Signal) (k : AfterWrite) : (portTx l k s).portSetup = s.portSetup := rfl
@[simp] theorem portTx_inputs (l : List Signal) (k : AfterWrite) : (portTx l k s).inputs = s.inputs := rfl
@[simp] theorem portTx_rdata (l : List Signal) (k : AfterWrite) : (portTx l k s).rdata = s.rdata := rfl
@[simp] theorem portTx_draws (l : List Signal) (k : AfterWrite) : (portTx l k s).draws = s.draws := rfl

/-! ### portTxRx -/
@[simp] theorem portTxRx_cfg (l : List Signal) (thr : Half) (tmo : Option Nat) (k : AfterTxRx) : (portTxRx l thr tmo k s).cfg = s.cfg := rfl
@[simp] theorem portTxRx_busy (l : List Signal) (thr : Half) (tmo : Option Nat) (k : AfterTxRx) : (portTxRx l thr tmo k s).busy = s.busy := rfl
@[simp] theorem portTxRx_err (l : List Signal) (thr : Half) (tmo : Option Nat) (k : AfterTxRx) : (portTxRx l thr tmo k s).err = s.err := rfl
@[simp] theorem portTxRx_ecode (l : List Signal) (thr : Half) (tmo : Option Nat) (k : AfterTxRx) : (portTxRx l thr tmo k s).ecode = s.ecode := rfl
@[simp] theorem portTxRx_res (l : List Signal) (thr : Half) (tmo : Option Nat) (k : AfterTxRx) : (portTxRx l thr tmo k s).res = s.res := rfl
@[simp] theorem portTxRx_idrdy (l : List Signal) (thr : Half) (tmo : Option Nat) (k : AfterTxRx) : (portTxRx l thr tmo k s).idrdy = s.idrdy := rfl
@[simp] theorem portTxRx_sact (l : List Signal) (thr : Half) (tmo : Option Nat) (k : AfterTxRx) : (portTxRx l thr tmo k s).sact = s.sact := rfl
@[simp] theorem portTxRx_closed (l : List Signal) (thr : Half) (tmo : Option Nat) (k : AfterTxRx) : (portTxRx l thr tmo k s).closed = s.closed := rfl
@[simp] theorem portTxRx_openDrain (l : List Signal) (thr : Half) (tmo : Option Nat) (k : AfterTxRx) : (portTxRx l thr tmo k s).openDrain = s.openDrain := rfl
@[simp] theorem portTxRx_data (l : List Signal) (thr : Half) (tmo : Option Nat) (k : AfterTxRx) : (portTxRx l thr tmo k s).data = s.data := rfl
@[simp] theorem portTxRx_arg (l : List Signal) (thr : Half) (tmo : Option Nat) (k : AfterTxRx) : (portTxRx l thr tmo k s).arg = s.arg := rfl
@[simp] theorem portTxRx_sigLen (l : List Signal) (thr : Half) (tmo : Option Nat) (k : AfterTxRx) : (portTxRx l thr tmo k s).sigLen = s.sigLen := rfl
@[simp] theorem portTxRx_crc (l : List Signal) (thr : Half) (tmo : Option Nat) (k : AfterTxRx) : (portTxRx l thr tmo k s).crc = s.crc := rfl
@[simp] theorem portTxRx_idleThr (l : List Signal) (thr : Half) (tmo : Option Nat) (k : AfterTxRx) : (portTxRx l thr tmo k s).idleThr = s.idleThr := rfl
@[simp] theorem portTxRx_savedThr (l : List Signal) (thr : Half) (tmo : Option Nat) (k : AfterTxRx) : (portTxRx l thr tmo k s).savedThr = s.savedThr := rfl
@[simp] theorem portTxRx_sid (l : List Signal) (thr : Half) (tmo : Option Nat) (k : AfterTxRx) : (portTxRx l thr tmo k s).sid = s.sid := rfl
@[simp] theorem portTxRx_lub (l : List Signal) (thr : Half) (tmo : Option Nat) (k : AfterTxRx) : (portTxRx l thr tmo k s).lub = s.lub := rfl
@[simp] theorem portTxRx_lufb (l : List Signal) (thr : Half) (tmo : Option Nat) (k : AfterTxRx) : (portTxRx l thr tmo k s).lufb = s.lufb := rfl
@[simp] theorem portTxRx_plub (l : List Signal) (thr : Half) (tmo : Option Nat) (k : AfterTxRx) : (portTxRx l thr tmo k s).plub = s.plub := rfl
@[simp] theorem portTxRx_smode (l : List Signal) (thr : Half) (tmo : Option Nat) (k : AfterTxRx) : (portTxRx l thr tmo k s).smode = s.smode := rfl
@[simp] theorem portTxRx_salm (l : List Signal) (thr : Half) (tmo : Option Nat) (k : AfterTxRx) : (portTxRx l thr tmo k s).salm = s.salm := rfl
@[simp] theorem portTxRx_sfam (l : List Signal) (thr : Half) (tmo : Option Nat) (k : AfterTxRx) : (portTxRx l thr tmo k s).sfam = s.sfam := rfl
@[simp] theorem portTxRx_starget (l : List Signal) (thr : Half) (tmo : Option Nat) (k : AfterTxRx) : (portTxRx l thr tmo k s).starget = s.starget := rfl
@[simp] theorem portTxRx_sigbuf (l : List Signal) (thr : Half) (tmo : Option Nat) (k : AfterTxRx) : (portTxRx l thr tmo k s).sigbuf = s.sigbuf := rfl
@[simp] theorem portTxRx_databuf (l : List Signal) (thr : Half) (tmo : Option Nat) (k : AfterTxRx) : (portTxRx l thr tmo k s).databuf = s.databuf := rfl
@[simp] theorem portTxRx_phase (l : List Signal) (thr : Half) (tmo : Option Nat) (k : AfterTxRx) : (portTxRx l thr tmo k s).phase = .waitPort := rfl
@[simp] theorem portTxRx_wait (l : List Signal) (thr : Half) (tmo : Option Nat) (k : AfterTxRx) : (portTxRx l thr tmo k s).wait = some (.txRx l thr tmo s.openDrain k) := rfl
@[simp] theorem portTxRx_history (l : List Signal) (thr : Half) (tmo : Option Nat) (k : AfterTxRx) : (portTxRx l thr tmo k s).history = s.history := rfl
@[simp] theorem portTxRx_portSetup (l : List Signal) (thr : Half) (tmo : Option Nat) (k : AfterTxRx) : (portTxRx l thr tmo k s).portSetup = s.portSetup := rfl
@[simp] theorem portTxRx_inputs (l : List Signal) (thr : Half) (tmo : Option Nat) (k : AfterTxRx) : (portTxRx l thr tmo k s).inputs = s.inputs := rfl
@[simp] theorem portTxRx_rdata (l : List Signal) (thr : Half) (tmo : Option Nat) (k : AfterTxRx) : (portTxRx l thr tmo k s).rdata = s.rdata := rfl
@[simp] theorem portTxRx_draws (l : List Signal) (thr : Half) (tmo : Option Nat) (k : AfterTxRx) : (portTxRx l thr tmo k s).draws = s.draws := rfl

/-! ### logEvent -/
@[simp] theorem logEvent_cfg (e : PortEvent) : (logEvent e s).cfg = s.cfg := rfl
@[simp] theorem logEvent_busy (e : PortEvent) : (logEvent e s).busy = s.busy := rfl
@[simp] theorem logEvent_err (e : PortEvent) : (logEvent e s).err = s.err := rfl
@[simp] theorem logEvent_ecode (e : PortEvent) : (logEvent e s).ecode = s.ecode := rfl
@[simp] theorem logEvent_res (e : PortEvent) : (logEvent e s).res = s.res := rfl
@[simp] theorem logEvent_idrdy (e : PortEvent) : (logEvent e s).idrdy = s.idrdy := rfl
@[simp] theorem logEvent_sact (e : PortEvent) : (logEvent e s).sact = s.sact := rfl
@[simp] theorem logEvent_closed (e : PortEvent) : (logEvent e s).closed = s.closed := rfl
@[simp] theorem logEvent_openDrain (e : PortEvent) : (logEvent e s).openDrain = s.openDrain := rfl
@[simp] theorem logEvent_data (e : PortEvent) : (logEvent e s).data = s.data := rfl
@[simp] theorem logEvent_arg (e : PortEvent) : (logEvent e s).arg = s.arg := rfl
@[simp] theorem logEvent_sigLen (e : PortEvent) : (logEvent e s).sigLen = s.sigLen := rfl
@[simp] theorem logEvent_crc (e : PortEvent) : (logEvent e s).crc = s.crc := rfl
@[simp] theorem logEvent_idleThr (e : PortEvent) : (logEvent e s).idleThr = s.idleThr := rfl
@[simp] theorem logEvent_savedThr (e : PortEvent) : (logEvent e s).savedThr = s.savedThr := rfl
@[simp] theorem logEvent_sid (e : PortEvent) : (logEvent e s).sid = s.sid := rfl
@[simp] theorem logEvent_lub (e : PortEvent) : (logEvent e s).lub = s.lub := rfl
@[simp] theorem logEvent_lufb (e : PortEvent) : (logEvent e s).lufb = s.lufb := rfl
@[simp] theorem logEvent_plub (e : PortEvent) : (logEvent e s).plub = s.plub := rfl
@[simp] theorem logEvent_smode (e : PortEvent) : (logEvent e s).smode = s.smode := rfl
@[simp] theorem logEvent_salm (e : PortEvent) : (logEvent e s).salm = s.salm := rfl
@[simp] theorem logEvent_sfam (e : PortEvent) : (logEvent e s).sfam = s.sfam := rfl
@[simp] theorem logEvent_starget (e : PortEvent) : (logEvent e s).starget = s.starget := rfl
@[simp] theorem logEvent_sigbuf (e : PortEvent) : (logEvent e s).sigbuf = s.sigbuf := rfl
@[simp] theorem logEvent_databuf (e : PortEvent) : (logEvent e s).databuf = s.databuf := rfl
@[simp] theorem logEvent_phase (e : PortEvent) : (logEvent e s).phase = .exec := rfl
@[simp] theorem logEvent_wait (e : PortEvent) : (logEvent e s).wait = none := rfl
@[simp] theorem logEvent_history (e : PortEvent) : (logEvent e s).history = s.history ++ [e] := rfl
@[simp] theorem logEvent_portSetup (e : PortEvent) : (logEvent e s).portSetup = s.portSetup := rfl
@[simp] theorem logEvent_inputs (e : PortEvent) : (logEvent e s).inputs = s.inputs := rfl
@[simp] theorem logEvent_rdata (e : PortEvent) : (logEvent e s).rdata = s.rdata := rfl
@[simp] theorem logEvent_draws (e : PortEvent) : (logEvent e s).draws = s.draws := rfl

/-! ### portClose -/
@[simp] theorem portClose_cfg : (portClose s).cfg = s.cfg := rfl
@[simp] theorem portClose_busy : (portClose s).busy = s.busy := rfl
@[simp] theorem portClose_err : (portClose s).err = s.err := rfl
@[simp] theorem portClose_ecode : (portClose s).ecode = s.ecode := rfl
@[simp] theorem portClose_res : (portClose s).res = s.res := rfl
@[simp] theorem portClose_idrdy : (portClose s).idrdy = s.idrdy := rfl
@[simp] theorem portClose_sact : (portClose s).sact = s.sact := rfl
@[simp] theorem portClose_closed : (portClose s).closed = s.closed := rfl
@[simp] theorem portClose_openDrain : (portClose s).openDrain = s.openDrain := rfl
@[simp] theorem portClose_data : (portClose s).data = s.data := rfl
@[simp] theorem portClose_arg : (portClose s).arg = s.arg := rfl
@[simp] theorem portClose_sigLen : (portClose s).sigLen = s.sigLen := rfl
@[simp] theorem portClose_crc : (portClose s).crc = s.crc := rfl
@[simp] theorem portClose_idleThr : (portClose s).idleThr = s.idleThr := rfl
@[simp] theorem portClose_savedThr : (portClose s).savedThr = s.savedThr := rfl
@[simp] theorem portClose_sid : (portClose s).sid = s.sid := rfl
@[simp] theorem portClose_lub : (portClose s).lub = s.lub := rfl
@[simp] theorem portClose_lufb : (portClose s).lufb = s.lufb := rfl
@[simp] theorem portClose_plub : (portClose s).plub = s.plub := rfl
@[simp] theorem portClose_smode : (portClose s).smode = s.smode := rfl
@[simp] theorem portClose_salm : (portClose s).salm = s.salm := rfl
@[simp] theorem portClose_sfam : (portClose s).sfam = s.sfam := rfl
@[simp] theorem portClose_starget : (portClose s).starget = s.starget := rfl
@[simp] theorem portClose_sigbuf : (portClose s).sigbuf = s.sigbuf := rfl
@[simp] theorem portClose_databuf : (portClose s).databuf = s.databuf := rfl
@[simp] theorem portClose_phase : (portClose s).phase = s.phase := rfl
@[simp] theorem portClose_wait : (portClose s).wait = s.wait := rfl
@[simp] theorem portClose_history : (portClose s).history = s.history ++ [.close] := rfl
@[simp] theorem portClose_portSetup : (portClose s).portSetup = s.portSetup := rfl
@[simp] theorem portClose_inputs : (portClose s).inputs = s.inputs := rfl
@[simp] theorem portClose_rdata : (portClose s).rdata = s.rdata := rfl
@[simp] theorem portClose_draws : (portClose s).draws = s.draws := rfl

/-! ### storeSignals -/
@[simp] theorem storeSignals_cfg (l : List Signal) : (storeSignals l s).cfg = s.cfg := rfl
@[simp] theorem storeSignals_busy (l : List Signal) : (storeSignals l s).busy = s.busy := rfl
@[simp] theorem storeSignals_err (l : List Signal) : (storeSignals l s).err = s.err := rfl
@[simp] theorem storeSignals_ecode (l : List Signal) : (storeSignals l s).ecode = s.ecode := rfl
@[simp] theorem storeSignals_res (l : List Signal) : (storeSignals l s).res = s.res := rfl
@[simp] theorem storeSignals_idrdy (l : List Signal) : (storeSignals l s).idrdy = s.idrdy := rfl
@[simp] theorem storeSignals_sact (l : List Signal) : (storeSignals l s).sact = s.sact := rfl
@[simp] theorem storeSignals_closed (l : List Signal) : (storeSignals l s).closed = s.closed := rfl
@[simp] theorem storeSignals_openDrain (l : List Signal) : (storeSignals l s).openDrain = s.openDrain := rfl
@[simp] theorem storeSignals_data (l : List Signal) : (storeSignals l s).data = s.data := rfl
@[simp] theorem storeSignals_arg (l : List Signal) : (storeSignals l s).arg = s.arg := rfl
@[simp] theorem storeSignals_sigLen (l : List Signal) : (storeSignals l s).sigLen = BitVec.ofNat 16 l.length := rfl
@[simp] theorem storeSignals_crc (l : List Signal) : (storeSignals l s).crc = s.crc := rfl
@[simp] theorem storeSignals_idleThr (l : List Signal) : (storeSignals l s).idleThr = s.idleThr := rfl
@[simp] theorem storeSignals_savedThr (l : List Signal) : (storeSignals l s).savedThr = s.savedThr := rfl
@[simp] theorem storeSignals_sid (l : List Signal) : (storeSignals l s).sid = s.sid := rfl
@[simp] theorem storeSignals_lub (l : List Signal) : (storeSignals l s).lub = s.lub := rfl
@[simp] theorem storeSignals_lufb (l : List Signal) : (storeSignals l s).lufb = s.lufb := rfl
@[simp] theorem storeSignals_plub (l : List Signal) : (storeSignals l s).plub = s.plub := rfl
@[simp] theorem storeSignals_smode (l : List Signal) : (storeSignals l s).smode = s.smode := rfl
@[simp] theorem storeSignals_salm (l : List Signal) : (storeSignals l s).salm = s.salm := rfl
@[simp] theorem storeSignals_sfam (l : List Signal) : (storeSignals l s).sfam = s.sfam := rfl
@[simp] theorem storeSignals_starget (l : List Signal) : (storeSignals l s).starget = s.starget := rfl
@[simp] theorem storeSignals_sigbuf (l : List Signal) : (storeSignals l s).sigbuf = bufWriteList 0 l s.sigbuf := rfl
@[simp] theorem storeSignals_databuf (l : List Signal) : (storeSignals l s).databuf = s.databuf := rfl
@[simp] theorem storeSignals_phase (l : List Signal) : (storeSignals l s).phase = s.phase := rfl
@[simp] theorem storeSignals_wait (l : List Signal) : (storeSignals l s).wait = s.wait := rfl
@[simp] theorem storeSignals_history (l : List Signal) : (storeSignals l s).history = s.history := rfl
@[simp] theorem storeSignals_portSetup (l : List Signal) : (storeSignals l s).portSetup = s.portSetup := rfl
@[simp] theorem storeSignals_inputs (l : List Signal) : (storeSignals l s).inputs = s.inputs := rfl
@[simp] theorem storeSignals_rdata (l : List Signal) : (storeSignals l s).rdata = s.rdata := rfl
@[simp] theorem storeSignals_draws (l : List Signal) : (storeSignals l s).draws = s.draws := rfl

/-! ### storeBytes -/
@[simp] theorem storeBytes_cfg (bs : List Byte) : (storeBytes bs s).cfg = s.cfg := rfl
@[simp] theorem storeBytes_busy (bs : List Byte) : (storeBytes bs s).busy = s.busy := rfl
@[simp] theorem storeBytes_err (bs : List Byte) : (storeBytes bs s).err = s.err := rfl
@[simp] theorem storeBytes_ecode (bs : List Byte) : (storeBytes bs s).ecode = s.ecode := rfl
@[simp] theorem storeBytes_res (bs : List Byte) : (storeBytes bs s).res = s.res := rfl
@[simp] theorem storeBytes_idrdy (bs : List Byte) : (storeBytes bs s).idrdy = s.idrdy := rfl
@[simp] theorem storeBytes_sact (bs : List Byte) : (storeBytes bs s).sact = s.sact := rfl
@[simp] theorem storeBytes_closed (bs : List Byte) : (storeBytes bs s).closed = s.closed := rfl
@[simp] theorem storeBytes_openDrain (bs : List Byte) : (storeBytes bs s).openDrain = s.openDrain := rfl
@[simp] theorem storeBytes_data (bs : List Byte) : (storeBytes bs s).data = s.data := rfl
@[simp] theorem storeBytes_arg (bs : List Byte) : (storeBytes bs s).arg = s.arg := rfl
@[simp] theorem storeBytes_sigLen (bs : List Byte) : (storeBytes bs s).sigLen = s.sigLen := rfl
@[simp] theorem storeBytes_crc (bs : List Byte) : (storeBytes bs s).crc = s.crc := rfl
@[simp] theorem storeBytes_idleThr (bs : List Byte) : (storeBytes bs s).idleThr = s.idleThr := rfl
@[simp] theorem storeBytes_savedThr (bs : List Byte) : (storeBytes bs s).savedThr = s.savedThr := rfl
@[simp] theorem storeBytes_sid (bs : List Byte) : (storeBytes bs s).sid = s.sid := rfl
@[simp] theorem storeBytes_lub (bs : List Byte) : (storeBytes bs s).lub = s.lub := rfl
@[simp] theorem storeBytes_lufb (bs : List Byte) : (storeBytes bs s).lufb = s.lufb := rfl
@[simp] theorem storeBytes_plub (bs : List Byte) : (storeBytes bs s).plub = s.plub := rfl
@[simp] theorem storeBytes_smode (bs : List Byte) : (storeBytes bs s).smode = s.smode := rfl
@[simp] theorem storeBytes_salm (bs : List Byte) : (storeBytes bs s).salm = s.salm := rfl
@[simp] theorem storeBytes_sfam (bs : List Byte) : (storeBytes bs s).sfam = s.sfam := rfl
@[simp] theorem storeBytes_starget (bs : List Byte) : (storeBytes bs s).starget = s.starget := rfl
@[simp] theorem storeBytes_sigbuf (bs : List Byte) : (storeBytes bs s).sigbuf = s.sigbuf := rfl
@[simp] theorem storeBytes_databuf (bs : List Byte) : (storeBytes bs s).databuf = bufWriteList 0 bs s.databuf := rfl
@[simp] theorem storeBytes_phase (bs : List Byte) : (storeBytes bs s).phase = s.phase := rfl
@[simp] theorem storeBytes_wait (bs : List Byte) : (storeBytes bs s).wait = s.wait := rfl
@[simp] theorem storeBytes_history (bs : List Byte) : (storeBytes bs s).history = s.history := rfl
@[simp] theorem storeBytes_portSetup (bs : List Byte) : (storeBytes bs s).portSetup = s.portSetup := rfl
@[simp] theorem storeBytes_inputs (bs : List Byte) : (storeBytes bs s).inputs = s.inputs := rfl
@[simp] theorem storeBytes_rdata (bs : List Byte) : (storeBytes bs s).rdata = s.rdata := rfl
@[simp] theorem storeBytes_draws (bs : List Byte) : (storeBytes bs s).draws = s.draws := rfl

/-! ### passCommit -/
@[simp] theorem passCommit_cfg (ps : Pass) : (passCommit ps s).cfg = s.cfg := rfl
@[simp] theorem passCommit_busy (ps : Pass) : (passCommit ps s).busy = s.busy := rfl
@[simp] theorem passCommit_err (ps : Pass) : (passCommit ps s).err = s.err := rfl
@[simp] theorem passCommit_ecode (ps : Pass) : (passCommit ps s).ecode = s.ecode := rfl
@[simp] theorem passCommit_res (ps : Pass) : (passCommit ps s).res = s.res := rfl
@[simp] theorem passCommit_idrdy (ps : Pass) : (passCommit ps s).idrdy = s.idrdy := rfl
@[simp] theorem passCommit_sact (ps : Pass) : (passCommit ps s).sact = s.sact := rfl
@[simp] theorem passCommit_closed (ps : Pass) : (passCommit ps s).closed = s.closed := rfl
@[simp] theorem passCommit_openDrain (ps : Pass) : (passCommit ps s).openDrain = s.openDrain := rfl
@[simp] theorem passCommit_data (ps : Pass) : (passCommit ps s).data = s.data := rfl
@[simp] theorem passCommit_arg (ps : Pass) : (passCommit ps s).arg = s.arg := rfl
@[simp] theorem passCommit_sigLen (ps : Pass) : (passCommit ps s).sigLen = s.sigLen := rfl
@[simp] theorem passCommit_crc (ps : Pass) : (passCommit ps s).crc = s.crc := rfl
@[simp] theorem passCommit_idleThr (ps : Pass) : (passCommit ps s).idleThr = s.idleThr := rfl
@[simp] theorem passCommit_savedThr (ps : Pass) : (passCommit ps s).savedThr = s.savedThr := rfl
@[simp] theorem passCommit_sid (ps : Pass) : (passCommit ps s).sid = ps.id := rfl
@[simp] theorem passCommit_lub (ps : Pass) : (passCommit ps s).lub = ps.l := rfl
@[simp] theorem passCommit_lufb (ps : Pass) : (passCommit ps s).lufb = ps.lf := rfl
@[simp] theorem passCommit_plub (ps : Pass) : (passCommit ps s).plub = s.plub := rfl
@[simp] theorem passCommit_smode (ps : Pass) : (passCommit ps s).smode = s.smode := rfl
@[simp] theorem passCommit_salm (ps : Pass) : (passCommit ps s).salm = s.salm := rfl
@[simp] theorem passCommit_sfam (ps : Pass) : (passCommit ps s).sfam = s.sfam := rfl
@[simp] theorem passCommit_starget (ps : Pass) : (passCommit ps s).starget = s.starget := rfl
@[simp] theorem passCommit_sigbuf (ps : Pass) : (passCommit ps s).sigbuf = s.sigbuf := rfl
@[simp] theorem passCommit_databuf (ps : Pass) : (passCommit ps s).databuf = s.databuf := rfl
@[simp] theorem passCommit_phase (ps : Pass) : (passCommit ps s).phase = s.phase := rfl
@[simp] theorem passCommit_wait (ps : Pass) : (passCommit ps s).wait = s.wait := rfl
@[simp] theorem passCommit_history (ps : Pass) : (passCommit ps s).history = s.history := rfl
@[simp] theorem passCommit_portSetup (ps : Pass) : (passCommit ps s).portSetup = s.portSetup := rfl
@[simp] theorem passCommit_inputs (ps : Pass) : (passCommit ps s).inputs = s.inputs := rfl
@[simp] theorem passCommit_rdata (ps : Pass) : (passCommit ps s).rdata = s.rdata := rfl
@[simp] theorem passCommit_draws (ps : Pass) : (passCommit ps s).draws = s.draws := rfl

@[simp] theorem raiseIn_false (e : ErrKind) : raiseIn false e s = raise e s := rfl
@[simp] theorem raiseIn_true (e : ErrKind) : raiseIn true e s = raise e (clearSearch s) := rfl
@[simp] theorem restPhase_true : restPhase true = .yield := rfl
@[simp] theorem restPhase_false : restPhase false = .idle := rfl

end Sys2Proof.Machine
end

