-- ==== Sys2Proof/Laws/Sequencer.lean ====
section
/-! SUPPORT. The sequencer: an outcome does not depend on the inputs still to come and leaves what no command's
transactions write; how `settle` takes answers; and what a command that answers a next state has done. -/

namespace Sys2Proof.Machine

/-- `s` with other inputs still to come. -/
def withInputs (l : List Input) (s : State) : State := { s with inputs := l }

@[simp] theorem withInputs_inputs (l : List Input) (s : State) : (withInputs l s).inputs = l := rfl
@[simp] theorem withInputs_cfg (l : List Input) (s : State) : (withInputs l s).cfg = s.cfg := rfl
@[simp] theorem withInputs_busy (l : List Input) (s : State) : (withInputs l s).busy = s.busy := rfl
@[simp] theorem withInputs_err (l : List Input) (s : State) : (withInputs l s).err = s.err := rfl
@[simp] theorem withInputs_ecode (l : List Input) (s : State) : (withInputs l s).ecode = s.ecode := rfl
@[simp] theorem withInputs_res (l : List Input) (s : State) : (withInputs l s).res = s.res := rfl
@[simp] theorem withInputs_idrdy (l : List Input) (s : State) : (withInputs l s).idrdy = s.idrdy := rfl
@[simp] theorem withInputs_sact (l : List Input) (s : State) : (withInputs l s).sact = s.sact := rfl
@[simp] theorem withInputs_closed (l : List Input) (s : State) : (withInputs l s).closed = s.closed := rfl
@[simp] theorem withInputs_openDrain (l : List Input) (s : State) : (withInputs l s).openDrain = s.openDrain := rfl
@[simp] theorem withInputs_data (l : List Input) (s : State) : (withInputs l s).data = s.data := rfl
@[simp] theorem withInputs_arg (l : List Input) (s : State) : (withInputs l s).arg = s.arg := rfl
@[simp] theorem withInputs_sigLen (l : List Input) (s : State) : (withInputs l s).sigLen = s.sigLen := rfl
@[simp] theorem withInputs_crc (l : List Input) (s : State) : (withInputs l s).crc = s.crc := rfl
@[simp] theorem withInputs_idleThr (l : List Input) (s : State) : (withInputs l s).idleThr = s.idleThr := rfl
@[simp] theorem withInputs_savedThr (l : List Input) (s : State) : (withInputs l s).savedThr = s.savedThr := rfl
@[simp] theorem withInputs_sid (l : List Input) (s : State) : (withInputs l s).sid = s.sid := rfl
@[simp] theorem withInputs_lub (l : List Input) (s : State) : (withInputs l s).lub = s.lub := rfl
@[simp] theorem withInputs_lufb (l : List Input) (s : State) : (withInputs l s).lufb = s.lufb := rfl
@[simp] theorem withInputs_plub (l : List Input) (s : State) : (withInputs l s).plub = s.plub := rfl
@[simp] theorem withInputs_smode (l : List Input) (s : State) : (withInputs l s).smode = s.smode := rfl
@[simp] theorem withInputs_salm (l : List Input) (s : State) : (withInputs l s).salm = s.salm := rfl
@[simp] theorem withInputs_sfam (l : List Input) (s : State) : (withInputs l s).sfam = s.sfam := rfl
@[simp] theorem withInputs_starget (l : List Input) (s : State) : (withInputs l s).starget = s.starget := rfl
@[simp] theorem withInputs_sigbuf (l : List Input) (s : State) : (withInputs l s).sigbuf = s.sigbuf := rfl
@[simp] theorem withInputs_databuf (l : List Input) (s : State) : (withInputs l s).databuf = s.databuf := rfl
@[simp] theorem withInputs_phase (l : List Input) (s : State) : (withInputs l s).phase = s.phase := rfl
@[simp] theorem withInputs_wait (l : List Input) (s : State) : (withInputs l s).wait = s.wait := rfl
@[simp] theorem withInputs_history (l : List Input) (s : State) : (withInputs l s).history = s.history := rfl
@[simp] theorem withInputs_portSetup (l : List Input) (s : State) : (withInputs l s).portSetup = s.portSetup := rfl
@[simp] theorem withInputs_rdata (l : List Input) (s : State) : (withInputs l s).rdata = s.rdata := rfl
@[simp] theorem withInputs_draws (l : List Input) (s : State) : (withInputs l s).draws = s.draws := rfl
@[simp] theorem withInputs_withInputs (l l' : List Input) (s : State) :
    withInputs l (withInputs l' s) = withInputs l s := rfl
@[simp] theorem withInputs_self (s : State) : withInputs s.inputs s = s := rfl

/-! ### The inputs still to come play no part in what follows an outcome -/

theorem searchCandidate_withInputs (id : Long) (l : List Input) (s : State) :
    searchCandidate id (withInputs l s) = withInputs l (searchCandidate id s) := by
  have h1 : (withInputs l s).smode = s.smode := rfl
  have h2 : (withInputs l s).sfam = s.sfam := rfl
  unfold searchCandidate
  rw [h1, h2]
  split
  · rfl
  · split <;> rfl
  · rfl

theorem passEnd_withInputs (ps : Pass) (l : List Input) (s : State) :
    passEnd ps (withInputs l s) = withInputs l (passEnd ps s) := by
  unfold passEnd
  split
  · exact searchCandidate_withInputs ps.id l (passCommit ps s)
  · rfl

theorem passDecide_withInputs (ps : Pass) (b c : Bool) (l : List Input) (s : State) :
    passDecide ps b c (withInputs l s) = withInputs l (passDecide ps b c s) := by
  have h1 : (withInputs l s).salm = s.salm := rfl
  unfold passDecide
  rw [h1]
  split
  · split <;> rfl
  · rfl

theorem afterReset_withInputs (k : AfterReset) (p : Bool) (l : List Input) (s : State) :
    afterReset k p (withInputs l s) = withInputs l (afterReset k p s) := by
  cases k <;> cases p <;> rfl

theorem afterWrite_withInputs (k : AfterWrite) (l : List Input) (s : State) :
    afterWrite k (withInputs l s) = withInputs l (afterWrite k s) := by
  cases k with
  | done | selectId | readRomId | passRom => rfl
  | writeBytes rest => cases rest <;> rfl
  | passBit ps =>
    simp only [afterWrite]
    split
    · rfl
    · exact passEnd_withInputs ps l s

theorem afterRead_withInputs (k : AfterRead) (v : Long) (l : List Input) (s : State) :
    afterRead k v (withInputs l s) = withInputs l (afterRead k v s) := by
  cases k with
  | toData | passBit _ => rfl
  | passCmp ps b => exact passDecide_withInputs ps b _ l s

theorem raiseIn_withInputs (b : Bool) (e : ErrKind) (l : List Input) (s : State) :
    raiseIn b e (withInputs l s) = withInputs l (raiseIn b e s) := by cases b <;> rfl

theorem onTx_withInputs (k : AfterWrite) (o : TxOutcome) (l : List Input) (s : State) :
    onTx k o (withInputs l s) = withInputs l (onTx k o s) := by
  cases o with
  | ok => exact afterWrite_withInputs k l s
  | error => exact raiseIn_withInputs _ _ l s

theorem onTxRx_withInputs (k : AfterTxRx) (o : RxOutcome) (l : List Input) (s : State) :
    onTxRx k o (withInputs l s) = withInputs l (onTxRx k o s) := by
  cases k with
  | linkReset k =>
    cases o with
    | captured cl => exact afterReset_withInputs k _ l (setIdleThr s.savedThr s)
    | timeout => exact afterReset_withInputs k _ l (setIdleThr s.savedThr s)
    | error => exact raiseIn_withInputs _ _ l (setIdleThr s.savedThr s)
  | linkRead n k =>
    simp only [onTxRx, onLinkRead]
    split
    · exact raiseIn_withInputs _ _ l s
    · split
      · exact raiseIn_withInputs _ _ l s
      · exact afterRead_withInputs k _ l s
  | readBytes n =>
    simp only [onTxRx, onReadBytes]
    split
    · rfl
    · split <;> rfl

/-- What an answer does is the same whatever inputs are still to come, and it leaves them. -/
theorem deliver_withInputs (a : PortAnswer) (l : List Input) (s : State) :
    deliver a (withInputs l s) = (deliver a s).map (withInputs l) := by
  unfold deliver
  rw [withInputs_wait]
  split
  · exact congrArg some (onTx_withInputs _ _ l (logEvent _ s))
  · split
    · rfl
    · exact congrArg some (onTxRx_withInputs _ _ l (logEvent _ s))
  · simp

theorem deliver_inputs {a : PortAnswer} {s t : State} (h : deliver a s = some t) : t.inputs = s.inputs := by
  have h1 := deliver_withInputs a s.inputs s
  rw [withInputs_self, h] at h1
  have h2 : t = withInputs s.inputs t := Option.some.inj h1
  rw [h2]
  rfl

/-- An answer that is an outcome of the outstanding PortTx (20_memory R71, R77). -/
theorem deliver_tx {s : State} {l : List Signal} {od : Bool} {k : AfterWrite} (h : s.wait = some (.tx l od k))
    (o : TxOutcome) : deliver (.tx o) s = some (onTx k o (logEvent (.tx l od o) s)) := by
  simp [deliver, h]

/-- An answer that is an outcome of the outstanding PortTxRx (20_memory R72, R77). -/
theorem deliver_txRx {s : State} {l : List Signal} {thr : Half} {tmo : Option Nat} {od : Bool} {k : AfterTxRx}
    (h : s.wait = some (.txRx l thr tmo od k)) {o : RxOutcome} (ho : ¬ (o = .timeout ∧ tmo = none)) :
    deliver (.txRx o) s = some (onTxRx k o (logEvent (.txRx l thr tmo od o) s)) := by
  simp only [deliver, h]
  rw [if_neg ho]

/-- What an answer that has an effect is, and what it does. -/
theorem deliver_cases {a : PortAnswer} {s t : State} (h : deliver a s = some t) :
    (∃ l od k o, s.wait = some (.tx l od k) ∧ a = .tx o ∧ t = onTx k o (logEvent (.tx l od o) s)) ∨
    (∃ l thr tmo od k o, s.wait = some (.txRx l thr tmo od k) ∧ a = .txRx o ∧ ¬ (o = .timeout ∧ tmo = none) ∧
      t = onTxRx k o (logEvent (.txRx l thr tmo od o) s)) := by
  unfold deliver at h
  split at h
  · rename_i l od k o hw
    exact .inl ⟨l, od, k, o, hw, rfl, (Option.some.inj h).symm⟩
  · rename_i l thr tmo od k o hw
    split at h
    · cases h
    · rename_i ho
      exact .inr ⟨l, thr, tmo, od, k, o, hw, rfl, ho, (Option.some.inj h).symm⟩
  · cases h

theorem deliver_none_of_wait {s : State} (h : s.wait = none) (a : PortAnswer) : deliver a s = none := by
  simp [deliver, h]

/-! ### settle -/

/-- `settleWith` where a port answer stands next. -/
theorem settleWith_port (a : PortAnswer) (rest : List Input) (s : State) :
    settleWith (.port a :: rest) s =
      match deliver a (withInputs rest s) with
      | some s' => settleWith rest s'
      | none => s := rfl

/-- `settleWith` where none stands next. -/
theorem settleWith_other {l : List Input} (h : ∀ a rest, l ≠ .port a :: rest) (s : State) : settleWith l s = s := by
  match l with
  | [] => rfl
  | .port a :: rest => exact absurd rfl (h a rest)
  | .read _ _ :: _ | .write _ _ _ :: _ | .hardReset :: _ | .rom _ :: _ => rfl

theorem settleWith_of_wait {s : State} (h : s.wait = none) (l : List Input) : settleWith l s = s := by
  match l with
  | [] => rfl
  | .port a :: rest => rw [settleWith_port, deliver_none_of_wait (by exact h)]
  | .read _ _ :: _ | .write _ _ _ :: _ | .hardReset :: _ | .rom _ :: _ => rfl

/-- With nothing outstanding there is nothing to take. -/
@[simp] theorem settle_of_wait {s : State} (h : s.wait = none) : settle s = s := settleWith_of_wait h _

/-- An answer that stands next and has an effect is taken. -/
theorem settle_cons {s s' : State} {a : PortAnswer} {rest : List Input} (hin : s.inputs = .port a :: rest)
    (h : deliver a (withInputs rest s) = some s') : settle s = settle s' := by
  have hi : s'.inputs = rest := by rw [deliver_inputs h]; rfl
  unfold settle
  rw [hin, hi, settleWith_port, h]

/-- Where no answer stands next, the command waits. -/
theorem settle_of_inputs {s : State} (h : ∀ a rest, s.inputs ≠ .port a :: rest) : settle s = s :=
  settleWith_other h s

/-- An answer that stands next and is no outcome of what is outstanding is not taken. -/
theorem settle_of_deliver {s : State} {a : PortAnswer} {rest : List Input} (hin : s.inputs = .port a :: rest)
    (h : deliver a s = none) : settle s = s := by
  unfold settle
  rw [hin, settleWith_port, deliver_withInputs, h]
  rfl

/-- The packaged induction over the answers that `settle` takes: what holds before, whatever inputs are still to come,
and what each answer keeps, holds after. -/
theorem settle_induction {P : State → Prop} (hin : ∀ l s, P s → P (withInputs l s))
    (hdel : ∀ a s t, P s → deliver a s = some t → P t) {s : State} (h : P s) : P (settle s) := by
  have key : ∀ (l : List Input) (s : State), P s → P (settleWith l s) := by
    intro l
    induction l with
    | nil => exact fun s h => h
    | cons i rest ih =>
      intro s h
      cases i with
      | port a =>
        rw [settleWith_port]
        cases hd : deliver a (withInputs rest s) with
        | none => exact h
        | some t => exact ih t (hdel a _ t (hin _ _ h) hd)
      | read _ _ | write _ _ _ | hardReset | rom _ => exact h
  exact key _ s h

/-! ### command -/

/-- While BUSY = 1 a command does not start (70 R350). -/
theorem command_busy {s : State} (h : s.busy = true) (body : State → Result) :
    command s body = .fault .writeWhileBusy := by simp [command, h]

/-- A command whose body answers `t` settles from `t`. -/
theorem command_next {s : State} (h : s.busy = false) {body : State → Result} {t : State}
    (hb : body (beginCommand s) = .next t) : command s body = .next (settle t) := by
  simp [command, h, hb]

/-- What a command that answers a next state has done. -/
theorem command_next_inv {s t : State} {body : State → Result} (h : command s body = .next t) :
    s.busy = false ∧ ∃ u, body (beginCommand s) = .next u ∧ t = settle u := by
  unfold command at h
  split at h
  · cases h
  · rename_i hb
    refine ⟨by simpa using hb, ?_⟩
    split at h
    · rename_i u hu
      cases h
      exact ⟨u, hu, rfl⟩
    · cases h
    · cases h

/-- A command whose body stops stops the same way. -/
theorem command_fault {s : State} (h : s.busy = false) {body : State → Result} {f : Fault}
    (hb : body (beginCommand s) = .fault f) : command s body = .fault f := by
  simp [command, h, hb]

theorem requireOpen_open {s : State} (h : s.closed = false) (body : State → State) :
    requireOpen s body = body s := by simp [requireOpen, h]

theorem requireOpen_closed {s : State} (h : s.closed = true) (body : State → State) :
    requireOpen s body = raise .busClosed s := by simp [requireOpen, h]

/-! ### What no port outcome changes -/

/-- The fields that no command writes once it has begun to wait: the parameters, the operand registers the host
writes, SIGBUF, the CRC register, the link's `closed`, the search's mode registers and `plub`, and the model's own. -/
structure SameOutside (s t : State) : Prop where
  cfg       : t.cfg = s.cfg
  closed    : t.closed = s.closed
  arg       : t.arg = s.arg
  sigLen    : t.sigLen = s.sigLen
  crc       : t.crc = s.crc
  plub      : t.plub = s.plub
  smode     : t.smode = s.smode
  salm      : t.salm = s.salm
  sfam      : t.sfam = s.sfam
  starget   : t.starget = s.starget
  sigbuf    : t.sigbuf = s.sigbuf
  portSetup : t.portSetup = s.portSetup
  rdata     : t.rdata = s.rdata
  draws     : t.draws = s.draws

theorem SameOutside.refl (s : State) : SameOutside s s :=
  ⟨rfl, rfl, rfl, rfl, rfl, rfl, rfl, rfl, rfl, rfl, rfl, rfl, rfl, rfl⟩

theorem SameOutside.trans {s t u : State} (h : SameOutside s t) (k : SameOutside t u) : SameOutside s u where
  cfg := k.cfg.trans h.cfg
  closed := k.closed.trans h.closed
  arg := k.arg.trans h.arg
  sigLen := k.sigLen.trans h.sigLen
  crc := k.crc.trans h.crc
  plub := k.plub.trans h.plub
  smode := k.smode.trans h.smode
  salm := k.salm.trans h.salm
  sfam := k.sfam.trans h.sfam
  starget := k.starget.trans h.starget
  sigbuf := k.sigbuf.trans h.sigbuf
  portSetup := k.portSetup.trans h.portSetup
  rdata := k.rdata.trans h.rdata
  draws := k.draws.trans h.draws

theorem raiseIn_sameOutside (b : Bool) (e : ErrKind) (s : State) : SameOutside s (raiseIn b e s) := by
  cases b <;> constructor <;> rfl

theorem searchCandidate_sameOutside (id : Long) (s : State) : SameOutside s (searchCandidate id s) := by
  unfold searchCandidate
  split
  · constructor <;> rfl
  · split <;> constructor <;> rfl
  · constructor <;> rfl

theorem passEnd_sameOutside (ps : Pass) (s : State) : SameOutside s (passEnd ps s) := by
  unfold passEnd
  split
  · exact SameOutside.trans (t := passCommit ps s) (by constructor <;> rfl) (searchCandidate_sameOutside _ _)
  · exact raiseIn_sameOutside _ _ s

theorem passDecide_sameOutside (ps : Pass) (b c : Bool) (s : State) : SameOutside s (passDecide ps b c s) := by
  unfold passDecide
  split
  · split
    · constructor <;> rfl
    · exact raiseIn_sameOutside _ _ s
  · constructor <;> rfl

theorem afterReset_sameOutside (k : AfterReset) (p : Bool) (s : State) : SameOutside s (afterReset k p s) := by
  cases k <;> cases p <;> constructor <;> rfl

theorem afterWrite_sameOutside (k : AfterWrite) (s : State) : SameOutside s (afterWrite k s) := by
  cases k with
  | done | selectId | readRomId | passRom => constructor <;> rfl
  | writeBytes rest => cases rest <;> constructor <;> rfl
  | passBit ps =>
    simp only [afterWrite]
    split
    · constructor <;> rfl
    · exact passEnd_sameOutside ps s

theorem afterRead_sameOutside (k : AfterRead) (v : Long) (s : State) : SameOutside s (afterRead k v s) := by
  cases k with
  | toData | passBit _ => constructor <;> rfl
  | passCmp ps b => exact passDecide_sameOutside ps b _ s

theorem onTx_sameOutside (k : AfterWrite) (o : TxOutcome) (s : State) : SameOutside s (onTx k o s) := by
  cases o with
  | ok => exact afterWrite_sameOutside k s
  | error => exact raiseIn_sameOutside _ _ s

theorem onTxRx_sameOutside (k : AfterTxRx) (o : RxOutcome) (s : State) : SameOutside s (onTxRx k o s) := by
  cases k with
  | linkReset k =>
    have h : SameOutside s (setIdleThr s.savedThr s) := by constructor <;> rfl
    cases o with
    | captured cl => exact h.trans (afterReset_sameOutside k _ _)
    | timeout => exact h.trans (afterReset_sameOutside k _ _)
    | error => exact h.trans (raiseIn_sameOutside _ _ _)
  | linkRead n k =>
    simp only [onTxRx, onLinkRead]
    split
    · exact raiseIn_sameOutside _ _ s
    · split
      · exact raiseIn_sameOutside _ _ s
      · exact afterRead_sameOutside k _ s
  | readBytes n =>
    simp only [onTxRx, onReadBytes]
    split
    · constructor <;> rfl
    · split <;> constructor <;> rfl

/-- An answer leaves these fields. -/
theorem deliver_sameOutside {a : PortAnswer} {s t : State} (h : deliver a s = some t) : SameOutside s t := by
  rcases deliver_cases h with ⟨l, od, k, o, -, -, rfl⟩ | ⟨l, thr, tmo, od, k, o, -, -, -, rfl⟩
  · exact SameOutside.trans (t := logEvent _ s) (by constructor <;> rfl) (onTx_sameOutside _ _ _)
  · exact SameOutside.trans (t := logEvent _ s) (by constructor <;> rfl) (onTxRx_sameOutside _ _ _)

/-- All answers that `settle` takes leave these fields. -/
theorem settle_sameOutside (s : State) : SameOutside s (settle s) := by
  refine settle_induction (P := fun t => SameOutside s t) ?_ ?_ (SameOutside.refl s)
  · intro l t h
    exact h.trans (by constructor <;> rfl)
  · intro a t u h hd
    exact h.trans (deliver_sameOutside hd)

end Sys2Proof.Machine
end

