-- ==== Sys2Proof/Laws/Step.lean ====
section
/-! SUPPORT. What a step takes, what an access names, and how a code is started. -/

namespace Sys2Proof.Machine

/-- With nothing to come the block stays as it is. -/
theorem step_nil {s : State} (h : s.inputs = []) : step s = .next s := by
  unfold step; rw [h]

/-- A step takes the next input. -/
theorem step_cons {s : State} {i : Input} {rest : List Input} (h : s.inputs = i :: rest) :
    step s = stepInput i (withInputs rest s) := by
  unfold step; rw [h]; rfl

/-- The access to CMD. -/
theorem accessReg_cmd (c : Config) : accessReg c c.owcBase 4 = .ok .cmd := by
  simp [accessReg, regAt]

/-- An access that names a register is 4 bytes wide, inside the block and aligned. -/
theorem accessReg_ok {c : Config} {addr width : Nat} {r : Reg} :
    accessReg c addr width = .ok r ↔ width = 4 ∧ c.owcBase ≤ addr ∧ addr < c.owcBase + 0x2000 ∧
      (addr - c.owcBase) % 4 = 0 ∧ r = regAt c (addr - c.owcBase) := by
  unfold accessReg
  split
  · simp_all
  · split
    · simp only [reduceCtorEq, false_iff]
      intro h
      omega
    · split
      · simp only [reduceCtorEq, false_iff]
        intro h
        omega
      · simp only [Except.ok.injEq]
        constructor
        · rintro rfl
          exact ⟨by omega, by omega, by omega, by omega, rfl⟩
        · rintro ⟨-, -, -, -, rfl⟩
          rfl

/-- A host write of a command word to CMD, with BUSY = 0, starts what the word says. -/
theorem hostWrite_cmd {s : State} (h : s.busy = false) (w : Word) :
    hostWrite s.cfg.owcBase 4 w s = startCode (.cmd w) s := by
  simp [hostWrite, accessReg_cmd, h]

theorem startCode_ok {c : Code} {i : Instr} (h : decodeCode c = .ok i) (s : State) : startCode c s = exec i s := by
  simp [startCode, h]

theorem startCode_error {c : Code} {e : Reject} (h : decodeCode c = .error e) (s : State) :
    startCode c s = illegalWord s := by
  simp [startCode, h]

/-- `withFetchWord` only places the input. -/
@[simp] theorem withFetchWord_inputs (s : State) (nbits w : Nat) :
    (s.withFetchWord nbits w).inputs = inputOfCode s.cfg.owcBase (codeOfTable nbits w) :: s.inputs := rfl

/-- An aligned 4-byte access inside the block names the register of its offset. -/
theorem accessReg_at (c : Config) {off : Nat} (h : off < 0x2000) (ha : off % 4 = 0) :
    accessReg c (c.owcBase + off) 4 = .ok (regAt c off) := by
  rw [accessReg_ok]
  refine ⟨rfl, by omega, by omega, ?_, ?_⟩ <;> simp [ha]

/-- A host read while BUSY = 0: it returns what the register reads as, or faults, and changes nothing else. -/
theorem step_read {s : State} {off : Nat} {rest : List Input} (hb : s.busy = false) (h : off < 0x2000)
    (ha : off % 4 = 0) (hi : s.inputs = .read (s.cfg.owcBase + off) 4 :: rest) :
    step s = match readReg (regAt s.cfg off) (withInputs rest s) with
      | .ok w    => .next { s with inputs := rest, rdata := w }
      | .error f => .fault f := by
  rw [step_cons hi]
  simp only [stepInput, hostRead, withInputs_cfg, withInputs_busy, accessReg_at s.cfg h ha, hb]
  rw [if_neg (by simp)]
  rfl

/-- A host write while BUSY = 0 to a register other than CMD. -/
theorem step_write {s : State} {off : Nat} {v : Word} {rest : List Input} (hb : s.busy = false) (h : off < 0x2000)
    (ha : off % 4 = 0) (hc : regAt s.cfg off ≠ .cmd) (hi : s.inputs = .write (s.cfg.owcBase + off) 4 v :: rest) :
    step s = .next (writeReg (regAt s.cfg off) v (withInputs rest s)) := by
  rw [step_cons hi]
  simp [stepInput, hostWrite, accessReg_at s.cfg h ha, hb, hc]

/-- The DATABUF byte window's offsets. -/
theorem regAt_databuf {c : Config} (hc : c.wf) {i : Nat} (hi : i < c.databufBytes) :
    regAt c (0x100 + i) = .databuf i := by
  obtain ⟨-, -, -, -, h5, -⟩ := hc
  unfold regAt
  iterate 14 rw [if_neg (by omega)]
  rw [if_pos (by omega), if_pos (by omega)]
  simp

/-- The SIGBUF window's offsets. -/
theorem regAt_sigbuf {c : Config} {i : Nat} (hi : i < c.sigbufEntries) :
    regAt c (0x1000 + 4 * i) = .sigbuf i := by
  unfold regAt
  iterate 16 rw [if_neg (by omega)]
  have h : (0x1000 + 4 * i - 0x1000) / 4 = i := by omega
  rw [h, if_pos hi]

/-- The offsets that neither a register nor a buffer takes. -/
theorem regAt_reserved {c : Config} {off : Nat} (ha : off % 4 = 0)
    (h : (0x034 ≤ off ∧ off < 0x100) ∨ (0x100 + c.databufBytes ≤ off ∧ off < 0x1000) ∨
      (0x1000 + 4 * c.sigbufEntries ≤ off ∧ off < 0x2000)) : regAt c off = .reserved := by
  unfold regAt
  iterate 13 rw [if_neg (by omega)]
  split
  · rfl
  · split
    · rw [if_neg (by omega)]
    · split
      · rfl
      · rw [if_neg (by omega)]

/-- A choice of registers is not `r` when neither branch is. -/
theorem ite_ne {p : Prop} [Decidable p] {a b r : Reg} (ha : p → a ≠ r) (hb : ¬ p → b ≠ r) :
    (if p then a else b) ≠ r := by
  by_cases h : p
  · rw [if_pos h]; exact ha h
  · rw [if_neg h]; exact hb h

/-- STATUS has the one offset. -/
theorem regAt_ne_status {c : Config} {off : Nat} (h : off ≠ 0x004) : regAt c off ≠ .status := by
  unfold regAt
  refine ite_ne (fun _ => nofun) fun _ => ?_
  refine ite_ne (fun h' => absurd h' h) fun _ => ?_
  iterate 12 refine ite_ne (fun _ => nofun) fun _ => ?_
  refine ite_ne (fun _ => ite_ne (fun _ => nofun) fun _ => nofun) fun _ => ?_
  refine ite_ne (fun _ => nofun) fun _ => ite_ne (fun _ => nofun) fun _ => nofun

/-- A choice of registers that is `r`, where its first branch is not, took its second. -/
theorem ite_reg {p : Prop} [Decidable p] {a b r : Reg} (h : (if p then a else b) = r) (ha : a ≠ r) : ¬ p ∧ b = r := by
  by_cases hp : p
  · rw [if_pos hp] at h; exact absurd h ha
  · rw [if_neg hp] at h; exact ⟨hp, h⟩

/-- An access to DATABUF lies within its size. -/
theorem regAt_databuf_lt {c : Config} (hc : c.wf) {off i : Nat} (ha : off % 4 = 0) (h : regAt c off = .databuf i) :
    i + 4 ≤ c.databufBytes := by
  obtain ⟨-, -, -, -, -, h6⟩ := hc
  unfold regAt at h
  iterate 13 obtain ⟨-, h⟩ := ite_reg h nofun
  obtain ⟨hlow, h⟩ := ite_reg h nofun
  by_cases hw : off < 0x200
  · rw [if_pos hw] at h
    by_cases hs : off - 0x100 < c.databufBytes
    · rw [if_pos hs, Reg.databuf.injEq] at h
      omega
    · rw [if_neg hs] at h; cases h
  · rw [if_neg hw] at h
    obtain ⟨-, h⟩ := ite_reg h nofun
    obtain ⟨-, h⟩ := ite_reg h nofun
    cases h

/-- An access to SIGBUF lies within its size. -/
theorem regAt_sigbuf_lt {c : Config} {off i : Nat} (h : regAt c off = .sigbuf i) : i < c.sigbufEntries := by
  unfold regAt at h
  iterate 14 obtain ⟨-, h⟩ := ite_reg h nofun
  obtain ⟨-, h⟩ := ite_reg h (by intro hh; obtain ⟨-, hh⟩ := ite_reg hh nofun; cases hh)
  obtain ⟨-, h⟩ := ite_reg h nofun
  by_cases hs : (off - 0x1000) / 4 < c.sigbufEntries
  · rw [if_pos hs, Reg.sigbuf.injEq] at h
    omega
  · rw [if_neg hs] at h; cases h

end Sys2Proof.Machine
end

