-- ==== Sys2Proof/Laws/Memory.lean ====
section
/-! SUPPORT. Every operation that writes SIGBUF or DATABUF keeps their canonical form, and reset has it. -/

namespace Sys2Proof.Machine

/-- Right after reset nothing is listed. -/
theorem resetWith_memory_wf (c : Config) (l : List Input) (d : Nat) : Memory.wf (State.resetWith c l d) :=
  ⟨⟨.nil, by simp [State.resetWith]⟩, ⟨.nil, by simp [State.resetWith]⟩⟩

/-- The state after reset. -/
theorem reset_memory_wf : Memory.wf State.reset := resetWith_memory_wf _ _ _

/-- A signal list that fits is stored in canonical form. -/
theorem storeSignals_memory_wf {s : State} (h : Memory.wf s) {l : List Signal} (hl : l.length ≤ s.cfg.sigbufEntries) :
    Memory.wf (storeSignals l s) :=
  ⟨bufWf_bufWriteList l h.1 (by simpa [storeSignals] using hl), h.2⟩

/-- A byte list that fits is stored in canonical form. -/
theorem storeBytes_memory_wf {s : State} (h : Memory.wf s) {bs : List Byte} (hl : bs.length ≤ s.cfg.databufBytes) :
    Memory.wf (storeBytes bs s) :=
  ⟨h.1, bufWf_bufWriteList bs h.2 (by simpa [storeBytes] using hl)⟩

/-- A host write keeps the canonical form, whatever aligned offset it has. -/
theorem writeReg_memory_wf {s : State} (hc : s.cfg.wf) (h : Memory.wf s) {off : Nat} (ha : off % 4 = 0) (v : Word) :
    Memory.wf (writeReg (regAt s.cfg off) v s) := by
  cases hr : regAt s.cfg off with
  | databuf i =>
    refine ⟨h.1, bufWf_bufWriteList _ h.2 ?_⟩
    simpa [bytesOfWord, writeReg] using regAt_databuf_lt hc ha hr
  | sigbuf i => exact ⟨bufWf_bufWrite _ h.1 (regAt_sigbuf_lt hr), h.2⟩
  | cmd | status | dataLo | dataHi | arg | sigLen | idleThr | crc | srch0 | srch1 | sidLo | sidHi | params | reserved =>
    exact h

/-- What each store leaves to be read, and what it leaves unread: SIGBUF. -/
theorem storeSignals_read (l : List Signal) (s : State) (i : Nat) :
    bufRead i (storeSignals l s).sigbuf = if i < l.length then l[i]? else bufRead i s.sigbuf := by
  simp [storeSignals, bufRead_bufWriteList]

/-- The same for DATABUF. -/
theorem storeBytes_read (bs : List Byte) (s : State) (i : Nat) :
    bufRead i (storeBytes bs s).databuf = if i < bs.length then bs[i]? else bufRead i s.databuf := by
  simp [storeBytes, bufRead_bufWriteList]

/-- DATABUF[0..n-1] as an operand, where every byte has a value. -/
theorem bytesOperand_ok {s : State} {n : Nat} {bs : List Byte} :
    bytesOperand s n = .ok bs ↔ bs.length = n ∧ ∀ k < n, bufRead k s.databuf = bs[k]? := by
  have h := bufReadList_ok (m := s.databuf) (k := 0) (n := n) (vs := bs)
  simp only [Nat.zero_add] at h
  rw [← h, bytesOperand]
  cases bufReadList s.databuf 0 n <;> simp [Except.mapError]

/-- DATABUF[0..n-1] as an operand, where byte `k` is the first without a value. -/
theorem bytesOperand_error {s : State} {n k : Nat} (hk : k < n) (h : bufRead k s.databuf = none)
    (hj : ∀ j, j < k → bufRead j s.databuf ≠ none) : bytesOperand s n = .error (.databufNoValue k) := by
  rw [bytesOperand, bufReadList_error.mpr ⟨by omega, by omega, h, fun i _ hi => Option.isSome_iff_ne_none.mpr (hj i hi)⟩]
  rfl

/-- SIGBUF[a..a+n-1] as an operand, where every entry has a value. -/
theorem signalsOperand_ok {s : State} {a n : Nat} {l : List Signal} :
    signalsOperand s a n = .ok l ↔ l.length = n ∧ ∀ k < n, bufRead (a + k) s.sigbuf = l[k]? := by
  rw [← bufReadList_ok, signalsOperand]
  cases bufReadList s.sigbuf a n <;> simp [Except.mapError]

/-- SIGBUF[a..a+n-1] as an operand, where entry `i` is the first without a value. -/
theorem signalsOperand_error {s : State} {a n i : Nat} (h1 : a ≤ i) (h2 : i < a + n) (h : bufRead i s.sigbuf = none)
    (hj : ∀ j, a ≤ j → j < i → bufRead j s.sigbuf ≠ none) : signalsOperand s a n = .error (.sigbufNoValue i) := by
  rw [signalsOperand, bufReadList_error.mpr ⟨h1, h2, h, fun i ha hi => Option.isSome_iff_ne_none.mpr (hj i ha hi)⟩]
  rfl

end Sys2Proof.Machine
end

