-- ==== Sys2Proof/Laws/PerInstr.lean ====
section
/-! SUPPORT. A property of every instruction as syntax, proved constructor by constructor: the command word that the
encoder gives has its reserved bits 0 and the instruction's count in COUNT (30_encoding R100, R101). -/

namespace Sys2Proof.Laws

/-- Where the encoding of `i` is a command word, its reserved fields are 0 and its COUNT field is the count of `i`,
modulo 256. -/
def EncodedFields.Statement (i : Instr) : Prop :=
  ∀ w, encode i = .cmd w → (cmdFields w).low = 0 ∧ (cmdFields w).high = 0 ∧ (cmdFields w).count = BitVec.ofNat 8 i.count

/-- The statement for every word the encoder writes with `cmdWord`. -/
theorem EncodedFields.of_cmdWord {i : Instr} {op : BitVec 8} {p a : Bool} {m : BitVec 2} {n : Nat}
    (h : encode i = cmdWord op p a m n) (hn : i.count = n) : EncodedFields.Statement i := by
  intro w hw
  rw [h, cmdWord, Code.cmd.injEq] at hw
  subst hw
  simp [hn]

/-- The statement for a ROM byte, which is no command word. -/
theorem EncodedFields.of_rom {i : Instr} {b : Byte} (h : encode i = .rom b) : EncodedFields.Statement i := by
  intro w hw
  rw [h] at hw
  cases hw

theorem EncodedFields.encWrite (n : Nat) : EncodedFields.Statement (.encWrite n) := EncodedFields.of_cmdWord rfl rfl
theorem EncodedFields.encWriteBytes (n : Nat) : EncodedFields.Statement (.encWriteBytes n) := EncodedFields.of_cmdWord rfl rfl
theorem EncodedFields.encRead (n : Nat) : EncodedFields.Statement (.encRead n) := EncodedFields.of_cmdWord rfl rfl
theorem EncodedFields.decode (n : Nat) : EncodedFields.Statement (.decode n) := EncodedFields.of_cmdWord rfl rfl
theorem EncodedFields.decodeBytes (n : Nat) : EncodedFields.Statement (.decodeBytes n) := EncodedFields.of_cmdWord rfl rfl
theorem EncodedFields.reset : EncodedFields.Statement .reset := EncodedFields.of_cmdWord rfl rfl
theorem EncodedFields.writeBits (p : Bool) (n : Nat) : EncodedFields.Statement (.writeBits p n) := EncodedFields.of_cmdWord rfl rfl
theorem EncodedFields.writeBytes (p : Bool) (n : Nat) : EncodedFields.Statement (.writeBytes p n) := EncodedFields.of_cmdWord rfl rfl
theorem EncodedFields.readBits (n : Nat) : EncodedFields.Statement (.readBits n) := EncodedFields.of_cmdWord rfl rfl
theorem EncodedFields.readBytes (n : Nat) : EncodedFields.Statement (.readBytes n) := EncodedFields.of_cmdWord rfl rfl
theorem EncodedFields.setPower (p : Bool) : EncodedFields.Statement (.setPower p) := EncodedFields.of_cmdWord rfl rfl
theorem EncodedFields.close : EncodedFields.Statement .close := EncodedFields.of_cmdWord rfl rfl
theorem EncodedFields.crc8Id : EncodedFields.Statement .crc8Id := EncodedFields.of_cmdWord rfl rfl
theorem EncodedFields.crc8Bytes (n : Nat) : EncodedFields.Statement (.crc8Bytes n) := EncodedFields.of_cmdWord rfl rfl
theorem EncodedFields.select : EncodedFields.Statement .select := EncodedFields.of_cmdWord rfl rfl
theorem EncodedFields.skip : EncodedFields.Statement .skip := EncodedFields.of_cmdWord rfl rfl
theorem EncodedFields.readRom : EncodedFields.Statement .readRom := EncodedFields.of_cmdWord rfl rfl
theorem EncodedFields.searchStartPlain (a : Bool) : EncodedFields.Statement (.searchStartPlain a) := EncodedFields.of_cmdWord rfl rfl
theorem EncodedFields.searchStartFamily (a : Bool) : EncodedFields.Statement (.searchStartFamily a) := EncodedFields.of_cmdWord rfl rfl
theorem EncodedFields.searchStartPing : EncodedFields.Statement .searchStartPing := EncodedFields.of_cmdWord rfl rfl
theorem EncodedFields.searchNext : EncodedFields.Statement .searchNext := EncodedFields.of_cmdWord rfl rfl
theorem EncodedFields.searchSkipFamily : EncodedFields.Statement .searchSkipFamily := EncodedFields.of_cmdWord rfl rfl
theorem EncodedFields.searchStop : EncodedFields.Statement .searchStop := EncodedFields.of_cmdWord rfl rfl
theorem EncodedFields.romMatch : EncodedFields.Statement .romMatch := EncodedFields.of_rom rfl
theorem EncodedFields.romSkip : EncodedFields.Statement .romSkip := EncodedFields.of_rom rfl
theorem EncodedFields.romSearch : EncodedFields.Statement .romSearch := EncodedFields.of_rom rfl
theorem EncodedFields.romRead : EncodedFields.Statement .romRead := EncodedFields.of_rom rfl
theorem EncodedFields.romSearchAlarm : EncodedFields.Statement .romSearchAlarm := EncodedFields.of_rom rfl

end Sys2Proof.Laws
end

