-- ==== Sys2Proof/Laws/Signals.lean ====
section
/-! SUPPORT. What the codec functions give, signal by signal and bit by bit, and how they go one slot or byte further. -/

namespace Sys2Proof.Machine

/-! The constants that are sums or that the state and the list lengths use, as numbers (40_codec R140, R141). -/

@[simp] theorem signalsPerBit_eq : signalsPerBit = 2 := rfl
@[simp] theorem readHigh_eq : readHigh = 69 := rfl
@[simp] theorem resetHigh_eq : resetHigh = 480 := rfl
@[simp] theorem idleThreshold_eq : idleThreshold = 75 := rfl
@[simp] theorem resetPulse_eq : resetPulse = [.low 480, .high 480] := rfl

@[simp] theorem writeSlot_true : writeSlot true = [.low 6, .high 64] := by decide
@[simp] theorem writeSlot_false : writeSlot false = [.low 60, .high 10] := by decide

@[simp] theorem encodeWrite_zero (v : Long) : encodeWrite v 0 = [] := rfl

/-- One more slot at the end. -/
theorem encodeWrite_succ (v : Long) (n : Nat) :
    encodeWrite v (n + 1) = encodeWrite v n ++ writeSlot (v.getLsbD n) := by
  simp [encodeWrite, List.range_succ]

@[simp] theorem encodeRead_zero : encodeRead 0 = [] := rfl

/-- One more read slot at the end. -/
theorem encodeRead_succ (n : Nat) : encodeRead (n + 1) = encodeRead n ++ [.low 6, .high 69] := by
  simp [encodeRead, List.range_succ, readLow]

@[simp] theorem writeSlot_length (b : Bool) : (writeSlot b).length = 2 := rfl

@[simp] theorem encodeWrite_length (v : Long) (n : Nat) : (encodeWrite v n).length = 2 * n := by
  induction n with
  | zero => rfl
  | succ n ih => simp [encodeWrite_succ, ih]; omega

@[simp] theorem encodeRead_length (n : Nat) : (encodeRead n).length = 2 * n := by
  induction n with
  | zero => rfl
  | succ n ih => simp [encodeRead_succ, ih]; omega

@[simp] theorem encodeWriteBytes_nil : encodeWriteBytes [] = [] := rfl

theorem encodeWriteBytes_cons (b : Byte) (bs : List Byte) :
    encodeWriteBytes (b :: bs) = encodeWrite (b.setWidth 64) 8 ++ encodeWriteBytes bs := rfl

@[simp] theorem encodeWriteBytes_length (bs : List Byte) : (encodeWriteBytes bs).length = 16 * bs.length := by
  induction bs with
  | nil => rfl
  | cons b bs ih => simp [encodeWriteBytes_cons, ih]; omega

/-- The low signal of slot `k`. -/
theorem encodeWrite_low {v : Long} {n k : Nat} (h : k < n) :
    (encodeWrite v n)[2 * k]? = some (.low (if v.getLsbD k then 6 else 60)) := by
  induction n with
  | zero => omega
  | succ n ih =>
    rw [encodeWrite_succ]
    by_cases hk : k < n
    · rw [List.getElem?_append_left (by simp; omega)]; exact ih hk
    · obtain rfl : k = n := by omega
      rw [List.getElem?_append_right (by simp)]
      cases v.getLsbD k <;> simp

/-- The high signal of slot `k`. -/
theorem encodeWrite_high {v : Long} {n k : Nat} (h : k < n) :
    (encodeWrite v n)[2 * k + 1]? = some (.high (if v.getLsbD k then 64 else 10)) := by
  induction n with
  | zero => omega
  | succ n ih =>
    rw [encodeWrite_succ]
    by_cases hk : k < n
    · rw [List.getElem?_append_left (by simp; omega)]; exact ih hk
    · obtain rfl : k = n := by omega
      rw [List.getElem?_append_right (by simp)]
      cases v.getLsbD k <;> simp

/-- The two signals of read slot `k`. -/
theorem encodeRead_get {n k : Nat} (h : k < n) :
    (encodeRead n)[2 * k]? = some (.low 6) ∧ (encodeRead n)[2 * k + 1]? = some (.high 69) := by
  induction n with
  | zero => omega
  | succ n ih =>
    rw [encodeRead_succ]
    by_cases hk : k < n
    · rw [List.getElem?_append_left (by simp; omega), List.getElem?_append_left (by simp; omega)]
      exact ih hk
    · obtain rfl : k = n := by omega
      rw [List.getElem?_append_right (by simp), List.getElem?_append_right (by simp)]
      simp

/-- Signal `i` of byte `k`'s slots is signal `16 k + i`. -/
theorem encodeWriteBytes_get {bs : List Byte} {k i : Nat} {b : Byte} (hb : bs[k]? = some b) (hi : i < 16) :
    (encodeWriteBytes bs)[16 * k + i]? = (encodeWrite (b.setWidth 64) 8)[i]? := by
  induction bs generalizing k with
  | nil => simp at hb
  | cons c bs ih =>
    rw [encodeWriteBytes_cons]
    cases k with
    | zero =>
      simp only [List.getElem?_cons_zero, Option.some.injEq] at hb
      subst hb
      rw [List.getElem?_append_left (by simp; omega)]
      simp
    | succ k =>
      rw [List.getElem?_append_right (by simp; omega)]
      have : 16 * (k + 1) + i - (encodeWrite (c.setWidth 64) 8).length = 16 * k + i := by simp; omega
      rw [this]
      exact ih (by simpa using hb)

/-- Bit `k` of the number a list of bits stands for. -/
theorem bitsToLong_getLsbD (bs : List Bool) (k : Nat) :
    (bitsToLong bs).getLsbD k = (decide (k < 64) && bs[k]?.getD false) := by
  induction bs generalizing k with
  | nil => simp [bitsToLong]
  | cons b bs ih =>
    have hcons : bitsToLong (b :: bs) = (bitsToLong bs <<< 1) ||| (BitVec.ofBool b).setWidth 64 := rfl
    rw [hcons, BitVec.getLsbD_or, BitVec.getLsbD_shiftLeft, BitVec.getLsbD_setWidth, BitVec.getLsbD_ofBool]
    cases k with
    | zero => simp
    | succ k =>
      simp only [ih]
      by_cases hk : k + 1 < 64
      · have : k < 64 := by omega
        simp [hk, this]
      · simp [hk]

/-- decodePairs answers exactly when every pair is a low then a high signal, with the bits their lows give. -/
theorem decodePairs_some {n : Nat} {l : List Signal} {bs : List Bool} :
    decodePairs n l = some bs ↔
      bs.length = n ∧ ∀ k < n, ∃ lo hi, l[2 * k]? = some lo ∧ l[2 * k + 1]? = some hi ∧
        lo.level = false ∧ hi.level = true ∧ bs[k]? = some (decide (lo.period < readHighBeforeSample)) := by
  induction n generalizing l bs with
  | zero => cases bs <;> simp [decodePairs]
  | succ n ih =>
    match l with
    | [] =>
      simp only [decodePairs, false_iff, reduceCtorEq, not_and]
      intro _ h
      obtain ⟨lo, hi, h1, -⟩ := h 0 (by omega)
      simp at h1
    | [x] =>
      simp only [decodePairs, false_iff, reduceCtorEq, not_and]
      intro _ h
      obtain ⟨lo, hi, -, h2, -⟩ := h 0 (by omega)
      simp at h2
    | lo :: hi :: rest =>
      simp only [decodePairs]
      split
      · rename_i hlev
        rw [Option.map_eq_some_iff]
        constructor
        · rintro ⟨cs, hcs, rfl⟩
          obtain ⟨hl, hk⟩ := ih.mp hcs
          refine ⟨by simp [hl], ?_⟩
          rintro (_ | k) hk'
          · exact ⟨lo, hi, by simp, by simp, hlev.1, hlev.2, by simp⟩
          · obtain ⟨lo', hi', h1, h2, h3⟩ := hk k (by omega)
            exact ⟨lo', hi', by simpa [Nat.mul_add] using h1, by simpa [Nat.mul_add] using h2, by simpa using h3⟩
        · rintro ⟨hl, hk⟩
          cases bs with
          | nil => simp at hl
          | cons c cs =>
            refine ⟨cs, ih.mpr ⟨by simpa using hl, fun k hk' => ?_⟩, ?_⟩
            · obtain ⟨lo', hi', h1, h2, h3⟩ := hk (k + 1) (by omega)
              exact ⟨lo', hi', by simpa [Nat.mul_add] using h1, by simpa [Nat.mul_add] using h2, by simpa using h3⟩
            · obtain ⟨lo', hi', h1, h2, -, -, h5⟩ := hk 0 (by omega)
              simp only [Nat.mul_zero, List.getElem?_cons_zero, Option.some.injEq] at h1 h5
              subst h1
              rw [h5]
      · rename_i hlev
        simp only [false_iff, reduceCtorEq, not_and]
        intro _ h
        obtain ⟨lo', hi', h1, h2, h3, h4, -⟩ := h 0 (by omega)
        simp at h1 h2
        subst h1 h2
        exact hlev ⟨h3, h4⟩

/-- decode (40_codec R146): what it answers, bit by bit. -/
theorem decode_some {l : List Signal} {start n : Nat} {v : Long} :
    decode l start n = some v ↔ start + 2 * n ≤ l.length ∧
      ∃ bs : List Bool, v = bitsToLong bs ∧ bs.length = n ∧
      ∀ k < n, ∃ lo hi, l[start + 2 * k]? = some lo ∧ l[start + 2 * k + 1]? = some hi ∧
        lo.level = false ∧ hi.level = true ∧ bs[k]? = some (decide (lo.period < readHighBeforeSample)) := by
  rw [decode, signalsPerBit_eq]
  split
  · rename_i h
    rw [Option.map_eq_some_iff]
    constructor
    · rintro ⟨bs, hbs, rfl⟩
      obtain ⟨hl, hk⟩ := decodePairs_some.mp hbs
      refine ⟨h, bs, rfl, hl, fun k hk' => ?_⟩
      obtain ⟨lo, hi, h1, h2, h3⟩ := hk k hk'
      rw [List.getElem?_drop] at h1 h2
      exact ⟨lo, hi, h1, by rwa [← Nat.add_assoc] at h2, h3⟩
    · rintro ⟨-, bs, rfl, hl, hk⟩
      refine ⟨bs, decodePairs_some.mpr ⟨hl, fun k hk' => ?_⟩, rfl⟩
      obtain ⟨lo, hi, h1, h2, h3⟩ := hk k hk'
      exact ⟨lo, hi, by rw [List.getElem?_drop]; exact h1, by rw [List.getElem?_drop, ← Nat.add_assoc]; exact h2, h3⟩
  · rename_i h
    simp [h]

/-- decode fails exactly when the list is too short or a pair has the wrong levels (40_codec R146). -/
theorem decode_none {l : List Signal} {start n : Nat} :
    decode l start n = none ↔ l.length < start + 2 * n ∨
      ∃ k < n, ∀ lo hi, l[start + 2 * k]? = some lo → l[start + 2 * k + 1]? = some hi →
        ¬ (lo.level = false ∧ hi.level = true) := by
  constructor
  · intro h
    by_contra hc
    push Not at hc
    obtain ⟨hlen, hk⟩ := hc
    have hall : ∀ k < n, ∃ lo hi, l[start + 2 * k]? = some lo ∧ l[start + 2 * k + 1]? = some hi ∧
        lo.level = false ∧ hi.level = true := hk
    have key : ∃ bs : List Bool, decodePairs n (l.drop start) = some bs := by
      refine ⟨(List.range n).map (fun k => decide ((l[start + 2 * k]?.getD ⟨false, 0⟩).period < readHighBeforeSample)),
        decodePairs_some.mpr ⟨by simp, fun k hk' => ?_⟩⟩
      obtain ⟨lo, hi, h1, h2, h3, h4⟩ := hall k hk'
      refine ⟨lo, hi, by rw [List.getElem?_drop]; exact h1, by rw [List.getElem?_drop, ← Nat.add_assoc]; exact h2,
        h3, h4, ?_⟩
      simp [hk', h1]
    obtain ⟨bs, hbs⟩ := key
    rw [decode, signalsPerBit_eq, if_pos hlen, hbs] at h
    cases h
  · intro h
    cases hd : decode l start n with
    | none => rfl
    | some v =>
      exfalso
      obtain ⟨hlen, bs, -, -, hk⟩ := decode_some.mp hd
      rcases h with h | ⟨k, hk', hbad⟩
      · omega
      · obtain ⟨lo, hi, h1, h2, h3, h4, -⟩ := hk k hk'
        exact hbad lo hi h1 h2 ⟨h3, h4⟩

/-- decode of a list whose pairs from `start` on are `lo k`, `hi k`: the bits that the lows give, and 0 above. -/
theorem decode_pairs {l : List Signal} {start n : Nat} {lo hi : Nat → Signal}
    (h : ∀ k, k < n → l[start + 2 * k]? = some (lo k) ∧ l[start + 2 * k + 1]? = some (hi k) ∧ (lo k).level = false ∧
      (hi k).level = true) (hlen : start + 2 * n ≤ l.length) :
    ∃ v : Long, decode l start n = some v ∧
      ∀ k, k < 64 → v.getLsbD k = (decide (k < n) && decide ((lo k).period.toNat < 14)) := by
  let bs := (List.range n).map fun k => decide ((lo k).period < readHighBeforeSample)
  refine ⟨bitsToLong bs, decode_some.mpr ⟨hlen, bs, rfl, by simp [bs], fun k hk => ?_⟩, fun k hk => ?_⟩
  · obtain ⟨h1, h2, h3, h4⟩ := h k hk
    exact ⟨lo k, hi k, h1, h2, h3, h4, by simp [bs, hk]⟩
  · rw [bitsToLong_getLsbD]
    by_cases hn : k < n
    · simp [bs, hk, hn, readHighBeforeSample, BitVec.lt_def]
    · simp [bs, hn]

@[simp] theorem decodeBytes_zero (l : List Signal) (fb : Nat) : decodeBytes l fb 0 = some [] := rfl

/-- decode_bytes (40_codec R147): what it answers, byte by byte. -/
theorem decodeBytes_some {l : List Signal} {fb n : Nat} {bs : List Byte} :
    decodeBytes l fb n = some bs ↔ bs.length = n ∧
      ∀ k < n, ∃ v, decode l ((fb + k) * 16) 8 = some v ∧ bs[k]? = some (v.setWidth 8) := by
  induction n generalizing fb bs with
  | zero => cases bs <;> simp
  | succ n ih =>
    simp only [decodeBytes, signalsPerBit_eq, Nat.reduceMul]
    constructor
    · intro h
      split at h
      · rename_i v cs hv hcs
        cases h
        obtain ⟨hl, hk⟩ := ih.mp hcs
        refine ⟨by simp [hl], ?_⟩
        rintro (_ | k) hk'
        · exact ⟨v, by simpa using hv, by simp⟩
        · obtain ⟨w, h1, h2⟩ := hk k (by omega)
          exact ⟨w, by rw [show fb + (k + 1) = fb + 1 + k by omega]; exact h1, by simpa using h2⟩
      · cases h
    · rintro ⟨hl, hk⟩
      cases bs with
      | nil => simp at hl
      | cons c cs =>
        obtain ⟨v, h1, h2⟩ := hk 0 (by omega)
        have ht : decodeBytes l (fb + 1) n = some cs := by
          refine ih.mpr ⟨by simpa using hl, fun k hk' => ?_⟩
          obtain ⟨w, h3, h4⟩ := hk (k + 1) (by omega)
          exact ⟨w, by rw [show fb + 1 + k = fb + (k + 1) by omega]; exact h3, by simpa using h4⟩
        simp only [Nat.add_zero] at h1
        rw [h1, ht]
        simpa [eq_comm] using h2

/-- presence (41_link R172), element by element. -/
theorem presence_true {cl : List Signal} :
    presence cl = true ↔ ∃ e0 e1 e2 rest, cl = e0 :: e1 :: e2 :: rest ∧
      e0.level = false ∧ 478 ≤ e0.period.toNat ∧ e0.period.toNat ≤ 490 ∧
      e1.level = true ∧ 0 < e1.period.toNat ∧ e2.level = false ∧ 0 < e2.period.toNat := by
  constructor
  · intro h
    match cl with
    | [] | [_] | [_, _] => simp [presence] at h
    | e0 :: e1 :: e2 :: rest =>
      refine ⟨e0, e1, e2, rest, rfl, ?_⟩
      simpa [presence, resetLow, BitVec.le_def, BitVec.lt_def, and_assoc] using h
  · rintro ⟨e0, e1, e2, rest, rfl, h⟩
    simpa [presence, resetLow, BitVec.le_def, BitVec.lt_def, and_assoc] using h

@[simp] theorem crc8Bytes_nil : crc8Bytes [] = 0 := rfl

/-- The CRC of a list with one byte more at its end. -/
theorem crc8Bytes_concat (bs : List Byte) (b : Byte) :
    crc8Bytes (bs ++ [b]) = crcBits 8 (crc8Bytes bs) b := by
  simp [crc8Bytes]

end Sys2Proof.Machine
end

