-- ==== Sys2Proof/Laws/Transactions.lean ====
section
/-! SUPPORT. What each link procedure does when the outcome of its transaction stands ready: its event is appended, the
answer is taken, and the command goes on with what follows. One lemma per procedure and kind of outcome. -/

namespace Sys2Proof.Machine

variable {s : State} {rest : List Input}

/-- The state when a transaction has its outcome: its answer is taken, its event appended, nothing outstanding. -/
abbrev answered (e : PortEvent) (rest : List Input) (s : State) : State :=
  { s with phase := .exec, wait := none, inputs := rest, history := s.history ++ [e] }

/-- PortTx (20_memory R71, R77). -/
theorem settle_portTx {l : List Signal} {k : AfterWrite} {o : TxOutcome} (h : s.inputs = .port (.tx o) :: rest) :
    settle (portTx l k s) = settle (onTx k o (answered (.tx l s.openDrain o) rest s)) :=
  settle_cons (s := portTx l k s) h rfl

/-- PortTxRx (20_memory R72, R77). -/
theorem settle_portTxRx {l : List Signal} {thr : Half} {tmo : Option Nat} {k : AfterTxRx} {o : RxOutcome}
    (ho : ¬ (o = .timeout ∧ tmo = none)) (h : s.inputs = .port (.txRx o) :: rest) :
    settle (portTxRx l thr tmo k s) = settle (onTxRx k o (answered (.txRx l thr tmo s.openDrain o) rest s)) :=
  settle_cons (s := portTxRx l thr tmo k s) h (deliver_txRx rfl ho)

/-- What LinkReset returns on an outcome that is no Error (41_link R171). -/
def resetAnswer : RxOutcome → Bool
  | .captured cl     => presence cl
  | .timeout | .error => false

/-- LinkReset without an Error (41_link R171, R173): one event with threshold 530 and timeout 500; the threshold is as
before, and `savedThr` holds it. -/
theorem settle_linkReset {k : AfterReset} {o : RxOutcome} (ho : o ≠ .error) (h : s.inputs = .port (.txRx o) :: rest) :
    settle (linkReset k s) = settle (afterReset k (resetAnswer o) (answered
      (.txRx [.low 480, .high 480] 530 (some 500) s.openDrain o) rest { s with savedThr := s.idleThr })) := by
  unfold linkReset
  rw [settle_portTxRx (s := setIdleThr resetIdleThreshold { s with savedThr := s.idleThr }) (o := o) (rest := rest) (by simp [resetResponseTimeout]) h]
  cases o with
  | error => exact absurd rfl ho
  | captured cl => rfl
  | timeout => rfl

/-- LinkReset with an Error (41_link R171, R173). -/
theorem settle_linkReset_error {k : AfterReset} (h : s.inputs = .port (.txRx .error) :: rest) :
    settle (linkReset k s) = raiseIn k.inPass .transport (answered
      (.txRx [.low 480, .high 480] 530 (some 500) s.openDrain .error) rest { s with savedThr := s.idleThr }) := by
  unfold linkReset
  rw [settle_portTxRx (s := setIdleThr resetIdleThreshold { s with savedThr := s.idleThr }) (o := .error) (rest := rest) (by simp) h]
  exact settle_of_wait (by cases k <;> rfl)

/-- LinkWriteBits with the outcome Ok (41_link R174). -/
theorem settle_linkWriteBits {v : Long} {n : Nat} {pwr : Bool} {k : AfterWrite}
    (h : s.inputs = .port (.tx .ok) :: rest) :
    settle (linkWriteBits v n pwr k s) = settle (afterWrite k (answered (.tx (encodeWrite v n) (!pwr) .ok) rest
      { s with openDrain := !pwr })) := by
  unfold linkWriteBits
  rw [settle_portTx (s := setOpenDrain (!pwr) s) h]
  rfl

/-- LinkReadBits with a captured list whose decoding is `v` (41_link R175). -/
theorem settle_linkReadBits {n : Nat} {k : AfterRead} {cl : List Signal} {v : Long} (hv : decode cl 0 n = some v)
    (h : s.inputs = .port (.txRx (.captured cl)) :: rest) :
    settle (linkReadBits n k s) = settle (afterRead k v (answered
      (.txRx (encodeRead n) s.idleThr none true (.captured cl)) rest { s with openDrain := true })) := by
  unfold linkReadBits
  rw [settle_portTxRx (s := setOpenDrain true s) (by simp) h]
  simp only [onTxRx, onLinkRead, RxOutcome.list, hv]
  rfl

/-- LinkReadBits with a captured list that does not decode (41_link R175). -/
theorem settle_linkReadBits_invalid {n : Nat} {k : AfterRead} {cl : List Signal} (hv : decode cl 0 n = none)
    (h : s.inputs = .port (.txRx (.captured cl)) :: rest) :
    settle (linkReadBits n k s) = raiseIn k.inPass .invalidSignal (answered
      (.txRx (encodeRead n) s.idleThr none true (.captured cl)) rest { s with openDrain := true }) := by
  unfold linkReadBits
  rw [settle_portTxRx (s := setOpenDrain true s) (by simp) h]
  simp only [onTxRx, onLinkRead, RxOutcome.list, hv]
  exact settle_of_wait (by cases k <;> rfl)

/-- The pass after the bits `b` and `c` of its position (44_search R252 3d and 3e, R253, R254). -/
def passNext (q : Int) (b c : Bool) (ps : Pass) : Pass :=
  passChoose (!b && !c) (if !b && !c then collisionBit ps.p q ps.id else b) ps

/-- One position of a search pass (44_search R252 step 3): two bit reads and the write of b', three events. -/
theorem settle_passPosition {ps : Pass} {r1 r2 : List Signal} {v1 v2 : Long} (h1 : decode r1 0 1 = some v1)
    (h2 : decode r2 0 1 = some v2) (hbc : (v1.getLsbD 0 && v2.getLsbD 0) = false)
    (h : s.inputs = .port (.txRx (.captured r1)) :: .port (.txRx (.captured r2)) :: .port (.tx .ok) :: rest) :
    settle (linkReadBits 1 (.passBit ps) s) = settle (afterWrite
      (.passBit (passNext s.plub (v1.getLsbD 0) (v2.getLsbD 0) ps))
      { s with
        phase := .exec, wait := none, openDrain := true, inputs := rest,
        history := s.history ++ [.txRx (encodeRead 1) s.idleThr none true (.captured r1),
          .txRx (encodeRead 1) s.idleThr none true (.captured r2),
          .tx (writeSlot (if !v1.getLsbD 0 && !v2.getLsbD 0 then collisionBit ps.p s.plub ps.id else v1.getLsbD 0))
            true .ok] }) := by
  rw [settle_linkReadBits h1 h]
  simp only [afterRead]
  rw [settle_linkReadBits h2 (by rfl)]
  simp only [afterRead, passDecide, hbc, Bool.false_eq_true, if_false]
  rw [settle_linkWriteBits (rest := rest) (by rfl)]
  have he : ∀ b : Bool, encodeWrite ((BitVec.ofBool b).setWidth 64) 1 = writeSlot b := by decide
  simp [answered, he, passNext]

end Sys2Proof.Machine
end

