-- ==== Sys2Proof/Laws/Search.lean ====
section
/-! SUPPORT. What a search pass does on a bus that answers, in the words of the statements: its start, its opening, its
positions one after another, and the ID and the branches it has chosen. -/

namespace Sys2Proof.Machine

open Sys2Proof.Spec

/-! ### Captured lists and slots in the statements' words -/

/-- A list that reads as the bit `x` decodes to it. -/
theorem readsBit_decode {r : List Signal} {x : Bool} (h : readsBit r x) :
    ∃ v : Long, decode r 0 1 = some v ∧ v.getLsbD 0 = x := by
  obtain ⟨lo, hi, rest, rfl, h1, h2, h3⟩ := h
  obtain ⟨v, hv, hb⟩ := decode_pairs (l := lo :: hi :: rest) (start := 0) (n := 1) (lo := fun _ => lo) (hi := fun _ => hi)
    (fun k hk => by obtain rfl : k = 0 := by omega
                    exact ⟨rfl, rfl, h1, h2⟩) (by simp)
  exact ⟨v, hv, by rw [hb 0 (by omega), h3]; simp⟩

/-- An undecodable list is one that decode fails on. -/
theorem undecodable_decode {r : List Signal} {m : Nat} (h : undecodable r m) : decode r 0 m = none := by
  rw [decode_none]
  rcases h with h | ⟨k, sg, hk, h⟩
  · left; omega
  · refine .inr ⟨k, hk, fun lo hi h1 h2 ⟨h3, h4⟩ => ?_⟩
    rw [Nat.zero_add] at h1 h2
    rcases h with ⟨h, h'⟩ | ⟨h, h'⟩
    · rw [h1] at h; cases h; rw [h3] at h'; cases h'
    · rw [h2] at h; cases h; rw [h4] at h'; cases h'

theorem writeSlot_eq (b : Bool) : writeSlot b = [.low (lowOf b), .high (highOf b)] := by cases b <;> rfl

theorem encodeWrite_byte (b : Byte) : encodeWrite (b.setWidth 64) 8 = byteSlots b := by
  simp [encodeWrite, byteSlots, writeSlot_eq, List.range_succ]

/-! ### What the positions 0, …, n-1 choose and record -/

/-- The local copies at the start of a pass: the branches are -1 after SearchInit and SearchAdvance. -/
abbrev passFrom (sid : Long) : Pass := { id := sid, l := -1, lf := -1, p := 0 }

/-- The pass after `n` positions, answered with the bits `b` and `c`. -/
def passAt (q : Int) (b c : Nat → Bool) (sid : Long) : Nat → Pass
  | 0 => passFrom sid
  | n + 1 => { passNext q (b n) (c n) (passAt q b c sid n) with p := n + 1 }

theorem passNext_p (q : Int) (b c : Bool) (ps : Pass) : (passNext q b c ps).p = ps.p := by
  simp only [passNext, passChoose]
  repeat' split
  all_goals rfl

theorem passAt_p (q : Int) (b c : Nat → Bool) (sid : Long) (n : Nat) : (passAt q b c sid n).p = n := by
  cases n <;> rfl

/-- Bit `k` of an ID after one bit of it is set (44_search R256). -/
theorem setIdBit_getLsbD (id : Long) (p k : Nat) (b : Bool) (hk : k < 64) :
    (setIdBit id p b).getLsbD k = if k = p then b else id.getLsbD k := by
  simp only [setIdBit, BitVec.getLsbD_or, BitVec.getLsbD_and, BitVec.getLsbD_not, BitVec.getLsbD_shiftLeft,
    BitVec.getLsbD_setWidth, BitVec.getLsbD_ofBool]
  by_cases h : k = p
  · subst h; simp [hk]
  · by_cases h2 : k < p
    · simp [h, h2, hk]
    · have h3 : k - p ≠ 0 := by omega
      simp [h, h2, hk, h3, BitVec.getLsbD_one]

/-- The model's b' at position `n` is the rule's. -/
theorem chosenBit_eq {q : Int} {b c : Nat → Bool} {sid id : Long} {n : Nat} (h : id.getLsbD n = sid.getLsbD n) :
    (if (!b n && !c n) = true then collisionBit n q id else b n) = choice q sid b c n := by
  simp only [choice, collisionBit, h]
  cases b n <;> cases c n <;> simp

/-- The ID after `n` positions: the chosen bits below `n`, and the start ID's above (44_search R253, R256). -/
theorem passAt_id (q : Int) (b c : Nat → Bool) (sid : Long) {n : Nat} (hn : n ≤ 64) {k : Nat} (hk : k < 64) :
    (passAt q b c sid n).id.getLsbD k = if k < n then choice q sid b c k else sid.getLsbD k := by
  induction n generalizing k with
  | zero => simp [passAt]
  | succ n ih =>
    have hp := passAt_p q b c sid n
    have hch : (if (!b n && !c n) = true then collisionBit n q (passAt q b c sid n).id else b n) = choice q sid b c n :=
      chosenBit_eq (by rw [ih (by omega) (by omega), if_neg (by omega)])
    have h0 : (passAt q b c sid (n + 1)).id = setIdBit (passAt q b c sid n).id n (choice q sid b c n) := by
      simp only [passAt, passNext, passChoose, hp, hch]
      split <;> simp [hp]
    rw [h0, setIdBit_getLsbD _ _ _ _ hk, ih (by omega) hk]
    by_cases h : k = n
    · subst h; simp
    · have : (k < n + 1) = (k < n) := by apply propext; omega
      simp [h, this]

/-- The model's b' at the position the pass has reached is the rule's. -/
theorem passAt_choice (q : Int) (b c : Nat → Bool) (sid : Long) {n : Nat} (hn : n < 64) :
    (if (!b n && !c n) = true then collisionBit n q (passAt q b c sid n).id else b n) = choice q sid b c n :=
  chosenBit_eq (by rw [passAt_id q b c sid (by omega) hn, if_neg (by omega)])

/-- The branches after `n` positions: the highest ones recorded (44_search R254). -/
theorem passAt_branches (q : Int) (b c : Nat → Bool) (sid : Long) {n : Nat} (hn : n ≤ 64) :
    (passAt q b c sid n).l = lastBelow (recorded q sid b c) n ∧
    (passAt q b c sid n).lf = lastBelow (recorded q sid b c) (min n 8) := by
  induction n with
  | zero => exact ⟨rfl, rfl⟩
  | succ n ih =>
    obtain ⟨i1, i2⟩ := ih (by omega)
    have hr : recorded q sid b c n = (!b n && !c n && !choice q sid b c n) := rfl
    simp only [passAt, passNext, passChoose, passAt_p, passAt_choice q b c sid (show n < 64 by omega)]
    constructor
    · simp only [lastBelow, hr]
      split <;> simp_all
    · by_cases h8 : n < 8
      · rw [show min (n + 1) 8 = n + 1 by omega, show min n 8 = n by omega] at *
        simp only [lastBelow, hr]
        split <;> simp_all
      · rw [show min (n + 1) 8 = 8 by omega]
        rw [show min n 8 = 8 by omega] at i2
        split <;> simp_all

/-- A pass over all 64 positions has the chosen ID. -/
theorem passAt_isChosen {q : Int} {b c : Nat → Bool} {sid id : Long} (h : isChosen id q sid b c) :
    (passAt q b c sid 64).id = id := by
  apply BitVec.eq_of_getLsbD_eq
  intro k hk
  rw [h k hk]
  exact (passAt_id q b c sid (Nat.le_refl 64) hk).trans (if_pos hk)

/-! ### Running the positions -/

theorem passAnswers_succ (rb rc : Nat → List Signal) (n : Nat) (l : List Input) :
    passAnswers rb rc (n + 1) ++ l = passAnswers rb rc n ++
      (.port (.txRx (.captured (rb n))) :: .port (.txRx (.captured (rc n))) :: .port (.tx .ok) :: l) := by
  simp only [passAnswers]
  rw [List.range_succ]
  simp

theorem passEvents_succ (thr : Half) (rb rc : Nat → List Signal) (w : Nat → Bool) (n : Nat) :
    passEvents thr rb rc w (n + 1) =
      passEvents thr rb rc w n ++ [bitReadEvent thr (rb n), bitReadEvent thr (rc n), bitWriteEvent (w n)] := by
  simp only [passEvents]
  rw [List.range_succ]
  simp

/-- One position more: the pass that stands at position `n` has it answered, and goes on after its write. -/
theorem settle_passAt {s : State} {rb rc : List Signal} {b c : Nat → Bool} {sid : Long} {tail : List Input} {n : Nat}
    {q : Int} (hn : n < 64) (hq : s.plub = q) (ho : s.openDrain = true) (hph : s.phase = .exec) (hw : s.wait = none)
    (hb : readsBit rb (b n)) (hc : readsBit rc (c n)) (hbc : ¬ (b n = true ∧ c n = true))
    (hi : s.inputs = .port (.txRx (.captured rb)) :: .port (.txRx (.captured rc)) :: .port (.tx .ok) :: tail) :
    settle (linkReadBits 1 (.passBit (passAt q b c sid n)) s) =
      settle (afterWrite (.passBit (passNext q (b n) (c n) (passAt q b c sid n))) { s with
        inputs := tail,
        history := s.history ++ [bitReadEvent s.idleThr rb, bitReadEvent s.idleThr rc,
          bitWriteEvent (choice q sid b c n)] }) := by
  subst hq
  obtain ⟨v1, e1, g1⟩ := readsBit_decode hb
  obtain ⟨v2, e2, g2⟩ := readsBit_decode hc
  rw [settle_passPosition e1 e2 (by rw [g1, g2]; revert hbc; cases b n <;> cases c n <;> simp) hi, g1, g2, passAt_p,
    passAt_choice _ _ _ _ hn]
  congr 2
  simp only [ho, hph, hw, writeSlot_eq]
  rfl

/-- The first `n` positions of a pass, `n` at most 63, on a bus that answers them. -/
theorem settle_passPositions {s : State} {rb rc : Nat → List Signal} {b c : Nat → Bool} {sid : Long} {tail : List Input}
    {n : Nat} (hn : n ≤ 63) (ho : s.openDrain = true) (hph : s.phase = .exec) (hw : s.wait = none)
    (hb : busAnswers rb rc b c n) (hi : s.inputs = passAnswers rb rc n ++ tail) :
    settle (linkReadBits 1 (.passBit (passFrom sid)) s) =
      settle (linkReadBits 1 (.passBit (passAt s.plub b c sid n)) { s with
        inputs := tail, history := s.history ++ passEvents s.idleThr rb rc (choice s.plub sid b c) n }) := by
  induction n generalizing tail with
  | zero =>
    congr 2
    cases s
    simp_all [passAnswers, passEvents]
  | succ n ih =>
    obtain ⟨hb1, hb2, hb3⟩ := hb n (by omega)
    rw [ih (by omega) (fun p hp => hb p (by omega)) (hi.trans (passAnswers_succ _ _ _ _)),
      settle_passAt (tail := tail) (by omega) (by rfl) (by exact ho) (by exact hph) (by exact hw) hb1 hb2 hb3 (by rfl)]
    simp only [afterWrite, passNext_p, passAt_p]
    rw [if_pos (by omega), passEvents_succ]
    simp only [List.append_assoc]
    rfl

/-- All 64 positions of a pass on a bus that answers them. -/
theorem settle_passWhole {s : State} {rb rc : Nat → List Signal} {b c : Nat → Bool} {sid : Long} {tail : List Input}
    (ho : s.openDrain = true) (hph : s.phase = .exec) (hw : s.wait = none) (hb : busAnswers rb rc b c 64)
    (hi : s.inputs = passAnswers rb rc 64 ++ tail) :
    ∃ ps : Pass, ps.id = (passAt s.plub b c sid 64).id ∧ ps.l = (passAt s.plub b c sid 64).l ∧
      ps.lf = (passAt s.plub b c sid 64).lf ∧
      settle (linkReadBits 1 (.passBit (passFrom sid)) s) = settle (passEnd ps { s with
        inputs := tail, history := s.history ++ passEvents s.idleThr rb rc (choice s.plub sid b c) 64 }) := by
  refine ⟨passNext s.plub (b 63) (c 63) (passAt s.plub b c sid 63), rfl, rfl, rfl, ?_⟩
  obtain ⟨hb1, hb2, hb3⟩ := hb 63 (by omega)
  rw [settle_passPositions (n := 63) (Nat.le_refl 63) ho hph hw (fun p hp => hb p (by omega))
      (hi.trans (passAnswers_succ _ _ _ _)), settle_passAt (tail := tail) (by omega) (by rfl) (by exact ho) (by exact hph) (by exact hw) hb1 hb2 hb3 (by rfl)]
  simp only [afterWrite, passNext_p, passAt_p]
  rw [if_neg (by omega), show (64 : Nat) = 63 + 1 from rfl, passEvents_succ (n := 63)]
  simp only [List.append_assoc]

/-! ### The start of a pass -/

/-- The instructions that start a pass come to its reset. -/
theorem exec_startsPass {i : Instr} {s u : State} (h : startsPass i s u) (hb : s.busy = false) (hc : s.closed = false) :
    exec i s = .next (settle (linkReset .pass { u with busy := true, phase := .exec, wait := none })) := by
  cases i <;> simp only [startsPass] at h
  case searchStartPlain =>
    obtain ⟨h1, rfl⟩ := h
    simp only [exec, execSearchStartPlain, searchStart, command, hb]
    simp [h1, beginCommand, requireOpen, hc, searchStep, searchInit]
  case searchStartFamily =>
    obtain ⟨h1, fam, sid, h2, h3, rfl⟩ := h
    obtain rfl : fam = s.data.extractLsb' 0 8 := BitVec.eq_of_toNat_eq (by simp [h2])
    obtain rfl : sid = (s.data.extractLsb' 0 8).setWidth 64 := BitVec.eq_of_toNat_eq (by simp [h3]; omega)
    simp only [exec, execSearchStartFamily, searchStart, command, hb]
    simp [h1, beginCommand, requireOpen, hc, searchStep, searchInit, familyOperand]
  case searchStartPing =>
    obtain ⟨h1, rfl⟩ := h
    simp only [exec, execSearchStartPing, searchStart, command, hb]
    simp [h1, beginCommand, requireOpen, hc, searchStep, searchInit]
  case searchNext =>
    obtain ⟨h1, h2, rfl⟩ := h
    simp only [exec, execSearchNext, searchAnswer, command, hb]
    simp [h1, beginCommand, requireOpen, hc, searchStep, searchAdvance, h2]
  case searchSkipFamily =>
    obtain ⟨h1, h2, rfl⟩ := h
    simp only [exec, execSearchSkipFamily, searchAnswer, command, hb]
    simp [h1, beginCommand, requireOpen, hc, searchStep, searchAdvance, h2]

/-- What the start of a pass leaves, and the branches it sets. -/
theorem startsPass_fields {i : Instr} {s u : State} (h : startsPass i s u) :
    u.lub = -1 ∧ u.lufb = -1 ∧ u.err = false ∧ u.ecode = .none ∧ u.inputs = s.inputs ∧ u.history = s.history ∧
    u.openDrain = s.openDrain ∧ u.idleThr = s.idleThr ∧ u.wait = s.wait ∧ u.busy = s.busy := by
  cases i <;> simp only [startsPass] at h
  case searchStartFamily => obtain ⟨-, -, -, -, -, rfl⟩ := h; simp
  case searchStartPlain | searchStartPing => obtain ⟨-, rfl⟩ := h; simp
  case searchNext | searchSkipFamily => obtain ⟨-, -, rfl⟩ := h; simp

/-- The opening of a pass whose reset shows a presence (44_search R252 steps 1 and 2). -/
theorem settle_passOpening {s : State} {cl : List Signal} {tail : List Input} (hp : present cl)
    (hi : s.inputs = .port (.txRx (.captured cl)) :: .port (.tx .ok) :: tail) :
    settle (linkReset .pass s) = settle (linkReadBits 1 (.passBit (passStart s)) { s with
      phase := .exec, wait := none, savedThr := s.idleThr, openDrain := true, inputs := tail,
      history := s.history ++ passOpening s.salm s.openDrain cl }) := by
  rw [settle_linkReset (by simp) hi, show resetAnswer (.captured cl) = true from presence_true.mpr hp]
  simp only [afterReset, if_true, linkWriteRom]
  rw [settle_linkWriteBits (rest := tail) (by rfl)]
  simp only [afterWrite, passStart, passOpening, encodeWrite_byte]
  congr 2
  cases s.salm <;> simp [searchByte, romSearchAlarmByte, romSearchByte]

/-- An instruction that starts a pass, on a bus that shows a presence, comes to the positions of the pass. -/
theorem exec_passPositions {i : Instr} {s u : State} {cl : List Signal} {tail : List Input} (h : startsPass i s u)
    (hb : s.busy = false) (hc : s.closed = false) (hp : present cl)
    (hi : s.inputs = .port (.txRx (.captured cl)) :: .port (.tx .ok) :: tail) :
    exec i s = .next (settle (linkReadBits 1 (.passBit (passFrom u.sid)) { u with
      busy := true, phase := .exec, wait := none, savedThr := s.idleThr, openDrain := true, inputs := tail,
      history := s.history ++ passOpening u.salm s.openDrain cl })) := by
  obtain ⟨l1, l2, -, -, l3, l4, l5, l6, -, -⟩ := startsPass_fields h
  rw [exec_startsPass h hb hc,
    settle_passOpening (s := { u with busy := true, phase := .exec, wait := none }) hp (l3.trans hi)]
  simp [passStart, l1, l2, l4, l5, l6]

end Sys2Proof.Machine
end

