-- ==== Sys2Proof/Tests/Slice0.lean ====
section
/-! SUPPORT. The model's own tests: which instructions are well-formed, each instruction's code written out from the
spec's encoding of it, a few behaviours from the vectors of 95_test_vectors.md, and for every obligation with hypotheses
a state and operands that meet them. -/

open Sys2Proof Sys2Proof.Machine Sys2Proof.Spec

namespace Sys2Proof.Tests

/-- The outcome is a next state with the property. -/
def nextIs (r : Result) (p : State → Bool) : Bool :=
  match r with
  | .next t => p t
  | .fault _ | .refused _ => false

/-- The outcome is the fault. -/
def faultIs (r : Result) (f : Fault) : Bool :=
  match r with
  | .fault g => decide (g = f)
  | .next _ | .refused _ => false

/-- An answer of the port environment: a captured list. -/
abbrev cap (cl : List Signal) : Input := .port (.txRx (.captured cl))

/-- An answer of the port environment: a transmission ended Ok. -/
abbrev sent : Input := .port (.tx .ok)

/-- The block after reset with the inputs `l` to come. -/
abbrev at0 (l : List Input) : State := { State.reset with inputs := l }

/-- The link is closed. -/
abbrev closed0 (l : List Input) : State := { at0 l with closed := true }

/-- A delivered ID waits for its answer. -/
abbrev yield0 (l : List Input) : State := { at0 l with idrdy := true, sact := true, phase := .yield }

/-- WRITE_BITS 1 waits for its outcome. -/
abbrev busy0 (l : List Input) : State :=
  { at0 l with busy := true, phase := .waitPort, wait := some (.tx [.low 60, .high 10] true .done) }

/-- DATABUF holds `bs` from byte 0 on. -/
abbrev withBytes (bs : List Byte) (s : State) : State := { s with databuf := bufWriteList 0 bs [] }

/-- SIGBUF holds `l` from entry 0 on, SIG_LEN its length. -/
abbrev withSignals (l : List Signal) (s : State) : State :=
  { s with sigbuf := bufWriteList 0 l [], sigLen := BitVec.ofNat 16 l.length }

/-- A presence (95 §1). -/
abbrev presenceList : List Signal := [.low 480, .high 70, .low 120, .high 290]

/-- A read bit 0 and a read bit 1 as the reference bus captures them (95 §1). -/
abbrev zero : List Signal := [.low 24, .high 51]
/-- See `zero`. -/
abbrev one : List Signal := [.low 6, .high 69]

/-! ### Well-formedness -/

/-- The one check of WellFormed refuses a count of 256 in every constructor that has a count (30_encoding R101). -/
theorem test_wellFormed_refuses_256 :
    ¬ (Instr.encWrite 256).WellFormed ∧ ¬ (Instr.encWriteBytes 256).WellFormed ∧ ¬ (Instr.encRead 256).WellFormed ∧
    ¬ (Instr.decode 256).WellFormed ∧ ¬ (Instr.decodeBytes 256).WellFormed ∧ ¬ (Instr.writeBits true 256).WellFormed ∧
    ¬ (Instr.writeBytes false 256).WellFormed ∧ ¬ (Instr.readBits 256).WellFormed ∧
    ¬ (Instr.readBytes 256).WellFormed ∧ ¬ (Instr.crc8Bytes 256).WellFormed := by decide

/-! ### Codes written out from 30_encoding R100-R106, R115 and 43_rom R230 -/

/-- Codec commands: OP 0x01 to 0x05, COUNT in bits 23:16. -/
theorem test_decode_codec :
    decodeCmd 0b00000000_00001000_0000_00_0_0_00000001 = .ok (.encWrite 8) ∧
    decodeCmd 0b00000000_00000010_0000_00_0_0_00000010 = .ok (.encWriteBytes 2) ∧
    decodeCmd 0b00000000_00000010_0000_00_0_0_00000011 = .ok (.encRead 2) ∧
    decodeCmd 0b00000000_01000001_0000_00_0_0_00000100 = .ok (.decode 65) ∧
    decodeCmd 0b00000000_11111111_0000_00_0_0_00000101 = .ok (.decodeBytes 255) := by decide

/-- Link commands: OP 0x10 to 0x15 and 0x1F, PWR in bit 8. -/
theorem test_decode_link :
    decodeCmd 0b00000000_00000000_0000_00_0_0_00010000 = .ok .reset ∧
    decodeCmd 0b00000000_00001000_0000_00_0_1_00010001 = .ok (.writeBits true 8) ∧
    decodeCmd 0b00000000_00000010_0000_00_0_0_00010010 = .ok (.writeBytes false 2) ∧
    decodeCmd 0b00000000_00001000_0000_00_0_0_00010011 = .ok (.readBits 8) ∧
    decodeCmd 0b00000000_00000010_0000_00_0_0_00010100 = .ok (.readBytes 2) ∧
    decodeCmd 0b00000000_00000000_0000_00_0_1_00010101 = .ok (.setPower true) ∧
    decodeCmd 0b00000000_00000000_0000_00_0_0_00011111 = .ok .close := by decide

/-- CRC commands 0x20, 0x21 and ROM commands 0x30 to 0x32. -/
theorem test_decode_crc_and_rom :
    decodeCmd 0b00000000_00000000_0000_00_0_0_00100000 = .ok .crc8Id ∧
    decodeCmd 0b00000000_00001001_0000_00_0_0_00100001 = .ok (.crc8Bytes 9) ∧
    decodeCmd 0b00000000_00000000_0000_00_0_0_00110000 = .ok .select ∧
    decodeCmd 0b00000000_00000000_0000_00_0_0_00110001 = .ok .skip ∧
    decodeCmd 0b00000000_00000000_0000_00_0_0_00110010 = .ok .readRom := by decide

/-- Search commands: OP 0x40 with SMODE in bits 11:10 and ALM in bit 9, then 0x41 to 0x43. -/
theorem test_decode_search :
    decodeCmd 0b00000000_00000000_0000_00_1_0_01000000 = .ok (.searchStartPlain true) ∧
    decodeCmd 0b00000000_00000000_0000_01_1_0_01000000 = .ok (.searchStartFamily true) ∧
    decodeCmd 0b00000000_00000000_0000_10_0_0_01000000 = .ok .searchStartPing ∧
    decodeCmd 0b00000000_00000000_0000_00_0_0_01000001 = .ok .searchNext ∧
    decodeCmd 0b00000000_00000000_0000_00_0_0_01000010 = .ok .searchSkipFamily ∧
    decodeCmd 0b00000000_00000000_0000_00_0_0_01000011 = .ok .searchStop := by decide

/-- ROM bytes (43_rom R230), and a byte that is none. -/
theorem test_decode_rom_bytes :
    decodeRom 0b01010101 = .ok .romMatch ∧ decodeRom 0b11001100 = .ok .romSkip ∧
    decodeRom 0b11110000 = .ok .romSearch ∧ decodeRom 0b00110011 = .ok .romRead ∧
    decodeRom 0b11101100 = .ok .romSearchAlarm ∧ decodeRom 0x44 = .error .notRomByte := by decide

/-- Vectors X1 to X8: each illegal word is refused for its own reason, and X7 is legal. -/
theorem test_decode_rejects :
    decodeCmd 0x00000000 = .error .unassignedOp ∧ decodeCmd 0x00001010 = .error .reservedBits ∧
    decodeCmd 0x00010010 = .error .countUnused ∧ decodeCmd 0x00000101 = .error .powerUnused ∧
    decodeCmd 0x00000C40 = .error .searchMode ∧ decodeCmd 0x00000A40 = .error .searchMode ∧
    decodeCmd 0x00000640 = .ok (.searchStartFamily true) ∧ decodeCmd 0x01000013 = .error .reservedBits ∧
    decodeCmd 0x00000413 = .error .searchFieldUnused := by decide

/-- The encoder against the words that 95_test_vectors.md gives beside its commands. -/
theorem test_encode :
    encode (.encWrite 64) = .cmd 0x00400001 ∧ encode (.writeBits true 8) = .cmd 0x00080111 ∧
    encode (.setPower true) = .cmd 0x00000115 ∧ encode (.crc8Bytes 9) = .cmd 0x00090021 ∧
    encode (.searchStartPlain true) = .cmd 0x00000240 ∧ encode (.searchStartFamily false) = .cmd 0x00000440 ∧
    encode .searchStartPing = .cmd 0x00000840 ∧ encode .romSearchAlarm = .rom 0xEC := by decide

/-- The table's numbering: a one-byte row is a ROM byte, a four-byte row a command word. -/
theorem test_decodeTableWord :
    decodeTableWord 32 0x00000111 = some (.writeBits true 0) ∧ decodeTableWord 8 0xEC = some .romSearchAlarm ∧
    decodeTableWord 32 0x55 = none := by decide

/-! ### Behaviours from the vectors of 95_test_vectors.md -/

/-- The block after reset reads STATUS = 0x0040 and SRCH0 = 0x00FFFFFF (vector H1). -/
theorem test_reset_words : statusWord State.reset = 0x0040 ∧ srch0Word State.reset = 0x00FFFFFF := by decide

/-- A placed word is what the next step runs, from reset: CLOSE gives STATUS 0x0060 (vector L28). -/
theorem test_withFetchWord_runs :
    nextIs (step (State.reset.withFetchWord 32 0x1F)) (fun t => statusWord t == 0x0060) = true ∧
    nextIs (step (State.reset.withFetchWord 8 0xCC)) (fun t => t.wait.isSome && t.busy) = true := by decide

/-- S1: ENC_WRITE 8 of 0xDA; the third signal of the list is the low of bit 1, which is 1. -/
theorem test_encWrite :
    nextIs (exec (.encWrite 8) { State.reset with data := 0xDA }) (fun t => t.sigLen == 16 &&
      (t.sigbuf.map fun e => e.2.period) == [60, 10, 6, 64, 60, 10, 6, 64, 6, 64, 60, 10, 6, 64, 6, 64]) = true := by decide

/-- E5: ENC_WRITE 65 ends with INVALID_ARGUMENT, STATUS 0x0642. -/
theorem test_encWrite_65 : nextIs (exec (.encWrite 65) State.reset) (fun t => statusWord t == 0x0642) = true := by decide

/-- E6: ENC_WRITE_BYTES 2 of 0x55, 0xCC: the lows of the second byte. -/
theorem test_encWriteBytes :
    nextIs (exec (.encWriteBytes 2) (withBytes [0x55, 0xCC] State.reset)) (fun t => t.sigLen == 32 &&
      ((List.range 8).map fun k => bufRead (16 + 2 * k) t.sigbuf) ==
        [60, 60, 6, 6, 60, 60, 6, 6].map fun p => some (.low p)) = true := by decide

/-- E7: ENC_READ 2. -/
theorem test_encRead :
    nextIs (exec (.encRead 2) State.reset) (fun t => t.sigbuf.map (·.2) == one ++ one && t.sigLen == 4) = true := by decide

/-- D2 and D3: a low of 13 is a 1, a low of 14 a 0. -/
theorem test_decode_threshold :
    nextIs (exec (.decode 1) (withSignals [.low 13, .high 0] State.reset)) (fun t => t.data == 1) = true ∧
    nextIs (exec (.decode 1) { withSignals [.low 14, .high 56] State.reset with data := 7 }) (fun t => t.data == 0) = true := by
  decide

/-- D9 and D11: with n = 0 the range is still checked, the levels are not. -/
theorem test_decode_zero :
    nextIs (exec (.decode 0) { State.reset with sigLen := 16, arg := 17, data := 7 })
      (fun t => statusWord t == 0x0542 && t.data == 7) = true ∧
    nextIs (exec (.decode 0) { State.reset with sigLen := 16, arg := 3, data := 7 })
      (fun t => statusWord t == 0x0040 && t.data == 0) = true := by decide

/-- D16: DECODE_BYTES 1 at ARG = 1 reads the second byte. -/
theorem test_decodeBytes :
    nextIs (exec (.decodeBytes 1) { withSignals (encodeWrite 0xD8 8 ++ encodeWrite 0xDA 8) State.reset with arg := 1 })
      (fun t => bufRead 0 t.databuf == some 0xDA) = true := by decide

/-- L1 and L2: RESET on the presence of the reference bus, and on one whose first low is 477. -/
theorem test_reset_presence :
    nextIs (exec .reset (at0 [cap presenceList])) (fun t => statusWord t == 0x0044 && t.idleThr == 75) = true ∧
    nextIs (exec .reset (at0 [cap [.low 477, .high 70, .low 120]])) (fun t => statusWord t == 0x0040) = true := by decide

/-- L11 and L12: Timeout is no presence; Error is TRANSPORT, RES unchanged. -/
theorem test_reset_timeout_and_error :
    nextIs (exec .reset (at0 [.port (.txRx .timeout)])) (fun t => statusWord t == 0x0040) = true ∧
    nextIs (exec .reset { at0 [.port (.txRx .error)] with res := true })
      (fun t => statusWord t == 0x0746 && t.idleThr == 75) = true := by decide

/-- L13: WRITE_BITS.P 8 of 0x44: STATUS 0x0000 and the lows of its one event. -/
theorem test_writeBits_power :
    nextIs (exec (.writeBits true 8) { at0 [sent] with data := 0x44 }) (fun t => statusWord t == 0 &&
      t.history == [.tx [.low 60, .high 10, .low 60, .high 10, .low 6, .high 64, .low 60, .high 10, .low 60, .high 10,
        .low 60, .high 10, .low 6, .high 64, .low 60, .high 10] false .ok]) = true := by decide

/-- L16 and L17: one event per byte; an Error on the first ends it there. -/
theorem test_writeBytes :
    nextIs (exec (.writeBytes false 2) (withBytes [0xCC, 0x44] (at0 [sent, sent]))) (fun t =>
      t.history.length == 2 && statusWord t == 0x0040) = true ∧
    nextIs (exec (.writeBytes false 2) (withBytes [0xCC, 0x44] (at0 [.port (.tx .error), sent]))) (fun t =>
      t.history.length == 1 && statusWord t == 0x0742 && t.inputs.length == 1) = true := by decide

/-- L19 and L20: READ_BITS ignores a third pair; a list of one signal is INVALID_SIGNAL. -/
theorem test_readBits :
    nextIs (exec (.readBits 2) (at0 [cap (one ++ zero ++ one)])) (fun t => t.data == 1) = true ∧
    nextIs (exec (.readBits 1) { at0 [cap [.low 6]] with data := 5, openDrain := false })
      (fun t => statusWord t == 0x0542 && t.data == 5) = true := by decide

/-- L24: READ_BYTES 2 reads both bytes from one capture. -/
theorem test_readBytes :
    nextIs (exec (.readBytes 2) (at0 [cap (encodeWrite 0x28 8 ++ encodeWrite 0x01 8)])) (fun t =>
      bufRead 0 t.databuf == some 0x28 && bufRead 1 t.databuf == some 0x01 && t.history.length == 1) = true := by decide

/-- L26: SET_POWER ON clears OD. -/
theorem test_setPower : nextIs (exec (.setPower true) State.reset) (fun t => statusWord t == 0) = true := by decide

/-- L28: CLOSE appends one event, a second CLOSE none, and RESET is then refused with STATUS 0x0162. -/
theorem test_close :
    nextIs (exec .close (closed0 [])) (fun t => t.history == [] && statusWord t == 0x0060) = true ∧
    nextIs (exec .reset (closed0 [])) (fun t => statusWord t == 0x0162) = true := by decide

/-- C3: the CRC of the AND of the S4 IDs is 0 and RES = 0. -/
theorem test_crc8Id :
    nextIs (exec .crc8Id { State.reset with data := 0x1000000000000000 }) (fun t => t.crc == 0 && !t.res) = true ∧
    nextIs (exec .crc8Id { State.reset with data := 0x51000000FF2A5A28 }) (fun t => t.crc == 0x51 && t.res) = true := by
  decide +kernel

/-- C8: the CRC of [0x01, 0x00]. -/
theorem test_crc8Bytes :
    nextIs (exec (.crc8Bytes 2) (withBytes [0x01, 0x00] State.reset)) (fun t => t.crc == 0xC4) = true := by
  decide +kernel

/-- R2 and R5: SELECT and SKIP on an empty bus end with STATUS 0x0242 after one event. -/
theorem test_select_and_skip_no_device :
    nextIs (exec .select (at0 [cap [.low 480, .high 480]])) (fun t => statusWord t == 0x0242 && t.history.length == 1) = true ∧
    nextIs (exec .skip (at0 [cap [.low 480, .high 480]])) (fun t => statusWord t == 0x0242 && t.history.length == 1) = true := by
  decide

/-- F8 and F11: a search on an empty bus ends after one event, STATUS 0x0040. -/
theorem test_search_empty :
    nextIs (exec (.searchStartPlain false) (at0 [cap [.low 480, .high 480]])) (fun t => statusWord t == 0x0040) = true ∧
    nextIs (exec .searchStartPing (at0 [cap [.low 480, .high 480]])) (fun t => srch0Word t == 0x0040FFFF) = true := by decide

/-- F7 and F17: (1,1) at position 0 ends an alarm search after 4 events and fails a plain one with STATUS 0x0342. -/
theorem test_search_no_response :
    nextIs (exec (.searchStartPlain true) (at0 [cap presenceList, sent, cap one, cap one]))
      (fun t => statusWord t == 0x0040 && t.history.length == 4) = true ∧
    nextIs (exec (.searchStartPlain false) (at0 [cap presenceList, sent, cap one, cap one]))
      (fun t => statusWord t == 0x0342) = true := by decide

/-- F12: SEARCH_STOP ends a search that waits, RES kept; with none it is refused. -/
theorem test_searchStop :
    nextIs (exec .searchStop { yield0 [] with res := true }) (fun t => statusWord t == 0x0044) = true ∧
    nextIs (exec .searchStop { at0 [] with res := true }) (fun t => statusWord t == 0x0846) = true := by decide

/-- F13: SEARCH_START while a search waits is refused, STATUS 0x085E. -/
theorem test_searchStart_refused :
    nextIs (exec (.searchStartFamily false) { yield0 [] with res := true }) (fun t => statusWord t == 0x085E) = true := by
  decide

/-- F1, its fourth row: SEARCH_NEXT with lub = -1 completes with STATUS 0x0040 and no event. -/
theorem test_searchNext_complete :
    nextIs (exec .searchNext { yield0 [] with res := true }) (fun t => statusWord t == 0x0040 && t.history == []) = true ∧
    nextIs (exec .searchSkipFamily { yield0 [] with lub := 32 }) (fun t => srch0Word t == 0x00FFFFFF) = true := by decide

/-- A ROM byte by its own row: MATCH is 0x55, bit 0 first (43_rom R230). -/
theorem test_romMatch :
    nextIs (exec .romMatch (at0 [sent])) (fun t => t.history == [.tx [.low 6, .high 64, .low 60, .high 10, .low 6, .high 64,
      .low 60, .high 10, .low 6, .high 64, .low 60, .high 10, .low 6, .high 64, .low 60, .high 10] true .ok]) = true := by decide

/-- The constants of R140 that are sums or are used elsewhere than in a slot, and the comparisons of R141. -/
theorem test_constants :
    resetHighBeforeSample = 70 ∧ resetHighAfterSample = 410 ∧ resetHigh = 480 ∧ readHighAfterSample = 55 ∧ readHigh = 69 ∧
    readLow + readHigh = 75 ∧ idleThreshold = 75 ∧ write0Low < idleThreshold ∧ resetLow < resetIdleThreshold ∧
    signalsPerBit = 2 := by decide

/-! ### States and operands that meet the hypotheses of each obligation -/

theorem test_witness_encoding :
    (Instr.encWrite 255).WellFormed ∧ (Instr.crc8Bytes 0).WellFormed ∧
    decodeCode (.cmd 0x00FF0001) = .ok (.encWrite 255) ∧ decodeCode (.rom 0x33) = .ok .romRead ∧
    ((0x00000011, 0xFF00FEFF) ∈ commandRows ∧ (0x00FF0111 : Word) &&& 0xFF00FEFF = 0x00000011) := by decide

/-- Each line of R105 on its own, at a boundary of its field, and two words that are not illegal. -/
theorem test_witness_illegalWord :
    Quiet (at0 [.write 0 4 0x1010]) ∧ (at0 [.write 0 4 0x1010]).inputs = .write State.reset.cfg.owcBase 4 0x1010 :: [] ∧
    illegal 0x1010 ∧ illegal 0x8010 ∧ illegal 0x01000013 ∧ illegal 0x80000013 ∧ illegal 0x00 ∧ illegal 0x44 ∧
    illegal 0xFF ∧ illegal 0x0101 ∧ illegal 0x0201 ∧ illegal 0x0441 ∧ illegal 0x00010010 ∧ illegal 0x00FF0010 ∧
    illegal 0x0C40 ∧ illegal 0x0A40 ∧ ¬ illegal 0x00FF0111 ∧ ¬ illegal 0x0840 := by
  simp only [illegal]
  and_intros <;> decide

theorem test_witness_step :
    (at0 [.write 0 4 0x1F]).busy = false ∧ (at0 [.write 0 4 0x1F]).inputs = .write State.reset.cfg.owcBase 4 0x1F :: [] ∧
    decodeCmd 0x1F = .ok .close ∧ (at0 [.rom 0xCC]).inputs = .rom 0xCC :: [] ∧ decodeRom 0xCC = .ok .romSkip ∧
    (at0 []).inputs = [] := by decide

theorem test_witness_busyWrite :
    (busy0 [.write 0x1FFC 4 1]).busy = true ∧ (busy0 [.write 0x1FFC 4 1]).inputs = .write (0 + 0x1FFC) 4 1 :: [] ∧
    (0x1FFC < 0x2000 ∧ 0x1FFC % 4 = 0) ∧ (busy0 [.write 0 4 0x10]).inputs = .write (0 + 0) 4 0x10 :: [] ∧
    (busy0 []).Inv := by decide

/-- Each clause on its own, at the edges of the block, with the block at 0x4000. -/
theorem test_witness_badAccess :
    let c : Config := { Config.default with owcBase := 0x4000 }
    faultIs (step { at0 [.read 0x4000 2] with cfg := c }) .accessWidth = true ∧
    faultIs (step { at0 [.write 0x4000 8 0] with cfg := c }) .accessWidth = true ∧
    faultIs (step { at0 [.read 0x3FFC 4] with cfg := c }) .outsideBlock = true ∧
    faultIs (step { at0 [.write 0x6000 4 0] with cfg := c }) .outsideBlock = true ∧
    faultIs (step { busy0 [.read 0x4001 4] with cfg := c }) .accessMisaligned = true ∧
    faultIs (step { at0 [.write 0x5FFF 4 0] with cfg := c }) .accessMisaligned = true ∧
    ((0x6000 < 0x4000 ∨ 0x4000 + 0x2000 ≤ 0x6000) ∧ (0x5FFF - 0x4000) % 4 ≠ 0) := by decide

theorem test_witness_statusRead :
    (busy0 [.read 4 4]).inputs = .read ((busy0 []).cfg.owcBase + 4) 4 :: [] ∧
    nextIs (step (busy0 [.read 4 4])) (fun t => t.rdata == 0x41) = true := by decide

/-- The first and the last of the single registers, and each buffer's first and last word. -/
theorem test_witness_reads :
    Config.default.wf ∧ (0x000, 0) ∈ registerReads (at0 []) ∧ (0x030, 1024 + 65536 * 64) ∈ registerReads (at0 []) ∧
    nextIs (step (at0 [.read 0x030 4])) (fun t => t.rdata == 0x00400400) = true ∧
    bufRead 0 (withSignals zero (at0 [])).sigbuf = some (.low 24) ∧
    nextIs (step (withSignals zero (at0 [.read 0x1004 4]))) (fun t => t.rdata == 0x00010033) = true ∧
    faultIs (step (at0 [.read 0x1FFC 4])) (.sigbufNoValue 1023) = true ∧
    nextIs (step (withBytes [1, 2, 3, 4] (at0 [.read 0x100 4]))) (fun t => t.rdata == 0x04030201) = true ∧
    faultIs (step (withBytes [1, 2, 3] (at0 [.read 0x100 4]))) (.databufNoValue 3) = true ∧
    faultIs (step (at0 [.read 0x13C 4])) (.databufNoValue 60) = true := by decide

/-- The reserved offsets, at the edges of each of their ranges. -/
theorem test_witness_reserved :
    let c : Config := { Config.default with sigbufEntries := 2 }
    reservedOffset c 0x034 ∧ reservedOffset c 0x0FC ∧ reservedOffset c 0x140 ∧ reservedOffset c 0xFFC ∧
    reservedOffset c 0x1008 ∧ reservedOffset c 0x1FFC ∧
    nextIs (step { at0 [.read 0x1008 4] with cfg := c, rdata := 5 }) (fun t => t.rdata == 0) = true := by
  unfold reservedOffset
  decide

/-- CMD and the last SIGBUF entry, which has no value, and the reserved offsets at the edge of DATABUF and of SIGBUF. -/
theorem test_witness_busyRead :
    let c : Config := { Config.default with sigbufEntries := 2 }
    (busy0 [.read 0 4]).busy = true ∧ (busy0 []).cfg.wf ∧ c.wf ∧ (0x1FFC < 0x2000 ∧ 0x1FFC % 4 = 0) ∧
    ¬ reservedOffset Config.default 0 ∧ ¬ reservedOffset Config.default 0x1FFC ∧ ¬ reservedOffset Config.default 0x13C ∧
    reservedOffset Config.default 0x140 ∧ ¬ reservedOffset c 0x1004 ∧ reservedOffset c 0x1008 ∧
    (busy0 [.read 0 4]).inputs = .read ((busy0 []).cfg.owcBase + 0) 4 :: [] ∧
    nextIs (step (busy0 [.read 0x1FFC 4])) (fun t => t.draws == 1) = true ∧
    nextIs (step { busy0 [.read 0x140 4] with rdata := 5 }) (fun t => t.rdata == 0 && t.draws == 0) = true := by
  unfold reservedOffset
  decide +kernel

/-- Each register a write changes, the ends of the read-only ones, a reserved offset. -/
theorem test_witness_registerWrites :
    nextIs (step (at0 [.write 0x008 4 0xFFFFFFFF])) (fun t => t.data == 0x00000000FFFFFFFF) = true ∧
    nextIs (step (at0 [.write 0x00C 4 0x80000001])) (fun t => t.data == 0x8000000100000000) = true ∧
    nextIs (step (at0 [.write 0x010 4 0x1FFFF])) (fun t => t.arg == 0xFFFF) = true ∧
    nextIs (step (at0 [.write 0x014 4 0x10000])) (fun t => t.sigLen == 0) = true ∧
    readOnlyOffset 0x004 ∧ readOnlyOffset 0x030 ∧
    nextIs (step (at0 [.write 0x018 4 1])) (fun t => t == at0 []) = true ∧
    nextIs (step (at0 [.write 0x140 4 1])) (fun t => t == at0 []) = true := by
  unfold readOnlyOffset
  decide

/-- The last entry of each buffer. -/
theorem test_witness_bufferWrites :
    nextIs (step (at0 [.write 0x1FFC 4 0xFFFF0007])) (fun t => bufRead 1023 t.sigbuf == some (.high 7)) = true ∧
    nextIs (step (at0 [.write 0x13C 4 0x04030201])) (fun t => bufRead 63 t.databuf == some 4 &&
      bufRead 60 t.databuf == some 1) = true := by decide

theorem test_witness_hardReset :
    (busy0 [.hardReset]).inputs = .hardReset :: [] ∧
    nextIs (step (busy0 [.hardReset, sent])) (fun t => t == at0 [sent]) = true := by decide

/-- The least and the largest parameters, and the states after reset, after CLOSE, while a search waits, and while a
transaction is outstanding. -/
theorem test_witness_invariant :
    Config.default.wf ∧ ({ Config.default with sigbufEntries := 2, databufBytes := 8 } : Config).wf ∧
    ({ Config.default with databufBytes := 256 } : Config).wf ∧ State.reset.Inv ∧ (closed0 []).Inv ∧ (yield0 []).Inv ∧
    (busy0 [sent]).Inv ∧ nextIs (step (busy0 [sent])) (fun t => !t.busy) = true := by
  and_intros <;> decide

theorem test_witness_searchStateCheck :
    Quiet (yield0 []) ∧ (yield0 []).sact = true ∧ Quiet (at0 []) ∧ (at0 []).idrdy = false := by decide

theorem test_witness_closedLink :
    Quiet (closed0 []) ∧ (closed0 []).closed = true ∧ needsOpen (.readBits 65) = true ∧
    searchRefuses (.readBits 65) (closed0 []) = false ∧ searchRefuses (.searchStartPlain true) (closed0 []) = false ∧
    needsOpen .close = false ∧ isRomByte .close = false ∧ nextIs (exec .close (closed0 [])) (fun t => t.ecode == .none) = true := by decide

/-- One count past each command's range: 65 bits, 65 bytes, 513 slots (by a smaller buffer), SIG_LEN 1025. -/
theorem test_witness_countOutOfRange :
    countRefuses (.encWrite 65) (at0 []) = true ∧ countRefuses (.encWriteBytes 65) (at0 []) = true ∧
    countRefuses (.encRead 2) { at0 [] with cfg := { Config.default with sigbufEntries := 2 } } = true ∧
    countRefuses (.decode 65) (at0 []) = true ∧ countRefuses (.decodeBytes 0) { at0 [] with sigLen := 1025 } = true ∧
    countRefuses (.writeBits false 65) (at0 []) = true ∧ countRefuses (.readBytes 65) (at0 []) = true ∧
    countRefuses (.crc8Bytes 65) (closed0 []) = true ∧ (needsOpen (.readBytes 65) = true → (at0 []).closed = false) ∧
    searchRefuses (.readBytes 65) (at0 []) = false := by decide

theorem test_witness_transportError :
    (busy0 [.port (.tx .error)]).wait = some (.tx [.low 60, .high 10] true .done) ∧
    nextIs (step (busy0 [.port (.tx .error)])) (fun t => statusWord t == 0x0742) = true ∧
    nextIs (exec (.searchStartPlain false) (at0 [cap presenceList, sent])) (fun t =>
      waitIs Wait.inPass t && nextIs (step { t with inputs := [.port (.txRx .error)] })
        fun u => statusWord u == 0x0742) = true := by decide

/-- A command that fails at once, and one that fails on the answer it waits for. -/
theorem test_witness_failingCommand :
    nextIs (exec (.readBits 1) (at0 [cap []])) (fun t => t.err) = true ∧
    nextIs (exec (.encWrite 65) (at0 [])) (fun t => t.err) = true ∧
    nextIs (exec .readRom { at0 [cap presenceList, sent] with data := 7 }) (fun u =>
      !u.err && nextIs (step { u with inputs := [cap []] }) fun t => t.err && t.data == 7) = true := by decide

/-- RES = 1 before a RESET that fails, before an answer to a WRITE_BITS, and before the (1,1) that ends a pass late. -/
theorem test_witness_res :
    ¬ writesRes .searchStop ∧ ¬ writesRes (.writeBits true 8) ∧
    nextIs (exec .reset { at0 [.port (.txRx .error)] with res := true }) (fun t => t.err && t.res) = true ∧
    (busy0 [sent]).inputs = .port (.tx .ok) :: [] ∧ waitIs Wait.inPass (busy0 [sent]) = false ∧
    nextIs (exec (.searchStartPlain false) { at0 [cap presenceList, sent, cap one] with res := true }) (fun u =>
      !u.err && nextIs (step { u with inputs := [cap one] }) fun t => t.ecode == .busError && t.res) = true := by
  refine ⟨id, id, ?_⟩
  decide

theorem test_witness_closed_and_history :
    (closed0 [.write 0 4 0x10]).closed = true ∧ (closed0 [.write 0 4 0x10]).inputs.head? ≠ some .hardReset ∧
    nextIs (step (closed0 [.write 0 4 0x10])) (fun t => t.closed) = true ∧
    nextIs (step (at0 [.write 0 4 0x1F])) (fun t => t.history == [.close]) = true := by decide

/-- The first answer of READ_BITS, and the third of READ_ROM. -/
theorem test_witness_lateAnswer :
    nextIs (exec (.readBits 1) (at0 [])) (fun u => u.busy && nextIs (exec (.readBits 1) (at0 [cap one])) fun v =>
      v.inputs == [] && nextIs (step { u with inputs := [cap one] }) fun w => w == v) = true ∧
    nextIs (exec .readRom (at0 [cap presenceList, sent])) (fun u => u.busy && u.inputs == [] &&
      nextIs (exec .readRom (at0 [cap presenceList, sent, cap [], sent])) fun v =>
        v.inputs == [sent] && nextIs (step { u with inputs := [cap [], sent] }) fun w => w == v) = true := by decide

theorem test_witness_codecCommands :
    Quiet (at0 []) ∧ 2 * 64 ≤ (at0 []).cfg.sigbufEntries ∧ (64 ≤ (at0 []).cfg.databufBytes ∧ 16 * 64 ≤ 1024) ∧
    (∀ k, k < 2 → bufRead k (withBytes [0x55, 0xCC] (at0 [])).databuf = [(0x55 : Byte), 0xCC][k]?) ∧
    faultIs (exec (.encWriteBytes 3) (withBytes [0x55, 0xCC] (at0 []))) (.databufNoValue 2) = true := by decide

/-- DECODE: pairs at ARG = 2 up to the end of the list; each way it is refused or faults. -/
theorem test_witness_decode :
    let s := { withSignals (one ++ zero) (at0 []) with arg := 2 }
    Quiet s ∧ s.sigLen.toNat ≤ s.cfg.sigbufEntries ∧ s.arg.toNat + 2 * 1 ≤ s.sigLen.toNat ∧
    bufRead 2 s.sigbuf = some (.low 24) ∧ bufRead 3 s.sigbuf = some (.high 51) ∧
    nextIs (exec (.decode 1) s) (fun t => t.data == 0) = true ∧
    s.sigLen.toNat < s.arg.toNat + 2 * 2 ∧ nextIs (exec (.decode 2) s) (fun t => t.ecode == .invalidSignal) = true ∧
    nextIs (exec (.decode 1) { s with arg := 1 }) (fun t => t.ecode == .invalidSignal) = true ∧
    nextIs (exec (.decode 1) { withSignals [.low 6, .low 69] (at0 []) with arg := 0 })
      (fun t => t.ecode == .invalidSignal) = true ∧
    faultIs (exec (.decode 2) { withSignals (one ++ [.low 24]) (at0 []) with sigLen := 4 }) (.sigbufNoValue 3) = true := by
  decide

/-- DECODE_BYTES: the second byte of two, none at all, and each way it is refused or faults. -/
theorem test_witness_decodeBytes :
    let l := encodeWrite 0xD8 8 ++ encodeWrite 0xDA 8
    let s := { withSignals l (at0 []) with arg := 1 }
    Quiet s ∧ (1 ≤ s.cfg.databufBytes ∧ s.sigLen.toNat ≤ s.cfg.sigbufEntries ∧ 16 * (s.arg.toNat + 1) ≤ s.sigLen.toNat) ∧
    nextIs (exec (.decodeBytes 1) s) (fun t => t.databuf == [(0, 0xDA)]) = true ∧
    nextIs (exec (.decodeBytes 0) { s with arg := 7 }) (fun t => t.databuf == []) = true ∧
    nextIs (exec (.decodeBytes 2) s) (fun t => t.ecode == .invalidSignal) = true ∧
    nextIs (exec (.decodeBytes 1) (withSignals ([.high 1] ++ l) (at0 []))) (fun t => t.ecode == .invalidSignal) = true ∧
    faultIs (exec (.decodeBytes 2) { withSignals (encodeWrite 0xD8 8) (at0 []) with sigLen := 32 })
      (.sigbufNoValue 16) = true := by decide

theorem test_witness_resetPresence :
    Quiet (at0 [cap presenceList]) ∧ (at0 [cap presenceList]).closed = false ∧
    (at0 [cap presenceList]).inputs = .port (.txRx (.captured presenceList)) :: [] ∧
    showsPresence (.captured presenceList) ∧ showsPresence (.captured [.low 478, .high 1, .low 1]) ∧
    showsPresence (.captured [.low 490, .high 1, .low 1]) ∧ showsNone .timeout ∧ showsNone (.captured []) ∧
    showsNone (.captured [.low 477, .high 70, .low 120]) ∧ showsNone (.captured [.low 491, .high 70, .low 120]) := by
  refine ⟨by decide, rfl, rfl, ⟨_, rfl, _, _, _, _, rfl, by decide⟩, ⟨_, rfl, _, _, _, _, rfl, by decide⟩,
    ⟨_, rfl, _, _, _, _, rfl, by decide⟩, .inl rfl, .inr ⟨_, rfl, ?_⟩, .inr ⟨_, rfl, ?_⟩, .inr ⟨_, rfl, ?_⟩⟩
  · rintro ⟨_, _, _, _, h, -⟩
    cases h
  · rintro ⟨_, _, _, _, h, -, h2, -⟩
    cases h
    exact absurd h2 (by decide)
  · rintro ⟨_, _, _, _, h, -, -, h3, -⟩
    cases h
    exact absurd h3 (by decide)

/-- The link writes: 64 bits, none, two bytes, a byte without a value. -/
theorem test_witness_linkWrites :
    Quiet (at0 [sent]) ∧ (at0 [sent]).inputs = .port (.tx .ok) :: [] ∧ (0 < 64 ∧ 64 ≤ 64) ∧
    nextIs (exec (.writeBits true 64) (at0 [sent])) (fun t => !t.busy && t.inputs == []) = true ∧
    nextIs (exec (.writeBits true 0) (at0 [sent])) (fun t => !t.busy && t.inputs == [sent]) = true ∧
    (at0 [sent, sent]).inputs = List.replicate 2 (.port (.tx .ok)) ++ [] ∧
    faultIs (exec (.writeBytes false 3) (withBytes [0xCC, 0x44] (at0 []))) (.databufNoValue 2) = true ∧
    ((withBytes [0x44] { at0 [sent] with data := 0x1144 }).data.setWidth 8 = (0x44 : Byte) ∧
      bufRead 0 (withBytes [0x44] (at0 [])).databuf = some (0x44 : Byte)) := by decide

/-- The link reads: two slots, none, and each way a capture is refused, READ_ROM's and a pass's among them. -/
theorem test_witness_linkReads :
    (∀ k, k < 2 → (one ++ one)[2 * k]? = some (Signal.low 6) ∧ (one ++ one)[2 * k + 1]? = some (Signal.high 69)) ∧
    nextIs (exec (.readBits 2) (at0 [cap (one ++ one)])) (fun t => t.data == 3) = true ∧
    nextIs (exec (.readBits 0) { at0 [] with data := 3 }) (fun t => t.data == 0) = true ∧
    (one ++ [Signal.low 6]).length < 2 * 2 ∧
    nextIs (exec (.readBits 2) (at0 [cap (one ++ [.low 6])])) (fun t => t.ecode == .invalidSignal) = true ∧
    nextIs (exec (.readBits 1) (at0 [cap [.low 6, .low 6]])) (fun t => t.ecode == .invalidSignal) = true ∧
    nextIs (exec (.readBytes 1) (at0 [cap ([.high 6] ++ encodeRead 8)])) (fun t => t.ecode == .invalidSignal) = true ∧
    nextIs (exec (.readBytes 0) { at0 [] with openDrain := false }) (fun t => t.openDrain) = true ∧
    nextIs (exec .readRom (at0 [.port (.txRx .timeout), sent, cap one])) (fun t => t.ecode == .invalidSignal) = true ∧
    nextIs (exec .searchNext { yield0 [cap presenceList, sent, cap zero, cap [.high 6]] with lub := 5 })
      (fun t => t.ecode == .invalidSignal && !t.sact && t.plub == 5) = true := by decide

/-- A list too short for one bit, and lists with a wrong low and a wrong high. -/
theorem test_witness_undecodable :
    undecodable [] 1 ∧ undecodable [.low 6] 1 ∧ undecodable [.high 6, .high 69] 1 ∧ undecodable [.low 6, .low 69] 1 ∧
    undecodable one 64 :=
  ⟨.inl (by decide), .inl (by decide), .inr ⟨0, _, by decide, .inl ⟨rfl, rfl⟩⟩, .inr ⟨0, _, by decide, .inr ⟨rfl, rfl⟩⟩,
    .inl (by decide)⟩

theorem test_witness_powerAndClose :
    Quiet (at0 []) ∧ (at0 []).closed = false ∧ Quiet (closed0 []) ∧ (closed0 []).closed = true := by decide

theorem test_witness_crc8Bytes :
    Quiet (withBytes [1, 2] (at0 [])) ∧ 3 ≤ (at0 []).cfg.databufBytes ∧
    (∀ k, k < 2 → bufRead k (withBytes [1, 2] (at0 [])).databuf = [(1 : Byte), 2][k]?) ∧
    bufRead 2 (withBytes [1, 2] (at0 [])).databuf = none ∧
    faultIs (exec (.crc8Bytes 3) (withBytes [1, 2] (at0 []))) (.databufNoValue 2) = true := by decide

theorem test_witness_crc :
    [(1 : Byte), 2].length = [(3 : Byte), 4].length ∧
    crc8Id 0x2E0000028FAD4928 = (0x2E0000028FAD4928 : Long).extractLsb' 56 8 := by decide +kernel

theorem test_witness_romCommands :
    present presenceList ∧ Quiet (at0 [cap presenceList, sent, sent]) ∧
    nextIs (exec .select (at0 [cap presenceList, sent, sent])) (fun t => !t.busy && t.history.length == 3) = true ∧
    nextIs (exec .skip (at0 [cap presenceList, sent])) (fun t => !t.busy && t.history.length == 2) = true ∧
    nextIs (exec .skip (at0 [.port (.txRx .timeout)])) (fun t => t.ecode == .noDevice) = true ∧
    (∀ k, k < 64 → (encodeRead 64)[2 * k]? = some (.low 6) ∧ (encodeRead 64)[2 * k + 1]? = some (.high 69)) ∧
    nextIs (exec .romRead (at0 [sent])) (fun t => !t.busy) = true ∧
    nextIs (exec .romRead (closed0 [sent])) (fun t => t.ecode == .busClosed && t.inputs == [sent]) = true ∧
    faultIs (exec .romRead (busy0 [sent])) .writeWhileBusy = true := by
  refine ⟨⟨_, _, _, _, rfl, by decide⟩, ?_⟩
  decide +kernel

/-- READ_ROM after a Timeout, every bit 1 (vector R8). -/
theorem test_witness_readRom :
    nextIs (exec .readRom (at0 [.port (.txRx .timeout), sent, cap (encodeRead 64)]))
      (fun t => t.data == 0xFFFFFFFFFFFFFFFF && !t.err) = true := by decide +kernel

/-- A bus of one device whose ID is 0: no collision, and a valid CRC. -/
theorem test_witness_pass :
    present presenceList ∧ busAnswers (fun _ => zero) (fun _ => one) (fun _ => false) (fun _ => true) 64 ∧
    isChosen 0 (-1) 0 (fun _ => false) (fun _ => true) ∧ isChosen 0 8 0 (fun _ => false) (fun _ => true) ∧
    isChosen 0 64 0 (fun _ => false) (fun _ => true) ∧ crc8Id 0 = (0 : Long).extractLsb' 56 8 := by
  refine ⟨⟨_, _, _, _, rfl, by decide⟩, fun p _ => ⟨⟨_, _, _, rfl, rfl, rfl, rfl⟩, ⟨_, _, _, rfl, rfl, rfl, rfl⟩, by simp⟩,
    fun p _ => by simp [choice], fun p _ => by simp [choice], fun p _ => by simp [choice], by decide +kernel⟩

/-- Each of the five instructions starts a pass: the three from a block at rest, the two answers where a branch waits. -/
theorem test_witness_startsPass :
    (∃ u, startsPass (.searchStartPlain true) (at0 []) u ∧ u.plub = -1 ∧ u.salm = true) ∧
    (∃ u, startsPass (.searchStartFamily true) { at0 [] with data := 0xFF01 } u ∧ u.plub = 8 ∧ u.sid = 1) ∧
    (∃ u, startsPass .searchStartPing { at0 [] with data := 5 } u ∧ u.plub = 64 ∧ u.sid = 5 ∧ u.salm = false) ∧
    (∃ u, startsPass .searchNext { yield0 [] with lub := 63 } u ∧ u.plub = 63 ∧ u.lub = -1) ∧
    (∃ u, startsPass .searchSkipFamily { yield0 [] with lufb := 0 } u ∧ u.plub = 0) :=
  ⟨⟨_, ⟨rfl, rfl⟩, rfl, rfl⟩, ⟨_, ⟨rfl, 1, 1, by decide, by decide, rfl⟩, rfl, rfl⟩, ⟨_, ⟨rfl, rfl⟩, rfl, rfl, rfl⟩,
    ⟨_, ⟨rfl, by decide, rfl⟩, rfl, rfl⟩, ⟨_, ⟨rfl, by decide, rfl⟩, rfl⟩⟩

/-- A bus of one device whose ID is 1: bit 0 read as 1 and no CRC, so CRC_ERROR, in a plain search, and in a family
search of family 1, in a ping, and after SEARCH_NEXT. -/
theorem test_witness_badCrc :
    busAnswers (fun p => if p = 0 then one else zero) (fun p => if p = 0 then zero else one) (fun p => decide (p = 0))
      (fun p => decide (p ≠ 0)) 64 ∧
    (isChosen 1 (-1) 0 (fun p => decide (p = 0)) (fun p => decide (p ≠ 0)) ∧
      isChosen 1 8 1 (fun p => decide (p = 0)) (fun p => decide (p ≠ 0)) ∧
      isChosen 1 64 5 (fun p => decide (p = 0)) (fun p => decide (p ≠ 0))) ∧
    crc8Id 1 ≠ (1 : Long).extractLsb' 56 8 ∧
    (let l := cap presenceList :: sent :: passAnswers (fun p => if p = 0 then one else zero)
      (fun p => if p = 0 then zero else one) 64
    nextIs (exec .searchStartPing { at0 l with data := 5 }) (fun t => t.ecode == .crcError && t.sid == 5) = true ∧
    nextIs (exec .searchNext { yield0 l with lub := 5 }) (fun t => t.ecode == .crcError && !t.sact) = true) := by
  have bits : ∀ (q : Int) (sid : Long), isChosen 1 q sid (fun p => decide (p = 0)) (fun p => decide (p ≠ 0)) := by
    intro q sid p hp
    have h : ∀ k < 64, (1 : Long).getLsbD k = decide (k = 0) := by decide
    rw [h p hp]
    by_cases h0 : p = 0 <;> simp [choice, h0]
  refine ⟨fun p _ => ?_, ⟨bits _ _, bits _ _, bits _ _⟩, ?_⟩
  · by_cases h : p = 0
    · subst h
      exact ⟨⟨_, _, _, rfl, by decide⟩, ⟨_, _, _, rfl, by decide⟩, by simp⟩
    · simp only [h, if_false, decide_false, ne_eq, not_false_eq_true, decide_true]
      exact ⟨⟨_, _, _, rfl, by decide⟩, ⟨_, _, _, rfl, by decide⟩, by simp⟩
  · decide +kernel

/-- The inputs of the pass statements, and what the searches do with them: a plain search, a family search of family 0,
a ping of ID 0, the two answers to a delivery with a branch left at position 5, and a completed search. -/
theorem test_witness_searches :
    let l := cap presenceList :: sent :: passAnswers (fun _ => zero) (fun _ => one) 64
    (Quiet (at0 l) ∧ (at0 l).sact = false ∧ Quiet (yield0 l) ∧ (yield0 l).idrdy = true) ∧
    nextIs (exec (.searchStartPlain false) (at0 l)) (fun t => statusWord t == 0x005C && t.history.length == 194) = true ∧
    nextIs (exec (.searchStartFamily true) (at0 l)) (fun t => statusWord t == 0x005C && t.salm) = true ∧
    nextIs (exec .searchStartPing (at0 l)) (fun t => statusWord t == 0x0044) = true ∧
    nextIs (exec .searchNext { yield0 l with lub := 5 }) (fun t => statusWord t == 0x005C && t.plub == 5) = true ∧
    nextIs (exec .searchSkipFamily { yield0 l with lufb := 5 }) (fun t => statusWord t == 0x005C) = true := by
  decide +kernel

/-- A family search whose candidate is of another family ends without a delivery, in its first pass and in a next one,
and a next pass delivers one of the family. -/
theorem test_witness_familyEnds :
    let l := cap presenceList :: sent :: passAnswers (fun _ => zero) (fun _ => one) 64
    nextIs (exec (.searchStartFamily false) { at0 l with data := 0x28 })
      (fun t => statusWord t == 0x0040 && t.data == 0x28 && t.sfam == 0x28) = true ∧
    nextIs (exec .searchNext { yield0 l with lub := 5, smode := .family, sfam := 0x28, data := 0x28 })
      (fun t => statusWord t == 0x0040 && t.data == 0x28) = true ∧
    nextIs (exec .searchSkipFamily { yield0 l with lufb := 5, smode := .family, data := 0x28 })
      (fun t => statusWord t == 0x005C && t.data == 0) = true := by decide +kernel

/-- (1,1) after 63 answered positions, and at position 0, in a plain search, a ping and a next pass. -/
theorem test_witness_noResponse :
    readsBit one true ∧ (0 < 64 ∧ 63 < 64) ∧
    busAnswers (fun _ => zero) (fun _ => one) (fun _ => false) (fun _ => true) 63 ∧
    (∀ k, k < 64 → (0 : Long).getLsbD k =
      if k < 63 then choice (-1) 0 (fun _ => false) (fun _ => true) k else (0 : Long).getLsbD k) ∧
    nextIs (exec (.searchStartPlain true) (at0 (cap presenceList :: sent ::
      (passAnswers (fun _ => zero) (fun _ => one) 63 ++ [cap one, cap one])))) (fun t => statusWord t == 0x0040) = true ∧
    nextIs (exec .searchStartPing { at0 [cap presenceList, sent, cap one, cap one] with data := 5 })
      (fun t => t.ecode == .busError && t.sid == 5) = true ∧
    nextIs (exec .searchNext { yield0 [cap presenceList, sent, cap one, cap one] with lub := 5, smode := .family, salm := true })
      (fun t => !t.err && !t.sact) = true := by
  refine ⟨⟨_, _, _, rfl, by decide⟩, by decide, fun p _ => ⟨⟨_, _, _, rfl, rfl, rfl, rfl⟩, ⟨_, _, _, rfl, rfl, rfl, rfl⟩, by simp⟩,
    fun k _ => by simp [choice], by decide +kernel⟩

theorem test_witness_searchEndsAndStop :
    showsNone .timeout ∧ Quiet (at0 [.port (.txRx .timeout)]) ∧ Quiet (yield0 []) ∧ (yield0 []).idrdy = true ∧
    (yield0 []).lub = -1 ∧
    nextIs (exec .searchNext { yield0 [.port (.txRx .timeout)] with lub := 5 }) (fun t => statusWord t == 0x0040) = true := by
  refine ⟨.inl rfl, ?_⟩
  decide

end Sys2Proof.Tests
end

section
/-! SUPPORT. What a command and a step can do, said once: `GoesOn` is what follows a port outcome, `Begins` what the
body of a command comes to, `Happens` what an input does. The invariants are case splits on these. -/

open Sys2Proof Sys2Proof.Machine Sys2Proof.Spec

namespace Sys2Proof.Machine

/-! ### What the running command is doing -/

/-- Which work a running command is at: a RESET, whose outcome is RES (41_link R177), a search pass (44_search R252), or
anything else. -/
inductive Work where
  | reset
  | pass
  | other

/-- An error in this work ends the search (60_exceptions R305). -/
def Work.inPass : Work → Bool
  | .pass => true
  | .reset | .other => false

/-- The work a LinkReset belongs to. -/
def AfterReset.work : AfterReset → Work
  | .reset => .reset
  | .pass => .pass
  | .select | .skip | .readRom => .other

/-- The work a transmission belongs to. -/
def AfterWrite.work : AfterWrite → Work
  | .passRom | .passBit _ => .pass
  | .done | .writeBytes _ | .selectId | .readRomId => .other

/-- The work a LinkReadBits belongs to. -/
def AfterRead.work : AfterRead → Work
  | .passBit _ | .passCmp _ _ => .pass
  | .toData => .other

/-- The work an outstanding transaction belongs to. -/
def Wait.work : Wait → Work
  | .tx _ _ k => k.work
  | .txRx _ _ _ _ (.linkReset k) => k.work
  | .txRx _ _ _ _ (.linkRead _ k) => k.work
  | .txRx _ _ _ _ (.readBytes _) => .other

@[simp] theorem AfterReset.work_inPass (k : AfterReset) : k.work.inPass = k.inPass := by cases k <;> rfl
@[simp] theorem AfterWrite.work_inPass (k : AfterWrite) : k.work.inPass = k.inPass := by cases k <;> rfl
@[simp] theorem AfterRead.work_inPass (k : AfterRead) : k.work.inPass = k.inPass := by cases k <;> rfl

@[simp] theorem Wait.work_inPass (w : Wait) : w.work.inPass = w.inPass := by
  match w with
  | .tx _ _ k => exact k.work_inPass
  | .txRx _ _ _ _ (.linkReset k) => exact k.work_inPass
  | .txRx _ _ _ _ (.linkRead _ k) => exact k.work_inPass
  | .txRx _ _ _ _ (.readBytes _) => rfl

theorem AfterReset.work_eq_reset {k : AfterReset} (h : k.work = .reset) : k = .reset := by
  cases k with
  | reset => rfl
  | pass | select | skip | readRom => cases h

/-- Only the transaction of RESET is at the work `reset`. -/
theorem Wait.work_eq_reset {w : Wait} (h : w.work = .reset) :
    ∃ l thr tmo od, w = .txRx l thr tmo od (.linkReset .reset) := by
  match w with
  | .tx _ _ k => cases k <;> cases h
  | .txRx l thr tmo od (.linkReset k) => exact ⟨l, thr, tmo, od, by rw [AfterReset.work_eq_reset h]⟩
  | .txRx _ _ _ _ (.linkRead _ k) => cases k <;> cases h
  | .txRx _ _ _ _ (.readBytes _) => cases h

/-! ### What follows a port outcome -/

/-- The command at the work `w` goes on from `s` to `u`: it ends, or its next transaction is outstanding. `g` is
whatever makes the numbers in it lie in their ranges (10_state R45-R47, 41_link R180, R181). -/
inductive GoesOn (g : Prop) (s : State) : Work → State → Prop where
  | raised {w : Work} {e : ErrKind} : e ≠ .none → GoesOn g s w (raiseIn w.inPass e s)
  | resetEnds (p : Bool) : GoesOn g s .reset (finish { s with res := p })
  | ends (od : Bool) : GoesOn g s .other (finish (setOpenDrain od s))
  | data (od : Bool) (v : Long) : GoesOn g s .other (finish { setOpenDrain od s with data := v })
  | bytes {bs : List Byte} : (g → bs.length ≤ s.cfg.databufBytes) → GoesOn g s .other (finish (storeBytes bs s))
  | sends (l : List Signal) (od : Bool) {k : AfterWrite} : (g → k.ok = true) →
      GoesOn g s k.work (portTx l k (setOpenDrain od s))
  | reads {n : Nat} {k : AfterRead} : (g → n ≤ 64 ∧ k.ok = true) → GoesOn g s k.work (linkReadBits n k s)
  | noResponse : GoesOn g s .pass (finish (endSearch false s))
  | passEnds {ps : Pass} (r : Bool) : (g → ps.ok = true) → GoesOn g s .pass (finish (endSearch r (passCommit ps s)))
  | delivers {ps : Pass} : s.smode ≠ .ping → (g → ps.ok = true) →
      GoesOn g s .pass (finish { passCommit ps s with data := ps.id, res := true, idrdy := true })

@[simp] theorem Pass.ok_iff {ps : Pass} :
    ps.ok = true ↔ ps.p ≤ 63 ∧ -1 ≤ ps.l ∧ ps.l ≤ 63 ∧ -1 ≤ ps.lf ∧ ps.lf ≤ 7 := by
  simp [Pass.ok, and_assoc]

theorem passStart_ok {s : State} (h : branchOk s) : (passStart s).ok = true := by
  obtain ⟨⟨h1, h2⟩, ⟨h3, h4⟩, -⟩ := h
  simp [passStart, h1, h2, h3, h4]

theorem passChoose_ok {ps : Pass} (h : ps.ok = true) (c b : Bool) : (passChoose c b ps).ok = true := by
  simp only [Pass.ok_iff] at h
  simp only [Pass.ok_iff, passChoose]
  split
  · dsimp only
    split <;> omega
  · exact h

variable {g : Prop} {s : State}

theorem searchCandidate_goesOn {ps : Pass} (hp : g → ps.ok = true) :
    GoesOn g s .pass (searchCandidate ps.id (passCommit ps s)) := by
  have hd : s.smode ≠ .ping →
      GoesOn g s .pass (finish { passCommit ps s with data := ps.id, res := true, idrdy := true }) :=
    fun hm => .delivers hm hp
  unfold searchCandidate
  simp only [passCommit_smode]
  split
  · exact .passEnds _ hp
  · split
    · exact .passEnds _ hp
    · exact hd (by simp [*])
  · exact hd (by simp [*])

theorem passEnd_goesOn {ps : Pass} (hp : g → ps.ok = true) : GoesOn g s .pass (passEnd ps s) := by
  unfold passEnd
  split
  · exact searchCandidate_goesOn hp
  · exact .raised nofun

theorem passDecide_goesOn {ps : Pass} (hp : g → ps.ok = true) (b c : Bool) :
    GoesOn g s .pass (passDecide ps b c s) := by
  unfold passDecide
  split
  · split
    · exact .passEnds _ hp
    · exact .raised nofun
  · exact .sends _ true (k := .passBit _) fun hg => passChoose_ok (hp hg) _ _

theorem afterReset_goesOn (k : AfterReset) (p : Bool) : GoesOn g s k.work (afterReset k p s) := by
  cases k with
  | reset => exact .resetEnds p
  | readRom => exact .sends _ true (k := .readRomId) fun _ => rfl
  | select =>
    cases p with
    | true => exact .sends _ true (k := .selectId) fun _ => rfl
    | false => exact .raised (w := .other) (e := .noDevice) nofun
  | skip =>
    cases p with
    | true => exact .sends _ true (k := .done) fun _ => rfl
    | false => exact .raised (w := .other) (e := .noDevice) nofun
  | pass =>
    cases p with
    | true => exact .sends _ true (k := .passRom) fun _ => rfl
    | false => exact .noResponse

theorem afterWrite_goesOn {k : AfterWrite} (hk : g → k.ok = true) (hs : g → branchOk s) :
    GoesOn g s k.work (afterWrite k s) := by
  cases k with
  | done => exact .ends s.openDrain
  | writeBytes bs =>
    cases bs with
    | nil => exact .ends s.openDrain
    | cons b rest => exact .sends _ s.openDrain (k := .writeBytes rest) fun _ => rfl
  | selectId => exact .sends _ true (k := .done) fun _ => rfl
  | readRomId => exact .reads (k := .toData) fun _ => ⟨le_refl 64, rfl⟩
  | passRom => exact .reads (k := .passBit _) fun hg => ⟨by decide, passStart_ok (hs hg)⟩
  | passBit ps =>
    simp only [afterWrite]
    split
    · refine .reads (k := .passBit _) fun hg => ⟨by decide, ?_⟩
      have := hk hg
      simp only [AfterWrite.ok, AfterRead.ok, Pass.ok_iff] at this ⊢
      omega
    · exact passEnd_goesOn hk

theorem afterRead_goesOn {k : AfterRead} (hk : g → k.ok = true) (v : Long) : GoesOn g s k.work (afterRead k v s) := by
  cases k with
  | toData => exact .data s.openDrain v
  | passBit ps => exact .reads (k := .passCmp ps _) fun hg => ⟨by decide, hk hg⟩
  | passCmp ps b => exact passDecide_goesOn hk b _

theorem raised_goesOn {w : Work} {b : Bool} {e : ErrKind} (hw : w.inPass = b) (he : e ≠ .none) :
    GoesOn g s w (raiseIn b e s) := hw ▸ .raised he

theorem onTx_goesOn {k : AfterWrite} (hk : g → k.ok = true) (hs : g → branchOk s) (o : TxOutcome) :
    GoesOn g s k.work (onTx k o s) := by
  cases o with
  | ok => exact afterWrite_goesOn hk hs
  | error => exact raised_goesOn k.work_inPass nofun

theorem onLinkReset_goesOn (k : AfterReset) (o : RxOutcome) :
    GoesOn g (setIdleThr s.savedThr s) k.work (onLinkReset k o s) := by
  cases o with
  | timeout | captured _ => exact afterReset_goesOn k _
  | error => exact raised_goesOn k.work_inPass nofun

theorem onLinkRead_goesOn {n : Nat} {k : AfterRead} (hk : g → k.ok = true) (o : Option (List Signal)) :
    GoesOn g s k.work (onLinkRead n k o s) := by
  unfold onLinkRead
  split
  · exact raised_goesOn k.work_inPass nofun
  · split
    · exact raised_goesOn k.work_inPass nofun
    · exact afterRead_goesOn hk _

theorem onReadBytes_goesOn {n : Nat} (hn : g → n ≤ s.cfg.databufBytes) (o : Option (List Signal)) :
    GoesOn g s .other (onReadBytes n o s) := by
  unfold onReadBytes
  split
  · exact .raised (w := .other) nofun
  · split
    · exact .raised (w := .other) nofun
    · rename_i bs hbs
      exact .bytes fun hg => (decodeBytes_some.mp hbs).1 ▸ hn hg

/-- The state from which a command goes on once its transaction `w` has its outcome: after a reset the threshold is
restored (41_link R171, R173). -/
def Wait.resume (w : Wait) (s : State) : State :=
  setIdleThr (bif w.isReset then s.savedThr else s.idleThr) s

/-- What an answer that has an effect does: its event is appended, and the command goes on. -/
theorem deliver_goesOn {a : PortAnswer} {t : State} (h : deliver a s = some t) :
    ∃ w e, s.wait = some w ∧ GoesOn (w.ok s.cfg = true ∧ branchOk s) (w.resume (logEvent e s)) w.work t := by
  obtain ⟨l, od, k, o, hw, -, rfl⟩ | ⟨l, thr, tmo, od, k, o, hw, -, -, rfl⟩ := deliver_cases h
  · exact ⟨_, _, hw, onTx_goesOn (fun hg => hg.1) (fun hg => hg.2) o⟩
  · refine ⟨_, .txRx l thr tmo od o, hw, ?_⟩
    cases k with
    | linkReset k => exact onLinkReset_goesOn k o
    | linkRead n k => exact onLinkRead_goesOn (fun hg => by simp [Wait.ok] at hg; exact hg.1.2) o.list
    | readBytes n => exact onReadBytes_goesOn (fun hg => by simp [Wait.ok] at hg; exact hg.1.2) o.list

end Sys2Proof.Machine
end

section
/-! SUPPORT. What the body of a command comes to, and what an input does. -/

open Sys2Proof Sys2Proof.Machine Sys2Proof.Spec

namespace Sys2Proof.Machine

/-- The search registers after an answer to a delivery, `q` being the branch to take next (44_search R259). -/
def advanceTo (q : Int) (s : State) : State := { s with idrdy := false, plub := q, lub := -1, lufb := -1 }

/-- The body of a command comes from `s`, its start, to `u`: it ends, or its first transaction is outstanding. `r` says
whether the command may write RES (10_state R26). -/
inductive Begins (r : Prop) (s : State) : State → Prop where
  | works {u : State} : GoesOn True s .other u → (s.closed = true → u.wait = none) → Begins r s u
  | signals {l : List Signal} : l.length ≤ s.cfg.sigbufEntries → Begins r s (finish (storeSignals l s))
  | crc {b : Bool} (c : Byte) : b = s.res ∨ r → Begins r s (finish { s with crc := c, res := b })
  | resets {k : AfterReset} : s.closed = false → k ≠ .pass → (k = .reset → r) → Begins r s (linkReset k s)
  | readsBytes {n : Nat} : s.closed = false → n ≤ s.cfg.databufBytes →
      Begins r s (portTxRx (encodeRead (8 * n)) s.idleThr none (.readBytes n) (setOpenDrain true s))
  | closes : Begins r s (finish { portClose (clearSearch s) with closed := true })
  | searchStarts (m : SearchMode) (alm : Bool) : s.closed = false → r → Begins r s (searchStep (searchInit m alm s))
  | searchAdvances {q : Int} : s.closed = false → s.idrdy = true → q = s.lub ∨ q = s.lufb → r →
      Begins r s (linkReset .pass (advanceTo q s))
  | searchCompletes : s.idrdy = true → r → Begins r s (finish (endSearch false (advanceTo (-1) s)))
  | searchStops : Begins r s (finish (clearSearch s))

/-- Where the outcome `res` of a command's body is a next state, the body comes to it from `s`. -/
def Comes (r : Prop) (s : State) (res : Result) : Prop := ∀ u, res = .next u → Begins r s u

/-- `t` is what a command, started in `s`, has come to when no answer stands next that it can take. -/
def Ran (r : Prop) (s t : State) : Prop :=
  s.busy = false ∧ ∃ u, Begins r (beginCommand s) u ∧ t = settle u

section
variable {r : Prop} {s : State}

theorem comes_next {u : State} (h : Begins r s u) : Comes r s (.next u) :=
  fun _ hu => Host.Outcome.next.inj hu ▸ h

theorem comes_fault (f : Fault) : Comes r s (.fault f) := by
  intro u hu
  cases hu

theorem comes_raise {e : ErrKind} (he : e ≠ .none) : Comes r s (.next (raise e s)) :=
  comes_next (.works (.raised (w := .other) he) fun _ => rfl)

theorem begins_ends (od : Bool) : Begins r s (finish (setOpenDrain od s)) := .works (.ends od) fun _ => rfl

theorem begins_data (od : Bool) (v : Long) : Begins r s (finish { setOpenDrain od s with data := v }) :=
  .works (.data od v) fun _ => rfl

theorem begins_bytes {bs : List Byte} (h : bs.length ≤ s.cfg.databufBytes) : Begins r s (finish (storeBytes bs s)) :=
  .works (.bytes fun _ => h) fun _ => rfl

theorem begins_sends (hc : s.closed = false) (l : List Signal) (od : Bool) {k : AfterWrite} (hw : k.work = .other)
    (hk : k.ok = true) : Begins r s (portTx l k (setOpenDrain od s)) :=
  .works (hw ▸ .sends l od fun _ => hk) (by simp [hc])

theorem begins_reads (hc : s.closed = false) {n : Nat} (hn : n ≤ 64) : Begins r s (linkReadBits n .toData s) :=
  .works (.reads (k := .toData) fun _ => ⟨hn, rfl⟩) (by simp [hc])

/-- The link check of a command (41_link R170): it is refused, or its body runs with the link open. -/
theorem requireOpen_comes {body : State → State} (h : s.closed = false → Begins r s (body s)) :
    Comes r s (.next (requireOpen s body)) := by
  by_cases hc : s.closed = true
  · rw [requireOpen_closed hc]
    exact comes_raise (by decide)
  · rw [requireOpen_open (by simpa using hc)]
    exact comes_next (h (by simpa using hc))

theorem raise_begins {e : ErrKind} (he : e ≠ .none) : Begins r s (raise e s) := comes_raise he _ rfl

theorem command_ran {body : State → Result} (hb : Comes r (beginCommand s) (body (beginCommand s))) {t : State}
    (h : command s body = .next t) : Ran r s t := by
  obtain ⟨hbusy, u, hu, rfl⟩ := command_next_inv h
  exact ⟨hbusy, u, hb u hu, rfl⟩

variable {t : State}

theorem illegalWord_ran (h : illegalWord s = .next t) : Ran r s t := command_ran (comes_raise (by decide)) h

theorem execEncWrite_ran {n : Nat} (h : execEncWrite n s = .next t) : Ran r s t := by
  refine command_ran ?_ h
  split
  · exact comes_raise (by decide)
  · exact comes_next (.signals (by rw [encodeWrite_length]; omega))

theorem execEncWriteBytes_ran {n : Nat} (h : execEncWriteBytes n s = .next t) : Ran r s t := by
  refine command_ran ?_ h
  split
  · exact comes_raise (by decide)
  · split
    · exact comes_fault _
    · rename_i bs hbs
      have hl := (bytesOperand_ok.mp hbs).1
      exact comes_next (.signals (by rw [encodeWriteBytes_length]; omega))

theorem execEncRead_ran {n : Nat} (h : execEncRead n s = .next t) : Ran r s t := by
  refine command_ran ?_ h
  split
  · exact comes_raise (by decide)
  · exact comes_next (.signals (by rw [encodeRead_length]; omega))

theorem execDecode_ran {n : Nat} (h : execDecode n s = .next t) : Ran r s t := by
  refine command_ran ?_ h
  split
  · exact comes_raise (by decide)
  · split
    · exact comes_raise (by decide)
    · split
      · exact comes_fault _
      · split
        · exact comes_raise (by decide)
        · exact comes_next (begins_data s.openDrain _)

theorem execDecodeBytes_ran {n : Nat} (h : execDecodeBytes n s = .next t) : Ran r s t := by
  refine command_ran ?_ h
  split
  · exact comes_raise (by decide)
  · split
    · exact comes_next (begins_ends s.openDrain)
    · split
      · exact comes_raise (by decide)
      · split
        · exact comes_fault _
        · split
          · exact comes_raise (by decide)
          · rename_i bs hbs
            have hl := (decodeBytes_some.mp hbs).1
            exact comes_next (begins_bytes (by omega))

theorem execCrc8Bytes_ran {n : Nat} (h : execCrc8Bytes n s = .next t) : Ran r s t := by
  refine command_ran ?_ h
  split
  · exact comes_raise (by decide)
  · split
    · exact comes_fault _
    · exact comes_next (.crc _ (.inl rfl))

theorem execWriteBits_ran {pwr : Bool} {n : Nat} (h : execWriteBits pwr n s = .next t) : Ran r s t := by
  refine command_ran (requireOpen_comes fun hc => ?_) h
  split
  · exact raise_begins (by decide)
  · split
    · exact begins_ends _
    · exact begins_sends hc _ _ rfl rfl

theorem execWriteBytes_ran {pwr : Bool} {n : Nat} (h : execWriteBytes pwr n s = .next t) : Ran r s t := by
  refine command_ran ?_ h
  split
  · exact comes_raise (by decide)
  · rename_i hc
    split
    · exact comes_raise (by decide)
    · split
      · exact comes_fault _
      · rename_i bs _
        refine comes_next ?_
        cases bs with
        | nil => exact begins_ends _
        | cons b rest => exact begins_sends (by simpa using hc) _ _ (k := .writeBytes rest) rfl rfl

theorem execReadBits_ran {n : Nat} (h : execReadBits n s = .next t) : Ran r s t := by
  refine command_ran (requireOpen_comes fun hc => ?_) h
  split
  · exact raise_begins (by decide)
  · split
    · exact begins_data _ _
    · exact begins_reads hc (by omega)

theorem execReadBytes_ran {n : Nat} (h : execReadBytes n s = .next t) : Ran r s t := by
  refine command_ran (requireOpen_comes fun hc => ?_) h
  split
  · exact raise_begins (by decide)
  · dsimp only
    split
    · exact begins_ends _
    · exact .readsBytes hc (by omega)

theorem execSetPower_ran {pwr : Bool} (h : execSetPower pwr s = .next t) : Ran r s t :=
  command_ran (requireOpen_comes fun _ => begins_ends _) h

theorem execCrc8Id_ran (hr : r) (h : execCrc8Id s = .next t) : Ran r s t := by
  refine command_ran ?_ h
  exact comes_next (.crc _ (.inr hr))

theorem execClose_ran (h : execClose s = .next t) : Ran r s t := by
  refine command_ran ?_ h
  split
  · exact comes_next (begins_ends s.openDrain)
  · exact comes_next .closes

theorem sendRomByte_ran {b : Byte} (h : sendRomByte b s = .next t) : Ran r s t :=
  command_ran (requireOpen_comes fun hc => begins_sends hc _ true (k := .done) rfl rfl) h

theorem searchStart_ran {m : SearchMode} {alm : Bool} (hr : r) (h : searchStart m alm s = .next t) : Ran r s t := by
  refine command_ran ?_ h
  split
  · exact comes_raise (by decide)
  · exact requireOpen_comes fun hc => .searchStarts m alm hc hr

theorem searchAdvance_begins (hc : s.closed = false) (hi : s.idrdy = true) (hr : r) (skip : Bool) :
    Begins r s (searchAdvance skip s) := by
  have hq : (if skip then s.lufb else s.lub) = s.lub ∨ (if skip then s.lufb else s.lub) = s.lufb := by
    cases skip <;> simp
  unfold searchAdvance
  dsimp only
  generalize (if skip = true then s.lufb else s.lub) = q at hq ⊢
  split
  · subst q
    exact .searchCompletes hi hr
  · exact .searchAdvances hc hi hq hr

theorem searchAnswer_ran {skip : Bool} (hr : r) (h : searchAnswer skip s = .next t) : Ran r s t := by
  refine command_ran ?_ h
  split
  · exact requireOpen_comes fun hc => searchAdvance_begins hc ‹_› hr skip
  · exact comes_raise (by decide)

theorem execSearchStop_ran (h : execSearchStop s = .next t) : Ran r s t := by
  refine command_ran ?_ h
  split
  · exact comes_next .searchStops
  · exact comes_raise (by decide)

theorem execReset_ran (hr : r) (h : execReset s = .next t) : Ran r s t :=
  command_ran (requireOpen_comes fun hc => .resets hc (by decide) fun _ => hr) h

/-- The three ROM commands start as LinkReset does (43_rom R231-R233). -/
theorem romCommand_ran {k : AfterReset} (hk : k ≠ .pass ∧ k ≠ .reset)
    (h : command s (fun s => .next (requireOpen s fun s => linkReset k s)) = .next t) : Ran r s t :=
  command_ran (requireOpen_comes fun hc => .resets hc hk.1 fun e => absurd e hk.2) h

/-- What an instruction that answers a next state has done. -/
theorem exec_ran {i : Instr} (h : exec i s = .next t) : Ran (writesRes i) s t := by
  cases i with
  | encWrite n => exact execEncWrite_ran h
  | encWriteBytes n => exact execEncWriteBytes_ran h
  | encRead n => exact execEncRead_ran h
  | decode n => exact execDecode_ran h
  | decodeBytes n => exact execDecodeBytes_ran h
  | reset => exact execReset_ran trivial h
  | writeBits pwr n => exact execWriteBits_ran h
  | writeBytes pwr n => exact execWriteBytes_ran h
  | readBits n => exact execReadBits_ran h
  | readBytes n => exact execReadBytes_ran h
  | setPower pwr => exact execSetPower_ran h
  | close => exact execClose_ran h
  | crc8Id => exact execCrc8Id_ran trivial h
  | crc8Bytes n => exact execCrc8Bytes_ran h
  | select => exact romCommand_ran (k := .select) ⟨nofun, nofun⟩ h
  | skip => exact romCommand_ran (k := .skip) ⟨nofun, nofun⟩ h
  | readRom => exact romCommand_ran (k := .readRom) ⟨nofun, nofun⟩ h
  | searchStartPlain alm | searchStartFamily alm | searchStartPing => exact searchStart_ran trivial h
  | searchNext | searchSkipFamily => exact searchAnswer_ran trivial h
  | searchStop => exact execSearchStop_ran h
  | romMatch | romSkip | romSearch | romRead | romSearchAlarm => exact sendRomByte_ran h

/-- What every start of a command and every answer keeps, whatever inputs are still to come, holds of what has run. -/
theorem Ran.induction {P : State → Prop} (hin : ∀ l s, P s → P (withInputs l s))
    (hdel : ∀ a s t, P s → deliver a s = some t → P t) (hbegin : ∀ u, Begins r (beginCommand s) u → P u)
    (h : Ran r s t) : P t := by
  obtain ⟨-, u, hu, rfl⟩ := h
  exact settle_induction hin hdel (hbegin u hu)

/-- What every answer keeps, an answer that comes late keeps with those that stand behind it. -/
theorem portAnswer_induction {P : State → Prop} (hin : ∀ l s, P s → P (withInputs l s))
    (hdel : ∀ a s t, P s → deliver a s = some t → P t) (h : P s) (a : PortAnswer) : P (portAnswer a s) := by
  unfold portAnswer
  split
  · exact settle_induction hin hdel (hdel a s _ h ‹_›)
  · exact h

theorem startCode_ran {c : Code} (h : startCode c s = .next t) : ∃ r, Ran r s t := by
  unfold startCode at h
  split at h
  · exact ⟨_, exec_ran h⟩
  · exact ⟨True, illegalWord_ran h⟩

/-- What an input that answers a next state has done: `s` is the state with the input taken. -/
inductive Happens (s : State) : Input → State → Prop where
  | reads {addr width : Nat} (w : Word) (d : Nat) : Happens s (.read addr width) { s with rdata := w, draws := d }
  | writes {addr width off : Nat} (v : Word) : s.busy = false → off % 4 = 0 →
      Happens s (.write addr width v) (writeReg (regAt s.cfg off) v s)
  | runs {i : Input} {r : Prop} {t : State} : (i ≠ .hardReset) → Ran r s t → Happens s i t
  | answers (a : PortAnswer) : Happens s (.port a) (portAnswer a s)
  | resets : Happens s .hardReset (hardReset s)

theorem hostRead_happens {addr width : Nat} (h : hostRead addr width s = .next t) : Happens s (.read addr width) t := by
  unfold hostRead at h
  split at h
  · cases h
  · split at h
    · cases h
      exact .reads _ _
    · split at h
      · cases h
        exact .reads _ s.draws
      · cases h

theorem hostWrite_happens {addr width : Nat} {v : Word} (h : hostWrite addr width v s = .next t) :
    Happens s (.write addr width v) t := by
  unfold hostWrite at h
  split at h
  · cases h
  · rename_i reg hreg
    split at h
    · cases h
    · rename_i hb
      split at h
      · obtain ⟨r, hr⟩ := startCode_ran h
        exact .runs nofun hr
      · obtain ⟨-, -, -, ha, rfl⟩ := accessReg_ok.mp hreg
        cases h
        exact .writes v (by simpa using hb) ha

theorem stepInput_happens {i : Input} (h : stepInput i s = .next t) : Happens s i t := by
  cases i with
  | read addr width => exact hostRead_happens h
  | write addr width v => exact hostWrite_happens h
  | port a =>
    cases h
    exact .answers a
  | hardReset =>
    cases h
    exact .resets
  | rom b =>
    obtain ⟨r, hr⟩ := startCode_ran h
    exact .runs nofun hr

/-- What a step that answers a next state has done: nothing, where no input is left, or what the next input does. -/
theorem step_happens (h : step s = .next t) :
    (s.inputs = [] ∧ t = s) ∨ ∃ i rest, s.inputs = i :: rest ∧ Happens (withInputs rest s) i t := by
  cases hi : s.inputs with
  | nil =>
    rw [step_nil hi] at h
    cases h
    exact .inl ⟨rfl, rfl⟩
  | cons i rest =>
    rw [step_cons hi] at h
    exact .inr ⟨i, rest, rfl, stepInput_happens h⟩

end

end Sys2Proof.Machine
end

section
/-! SUPPORT. The invariant between two transactions, and that a command keeps it. -/

open Sys2Proof Sys2Proof.Machine Sys2Proof.Spec

namespace Sys2Proof.Machine

/-- IDRDY and SACT while nothing is outstanding: a pass runs in an active search that has delivered no ID; outside a
pass an active search has delivered one, and not a ping (10_state R27, R28, 44_search R258). -/
def searchAt (inPass : Bool) (s : State) : Prop :=
  if inPass then s.sact = true ∧ s.idrdy = false
  else (s.idrdy = true → s.sact = true ∧ s.smode ≠ .ping) ∧ (s.sact = true → s.idrdy = true)

/-- What the invariant says of a state whose command is at the work `w` and has nothing outstanding, BUSY, the phase and
the errors apart. -/
structure Sound (w : Work) (s : State) : Prop where
  cfg       : s.cfg.wf
  memory    : Memory.wf s
  search    : searchAt w.inPass s
  closed    : s.closed = true → s.sact = false
  threshold : s.idleThr = 75
  branches  : branchOk s
  setup     : setupOk s

/-- A command runs, at the work `w`, and has nothing outstanding. -/
structure Running (w : Work) (s : State) : Prop extends Sound w s where
  busy  : s.busy = true
  err   : s.err = false
  ecode : s.ecode = .none

variable {w : Work} {s : State}

/-! ### A command ends -/

/-- Outside a pass, what ends leaves the block at rest. -/
theorem Sound.finish_inv (h : Sound w s) (hw : w.inPass = false) (he : s.err = false ↔ s.ecode = .none) :
    (finish s).Inv := by
  obtain ⟨hcfg, hmem, hsearch, hclosed, hthr, hbranch, hsetup⟩ := h
  simp only [searchAt, hw] at hsearch
  exact ⟨hcfg, hmem, ⟨rfl, rfl⟩, .inl rfl, ⟨he, nofun⟩, ⟨hsearch.1, fun hs => .inl (hsearch.2 hs), nofun⟩,
    fun hc => ⟨rfl, hclosed hc⟩, hthr, hbranch, hsetup⟩

theorem Running.finish_inv (h : Running w s) (hw : w.inPass = false) : (finish s).Inv :=
  h.toSound.finish_inv hw (by simp [h.err, h.ecode])

/-- Clearing SACT and IDRDY leaves nothing of a search to run (10_state R27, R28). -/
theorem Sound.clearSearch_sound (h : Sound w s) : Sound .other (clearSearch s) :=
  { h with search := ⟨nofun, nofun⟩, closed := fun _ => rfl }

theorem Running.endSearch_running (h : Running w s) (r : Bool) : Running .other (endSearch r s) :=
  { h with search := ⟨nofun, nofun⟩, closed := fun _ => rfl }

theorem Sound.raise_inv {e : ErrKind} (h : Sound w s) (hw : w.inPass = false) (he : e ≠ .none) : (raise e s).Inv :=
  Sound.finish_inv (w := w) (s := { s with err := true, ecode := e }) { h with } hw (by simp [he])

/-- An error ends the search of a pass, and of nothing else (60_exceptions R305). -/
theorem Sound.raiseIn_inv {e : ErrKind} (h : Sound w s) (he : e ≠ .none) : (raiseIn w.inPass e s).Inv := by
  cases hw : w.inPass with
  | true => exact h.clearSearch_sound.raise_inv rfl he
  | false => exact h.raise_inv hw he

theorem Running.passCommit_running {ps : Pass} (h : Running w s) (hp : ps.ok = true) : Running w (passCommit ps s) := by
  obtain ⟨-, h1, h2, h3, h4⟩ := Pass.ok_iff.mp hp
  exact { h with branches := ⟨⟨h1, h2⟩, ⟨h3, h4⟩, h.branches.2.2⟩ }

/-! ### A command issues a transaction -/

/-- The state where `x` is outstanding, issued with the threshold `thr`, and `saved` saved. -/
abbrev issued (x : Wait) (thr saved : Half) (s : State) : State :=
  { s with phase := .waitPort, wait := some x, idleThr := thr, savedThr := saved }

@[simp] theorem waitIs_some {p : Wait → Bool} {x : Wait} (h : s.wait = some x) : waitIs p s = p x := by
  simp [waitIs, h]

theorem searchOk_of_searchAt {x : Wait} (hw : s.wait = some x) (h : searchAt x.inPass s) : searchOk s := by
  cases hp : x.inPass with
  | true =>
    obtain ⟨hs, hi⟩ : s.sact = true ∧ s.idrdy = false := by simpa [searchAt, hp] using h
    simp [searchOk, hw, hp, hs, hi]
  | false =>
    simpa [searchOk, hw, hp, searchAt] using h

theorem searchAt_of_searchOk {x : Wait} (hw : s.wait = some x) (h : searchOk s) : searchAt x.inPass s := by
  cases hp : x.inPass with
  | true => simpa [searchAt, searchOk, hw, hp] using h.2.2
  | false => simpa [searchAt, searchOk, hw, hp] using And.intro h.1 h.2.1

/-- The one issue rule: BUSY stays 1 and the phase says that a transaction is outstanding. -/
theorem Running.issued_inv {x : Wait} {thr saved : Half} (h : Running x.work s) (hc : s.closed = false)
    (hx : x.ok s.cfg = true) (ht : if x.isReset then thr = 530 ∧ saved = 75 else thr = 75) :
    (issued x thr saved s).Inv := by
  obtain ⟨⟨hcfg, hmem, hsearch, -, -, hbranch, hsetup⟩, hbusy, herr, hecode⟩ := h
  have hsearchOk : searchOk (issued x thr saved s) := searchOk_of_searchAt rfl (x.work_inPass ▸ hsearch)
  exact ⟨hcfg, hmem, ⟨hbusy, (if_pos hbusy).symm⟩, .inr hx, ⟨⟨fun _ => hecode, fun _ => herr⟩, fun _ => herr⟩,
    hsearchOk, fun h => absurd (hc.symm.trans h) nofun, ht, hbranch, hsetup⟩

theorem Running.portTx_inv {l : List Signal} {k : AfterWrite} (h : Running k.work s) (hc : s.closed = false)
    (hk : k.ok = true) : (portTx l k s).Inv :=
  Running.issued_inv (x := .tx l s.openDrain k) (thr := s.idleThr) (saved := s.savedThr) h hc hk h.threshold

theorem Running.setOpenDrain_running (h : Running w s) (od : Bool) : Running w (setOpenDrain od s) := { h with }

theorem Running.linkReset_inv {k : AfterReset} (h : Running k.work s) (hc : s.closed = false) : (linkReset k s).Inv :=
  Running.issued_inv (s := s) (x := .txRx resetPulse 530 (some 500) s.openDrain (.linkReset k)) (thr := 530)
    (saved := s.idleThr) h hc (by simp [Wait.ok]) ⟨rfl, h.threshold⟩

theorem Running.linkReadBits_inv {n : Nat} {k : AfterRead} (h : Running k.work s) (hc : s.closed = false)
    (hn : n ≤ 64) (hk : k.ok = true) : (linkReadBits n k s).Inv :=
  Running.issued_inv (s := setOpenDrain true s) (x := .txRx (encodeRead n) s.idleThr none true (.linkRead n k))
    (thr := s.idleThr) (saved := s.savedThr) { h with } hc (by simp [Wait.ok, h.threshold, hn, hk]) h.threshold

theorem Running.readBytes_inv {n : Nat} (h : Running .other s) (hc : s.closed = false) (hn : n ≤ s.cfg.databufBytes) :
    (portTxRx (encodeRead (8 * n)) s.idleThr none (.readBytes n) (setOpenDrain true s)).Inv :=
  Running.issued_inv (s := setOpenDrain true s) (x := .txRx (encodeRead (8 * n)) s.idleThr none true (.readBytes n))
    (thr := s.idleThr) (saved := s.savedThr) { h with } hc (by simp [Wait.ok, h.threshold, hn]) h.threshold

/-! ### What follows an outcome keeps the invariant -/

theorem Running.goesOn_inv {g : Prop} {u : State} (h : Running w s) (hg : g) (hgo : GoesOn g s w u)
    (hc : u.wait ≠ none → s.closed = false) : u.Inv := by
  cases hgo with
  | raised he => exact h.raiseIn_inv he
  | resetEnds p => exact Running.finish_inv (s := { s with res := p }) { h with } rfl
  | ends od => exact (h.setOpenDrain_running od).finish_inv rfl
  | data od v => exact Running.finish_inv (s := { setOpenDrain od s with data := v }) { h with } rfl
  | bytes hb =>
    exact Running.finish_inv (s := storeBytes _ s) { h with memory := storeBytes_memory_wf h.memory (hb hg) } rfl
  | sends l od hk => exact (h.setOpenDrain_running od).portTx_inv (hc (by simp)) (hk hg)
  | reads hr => exact h.linkReadBits_inv (hc (by simp [linkReadBits])) (hr hg).1 (hr hg).2
  | noResponse => exact (h.endSearch_running false).finish_inv rfl
  | passEnds r hp => exact ((h.passCommit_running (hp hg)).endSearch_running r).finish_inv rfl
  | delivers hm hp =>
    obtain ⟨hs, -⟩ := h.search
    exact Running.finish_inv (w := .other) (s := { passCommit _ s with data := _, res := true, idrdy := true })
      { h.passCommit_running (hp hg) with search := ⟨fun _ => ⟨hs, hm⟩, fun _ => rfl⟩ } rfl

/-! ### What the body of a command comes to keeps the invariant -/

/-- A search starts (44_search R251): whatever the search registers held. -/
theorem Running.searchInit_running (h : Running w s) (hc : s.closed = false) (m : SearchMode) (alm : Bool) :
    Running .pass (searchInit m alm s) := by
  cases m <;> exact { h with
    search := ⟨rfl, rfl⟩, closed := by simp [hc, searchInit], branches := by simp [searchInit, branchOk] }

/-- An answer to a delivery (44_search R259): the search comes to its next pass. -/
theorem Running.advanceTo_running (h : Running .other s) (hi : s.idrdy = true) {q : Int} (h1 : -1 ≤ q)
    (h2 : q ≤ 64) : Running .pass (advanceTo q s) :=
  { h with search := ⟨(h.search.1 hi).1, rfl⟩, branches := ⟨by simp [advanceTo], by simp [advanceTo], h1, h2⟩ }

theorem Running.begins_inv {r : Prop} {u : State} (h : Running .other s) (hb : Begins r s u) : u.Inv := by
  cases hb with
  | works hgo hc => exact h.goesOn_inv trivial hgo fun hu => by simpa using mt hc hu
  | signals hl =>
    have hm := storeSignals_memory_wf h.memory hl
    exact Running.finish_inv (w := .other) (s := storeSignals _ s) { h with memory := hm } rfl
  | crc c _ => exact Running.finish_inv (w := .other) (s := { s with crc := c, res := _ }) { h with } rfl
  | @resets k hc hk _ =>
    refine Running.linkReset_inv { h with search := ?_ } hc
    cases k with
    | pass => exact absurd rfl hk
    | reset | select | skip | readRom => exact h.search
  | readsBytes hc hn => exact h.readBytes_inv hc hn
  | closes =>
    exact Running.finish_inv (w := .other) (s := { portClose (clearSearch s) with closed := true })
      { h with search := ⟨nofun, nofun⟩, closed := fun _ => rfl } rfl
  | searchStarts m alm hc _ =>
    exact Running.linkReset_inv (k := .pass) (h.searchInit_running hc m alm) (by cases m <;> exact hc)
  | searchAdvances hc hi hq _ =>
    obtain ⟨hlub, hlufb, -⟩ := h.branches
    exact Running.linkReset_inv (k := .pass) (h.advanceTo_running hi (by omega) (by omega)) hc
  | searchCompletes hi _ =>
    exact ((h.advanceTo_running hi (le_refl _) (by decide)).endSearch_running false).finish_inv rfl
  | searchStops =>
    exact h.toSound.clearSearch_sound.finish_inv rfl (by simp [h.err, h.ecode])

/-! ### A step keeps the invariant -/

theorem State.Inv.beginCommand (h : s.Inv) (hb : s.busy = false) : Running .other (beginCommand s) := by
  obtain ⟨hcfg, hmem, hbusy, -, -, hsearch, hclosed, hthr, hbranch, hsetup⟩ := h
  have hw : s.wait = none := by simpa [hb] using hbusy.1
  simp only [thresholdOk, searchOk, waitIs, hw] at hthr hsearch
  exact { cfg := hcfg, memory := hmem, search := ⟨hsearch.1, fun hs => by simpa using hsearch.2.1 hs⟩
          closed := fun hc => (hclosed hc).2, threshold := hthr, branches := hbranch, setup := hsetup
          busy := rfl, err := rfl, ecode := rfl }

/-- While a transaction is outstanding the command runs, the link is open, and the transaction and the branch registers
lie in their ranges. -/
theorem State.Inv.waiting {x : Wait} (h : s.Inv) (hw : s.wait = some x) :
    s.busy = true ∧ s.closed = false ∧ x.ok s.cfg = true ∧ branchOk s := by
  obtain ⟨-, -, hbusy, hwait, -, -, hclosed, -, hbranch, -⟩ := h
  have hb : s.busy = true := by simpa [hw] using hbusy.1
  exact ⟨hb, by simpa [hb] using mt hclosed, by simpa [waitOk, waitIs_some hw, hw] using hwait, hbranch⟩

/-- Once its transaction has an outcome, the command runs on at the same work. -/
theorem State.Inv.resume_running {x : Wait} (h : s.Inv) (hw : s.wait = some x) (e : PortEvent) :
    Running x.work (x.resume (logEvent e s)) := by
  obtain ⟨hb, hc, -, hbranch⟩ := h.waiting hw
  obtain ⟨hcfg, hmem, -, -, ⟨hecode, herr⟩, hsearch, -, hthr, -, hsetup⟩ := h
  simp only [thresholdOk, waitIs_some hw] at hthr
  have hat : searchAt x.work.inPass s := x.work_inPass ▸ searchAt_of_searchOk hw hsearch
  exact {
    cfg := hcfg, memory := hmem, search := hat, closed := by simp [Wait.resume, hc]
    threshold := by cases hr : x.isReset <;> simp_all [Wait.resume]
    branches := hbranch, setup := hsetup, busy := hb, err := herr hb, ecode := hecode.mp (herr hb) }

theorem deliver_inv {a : PortAnswer} {t : State} (h : s.Inv) (hd : deliver a s = some t) : t.Inv := by
  obtain ⟨x, e, hw, hgo⟩ := deliver_goesOn hd
  obtain ⟨-, hc, hok, hbranch⟩ := h.waiting hw
  exact (h.resume_running hw e).goesOn_inv ⟨hok, hbranch⟩ hgo fun _ => hc

theorem Ran.inv {r : Prop} {t : State} (hr : Ran r s t) (h : s.Inv) : t.Inv :=
  hr.induction (fun _ _ h => h) (fun _ _ _ h hd => deliver_inv h hd) fun _ hu => (h.beginCommand hr.1).begins_inv hu

theorem portAnswer_inv (h : s.Inv) (a : PortAnswer) : (portAnswer a s).Inv :=
  portAnswer_induction (fun _ _ h => h) (fun _ _ _ h hd => deliver_inv h hd) h a

theorem resetWith_inv {c : Config} (hc : c.wf) (l : List Input) (d : Nat) : (State.resetWith c l d).Inv := by
  exact ⟨hc, resetWith_memory_wf c l d, ⟨rfl, rfl⟩, .inl rfl, ⟨⟨fun _ => rfl, fun _ => rfl⟩, nofun⟩,
    ⟨nofun, nofun, nofun⟩, nofun, rfl, by simp [branchOk, State.resetWith], rfl⟩

/-- A host write keeps the invariant: it touches DATA, ARG, SIG_LEN and the buffers only. -/
theorem writeReg_inv (h : s.Inv) {off : Nat} (ha : off % 4 = 0) (v : Word) : (writeReg (regAt s.cfg off) v s).Inv := by
  obtain ⟨hcfg, hmem, hrest⟩ := h
  have hm := writeReg_memory_wf hcfg hmem ha v
  generalize regAt s.cfg off = reg at hm ⊢
  cases reg <;> exact ⟨hcfg, hm, hrest⟩

theorem Happens.inv {i : Input} {t : State} (hi : Happens s i t) (h : s.Inv) : t.Inv := by
  cases hi with
  | reads w d => exact h
  | writes v hb ha => exact writeReg_inv h ha v
  | runs _ hr => exact hr.inv h
  | answers a => exact portAnswer_inv h a
  | resets => exact resetWith_inv h.1 _ _

end Sys2Proof.Machine

open Sys2Proof.Machine

/-- Settles O18: what an input does keeps the invariant. -/
theorem stepKeepsTheInvariant : Obligations.StepKeepsTheInvariant := by
  intro s t h hst
  obtain ⟨-, rfl⟩ | ⟨i, rest, -, hi⟩ := step_happens hst
  · exact h
  · exact hi.inv (s := withInputs rest s) h

/-- Settles O17: nothing runs, and the buffers are empty. -/
theorem resetMeetsTheInvariant : Obligations.ResetMeetsTheInvariant := fun _ l d hc => resetWith_inv hc l d

end

section
/-! SUPPORT. What a step leaves of the link and its history, and who writes RES. -/

open Sys2Proof Sys2Proof.Machine Sys2Proof.Spec

namespace Sys2Proof.Machine

variable {g r : Prop} {w : Work} {s t u : State}

/-! ### The port history and `closed` -/

/-- From `s` to `t` the port history has only grown, and a closed link is still closed (10_state R40, R52). -/
structure LinkAdvances (s t : State) : Prop where
  history : s.history <+: t.history
  closed  : s.closed = true → t.closed = true

theorem LinkAdvances.refl (s : State) : LinkAdvances s s := ⟨List.prefix_refl _, id⟩

theorem LinkAdvances.trans (h : LinkAdvances s t) (k : LinkAdvances t u) : LinkAdvances s u :=
  ⟨h.history.trans k.history, fun hc => k.closed (h.closed hc)⟩

theorem LinkAdvances.of_eq (hh : t.history = s.history) (hc : t.closed = s.closed) : LinkAdvances s t :=
  ⟨hh ▸ List.prefix_refl _, fun h => hc.trans h⟩

theorem GoesOn.linkAdvances (h : GoesOn g s w u) : LinkAdvances s u := by
  cases h with
  | raised _ => exact .of_eq (by cases w.inPass <;> rfl) (by cases w.inPass <;> rfl)
  | resetEnds _ | ends _ | data _ _ | bytes _ | sends _ _ _ | reads _ | noResponse | passEnds _ _ | delivers _ _ =>
    exact .of_eq rfl rfl

theorem deliver_linkAdvances {a : PortAnswer} (h : deliver a s = some t) : LinkAdvances s t := by
  obtain ⟨x, e, -, hgo⟩ := deliver_goesOn h
  exact .trans (t := x.resume (logEvent e s)) ⟨List.prefix_append _ _, id⟩ hgo.linkAdvances

theorem Begins.linkAdvances (h : Begins r s u) : LinkAdvances s u := by
  cases h with
  | works hgo _ => exact hgo.linkAdvances
  | closes => exact ⟨List.prefix_append _ _, fun _ => rfl⟩
  | searchStarts m alm _ _ => cases m <;> exact .of_eq rfl rfl
  | signals _ | crc _ _ | resets _ _ _ | readsBytes _ _ | searchAdvances _ _ _ _ | searchCompletes _ _ | searchStops =>
    exact .of_eq rfl rfl

theorem writeReg_linkAdvances (reg : Reg) (v : Word) : LinkAdvances s (writeReg reg v s) := by
  cases reg <;> exact .of_eq rfl rfl

theorem Happens.linkAdvances {i : Input} (h : Happens s i t) (hi : i ≠ .hardReset) : LinkAdvances s t := by
  have hdel : ∀ a u v, LinkAdvances s u → deliver a u = some v → LinkAdvances s v :=
    fun _ _ _ h hd => h.trans (deliver_linkAdvances hd)
  have hin : ∀ l u, LinkAdvances s u → LinkAdvances s (withInputs l u) := fun _ _ h => ⟨h.history, h.closed⟩
  cases h with
  | reads w d => exact .of_eq rfl rfl
  | writes v _ _ => exact writeReg_linkAdvances _ v
  | runs _ hr =>
    exact hr.induction hin hdel fun u hu => .trans (t := beginCommand s) (.of_eq rfl rfl) hu.linkAdvances
  | answers a => exact portAnswer_induction hin hdel (.refl s) a
  | resets => exact absurd rfl hi

theorem step_linkAdvances (hi : s.inputs.head? ≠ some .hardReset) (h : step s = .next t) : LinkAdvances s t := by
  obtain ⟨-, rfl⟩ | ⟨i, rest, hs, hh⟩ := step_happens h
  · exact .refl _
  · have hl := hh.linkAdvances (by simpa [hs] using hi)
    exact ⟨hl.history, hl.closed⟩

/-! ### RES -/

/-- From `s` to `u`, where `may` says whether RES may be written on the way: it is written only where the command
ends without an error, and a transaction that is outstanding in `u` is at a work that may write it only if
`may` allows it. -/
structure ResFrame (may : Prop) (s u : State) : Prop where
  res  : u.res = s.res ∨ (may ∧ u.wait = none ∧ u.err = s.err)
  work : ∀ x, u.wait = some x → x.work ≠ .other → may
  err  : u.wait ≠ none → u.err = s.err

theorem ResFrame.ended {may : Prop} (hr : u.res = s.res) (hw : u.wait = none) : ResFrame may s u :=
  ⟨.inl hr, by simp [hw], by simp [hw]⟩

theorem ResFrame.wrote {may : Prop} (hm : may) (hw : u.wait = none) (he : u.err = s.err) : ResFrame may s u :=
  ⟨.inr ⟨hm, hw, he⟩, by simp [hw], by simp [hw]⟩

theorem ResFrame.waits {may : Prop} {x : Wait} (hx : u.wait = some x) (hm : x.work ≠ .other → may)
    (hr : u.res = s.res) (he : u.err = s.err) : ResFrame may s u :=
  ⟨.inl hr, fun _ hy => Option.some.inj (hx.symm.trans hy) ▸ hm, fun _ => he⟩

theorem GoesOn.resFrame (h : GoesOn g s w u) : ResFrame (w ≠ .other) s u := by
  cases h with
  | raised _ => cases w <;> exact .ended rfl rfl
  | ends _ | data _ _ | bytes _ => exact .ended rfl rfl
  | resetEnds _ | noResponse | passEnds _ _ | delivers _ _ => exact .wrote nofun rfl rfl
  | sends _ _ _ | reads _ => exact .waits rfl id rfl rfl

theorem Begins.resFrame (h : Begins r s u) : ResFrame r s u := by
  cases h with
  | works hgo _ =>
    obtain ⟨hres, hwork, herr⟩ := hgo.resFrame
    exact ⟨.inl (by simpa using hres), fun x hx hne => absurd (hwork x hx hne) (by simp), herr⟩
  | crc c hb =>
    obtain hb | hr := hb
    · exact .ended hb rfl
    · exact .wrote hr rfl rfl
  | signals _ | closes | searchStops => exact .ended rfl rfl
  | @resets k _ hk hr =>
    refine .waits rfl (fun hne => hr ?_) rfl rfl
    cases k with
    | reset => rfl
    | pass => exact absurd rfl hk
    | select | skip | readRom => exact absurd rfl hne
  | readsBytes _ _ => exact .waits rfl (fun h => absurd rfl h) rfl rfl
  | searchStarts m alm _ hr => cases m <;> exact .waits rfl (fun _ => hr) rfl rfl
  | searchAdvances _ _ _ hr => exact .waits rfl (fun _ => hr) rfl rfl
  | searchCompletes _ hr => exact .wrote hr rfl rfl

theorem deliver_resFrame {a : PortAnswer} (h : deliver a s = some t) :
    ∃ x, s.wait = some x ∧ ResFrame (x.work ≠ .other) s t := by
  obtain ⟨x, e, hx, hgo⟩ := deliver_goesOn h
  exact ⟨x, hx, ⟨hgo.resFrame.res, hgo.resFrame.work, hgo.resFrame.err⟩⟩

/-- RES is `v`, and what is outstanding is at no work that may write it. -/
def ResStays (v : Bool) (t : State) : Prop := t.res = v ∧ ∀ x, t.wait = some x → x.work = .other

/-- RES is `v` while the command waits, when ERR is 0, and where it has ended with an error. -/
def ResStaysOnError (v : Bool) (t : State) : Prop :=
  (t.wait ≠ none → t.err = false ∧ t.res = v) ∧ (t.err = true → t.res = v)

variable {v : Bool}

theorem ResFrame.stays {may : Prop} (h : ResFrame may s u) (hm : ¬ may) : ResStays s.res u := by
  obtain ⟨hres, hwork, -⟩ := h
  refine ⟨by simpa [hm] using hres, fun x hx => ?_⟩
  by_contra hne
  exact hm (hwork x hx hne)

theorem ResFrame.staysOnError {may : Prop} (h : ResFrame may s u) (he : s.err = false) : ResStaysOnError s.res u := by
  obtain ⟨hres | ⟨-, hw, herr⟩, -, herr'⟩ := h
  · exact ⟨fun hw => ⟨(herr' hw).trans he, hres⟩, fun _ => hres⟩
  · exact ⟨fun h => absurd hw h, fun h => by simp [herr, he] at h⟩

theorem deliver_resStays {a : PortAnswer} (h : ResStays v s) (hd : deliver a s = some t) : ResStays v t := by
  obtain ⟨hres, hwork⟩ := h
  obtain ⟨x, hx, hf⟩ := deliver_resFrame hd
  exact hres ▸ hf.stays fun hne => hne (hwork x hx)

theorem deliver_resStaysOnError {a : PortAnswer} (h : ResStaysOnError v s) (hd : deliver a s = some t) :
    ResStaysOnError v t := by
  obtain ⟨x, hx, hf⟩ := deliver_resFrame hd
  obtain ⟨he, hres⟩ := h.1 (by simp [hx])
  exact hres ▸ hf.staysOnError he

theorem Ran.resStays (h : Ran r s t) (hr : ¬ r) : ResStays s.res t :=
  h.induction (P := ResStays s.res) (fun _ _ h => h) (fun _ _ _ => deliver_resStays) fun _ hu =>
    hu.resFrame.stays hr

theorem Ran.resStaysOnError (h : Ran r s t) : ResStaysOnError s.res t :=
  h.induction (P := ResStaysOnError s.res) (fun _ _ h => h) (fun _ _ _ => deliver_resStaysOnError)
    fun _ hu => hu.resFrame.staysOnError rfl

theorem portAnswer_resStays (h : ResStays v s) (a : PortAnswer) : ResStays v (portAnswer a s) :=
  portAnswer_induction (P := ResStays v) (fun _ _ h => h) (fun _ _ _ => deliver_resStays) h a

theorem portAnswer_resStaysOnError (h : ResStaysOnError v s) (a : PortAnswer) : ResStaysOnError v (portAnswer a s) :=
  portAnswer_induction (P := ResStaysOnError v) (fun _ _ h => h) (fun _ _ _ => deliver_resStaysOnError) h a

/-- A transaction outside every search pass that is not RESET's is at the work `other`. -/
theorem Wait.work_eq_other {x : Wait} (hp : x.inPass = false)
    (hr : ∀ l thr tmo od, x ≠ .txRx l thr tmo od (.linkReset .reset)) : x.work = .other := by
  cases hw : x.work with
  | other => rfl
  | pass => rw [← x.work_inPass, hw] at hp; cases hp
  | reset =>
    obtain ⟨l, thr, tmo, od, rfl⟩ := Wait.work_eq_reset hw
    exact absurd rfl (hr l thr tmo od)

theorem step_port {a : PortAnswer} {rest : List Input} (hi : s.inputs = .port a :: rest) (h : step s = .next t) :
    t = portAnswer a (withInputs rest s) := by
  rw [step_cons hi] at h
  exact (Host.Outcome.next.inj h).symm

end Sys2Proof.Machine

open Sys2Proof.Machine

/-- Settles O26: every answer appends its event, and CLOSE its own. -/
theorem portHistoryOnlyGrows : Obligations.PortHistoryOnlyGrows :=
  fun _ _ hi h => (step_linkAdvances hi h).history

/-- Settles O25: no command and no answer opens the link. -/
theorem closedLastsUntilHardwareReset : Obligations.ClosedLastsUntilHardwareReset :=
  fun _ _ hc hi h => (step_linkAdvances hi h).closed hc

/-- Settles O24: RES is written only where a RESET, a CRC8_ID or a search pass ends without an error. -/
theorem resIsWrittenOnlyByItsCommands : Obligations.ResIsWrittenOnlyByItsCommands := by
  constructor
  · rintro i s t h (hi | he)
    · exact ((exec_ran h).resStays hi).1
    · exact (exec_ran h).resStaysOnError.2 he
  · intro s t a rest hin h
    rw [step_port hin h]
    constructor
    · intro hp hr
      have hwork : ∀ x, s.wait = some x → x.work = .other := fun x hx =>
        Wait.work_eq_other (by simpa [waitIs_some hx] using hp) fun l thr tmo od hx' => hr l thr tmo od (hx' ▸ hx)
      exact (portAnswer_resStays (s := withInputs rest s) ⟨rfl, hwork⟩ a).1
    · intro he
      exact (portAnswer_resStaysOnError (s := withInputs rest s) ⟨fun _ => ⟨he, rfl⟩, fun _ => rfl⟩ a).2

end

section
/-! SUPPORT. The inputs still to come play no part in how a command begins, so an answer that comes late is taken as
if it had stood ready. -/

open Sys2Proof Sys2Proof.Machine Sys2Proof.Spec

namespace Sys2Proof.Machine

variable {s t u v : State} {l rest : List Input}

/-- `res` with other inputs still to come, where it is a next state. -/
def resultWithInputs (l : List Input) : Result → Result
  | .next s => .next (withInputs l s)
  | .fault f => .fault f
  | .refused r => .refused r

/-- The body of a command does the same whatever inputs are still to come, and leaves them. -/
def IgnoresInputs (body : State → Result) : Prop :=
  ∀ l s, body (withInputs l s) = resultWithInputs l (body s)

/-- What `start` begins in `s` is one state `b`, whatever inputs are still to come, and it settles through these. -/
def BeginsAlike (start : State → Result) (s : State) : Prop :=
  ∀ l t, start (withInputs l s) = .next t →
    ∃ b, ∀ l', start (withInputs l' s) = .next (settle (withInputs l' b))

theorem command_beginsAlike {start body : State → Result} (hs : ∀ s, start s = command s body)
    (h : IgnoresInputs body) (s : State) : BeginsAlike start s := by
  intro l t ht
  rw [hs] at ht
  obtain ⟨hb, u, hu, -⟩ := command_next_inv ht
  have hbody : ∀ l', body (beginCommand (withInputs l' s)) = resultWithInputs l' (body (beginCommand s)) :=
    fun l' => h l' (beginCommand s)
  rw [hbody] at hu
  cases hbs : body (beginCommand s) with
  | next b => exact ⟨b, fun l' => (hs _).trans (command_next (by exact hb) (by rw [hbody, hbs]; rfl))⟩
  | fault f => rw [hbs] at hu; cases hu
  | refused r => rw [hbs] at hu; cases hu

theorem resultWithInputs_ite {c : Prop} [Decidable c] {a b a' b' : Result} (ha : a' = resultWithInputs l a)
    (hb : b' = resultWithInputs l b) : (if c then a' else b') = resultWithInputs l (if c then a else b) := by
  split
  · exact ha
  · exact hb

theorem withInputs_ite {c : Prop} [Decidable c] {a b a' b' : State} (ha : a' = withInputs l a)
    (hb : b' = withInputs l b) : (if c then a' else b') = withInputs l (if c then a else b) := by
  split
  · exact ha
  · exact hb

theorem requireOpen_ignoresInputs {body : State → State}
    (h : ∀ l s, body (withInputs l s) = withInputs l (body s)) :
    IgnoresInputs fun s => .next (requireOpen s body) :=
  fun l s => congrArg Host.Outcome.next (withInputs_ite (c := s.closed = true) rfl (h l s))

theorem searchInit_withInputs (m : SearchMode) (alm : Bool) (l : List Input) (s : State) :
    searchInit m alm (withInputs l s) = withInputs l (searchInit m alm s) := by cases m <;> rfl

theorem searchAdvance_withInputs (skip : Bool) (l : List Input) (s : State) :
    searchAdvance skip (withInputs l s) = withInputs l (searchAdvance skip s) :=
  withInputs_ite (c := (if skip then s.lufb else s.lub) = -1) rfl rfl

/-- An operand that is read from DATABUF does not depend on the inputs. -/
theorem bytesOperand_withInputs (l : List Input) (s : State) (n : Nat) :
    bytesOperand (withInputs l s) n = bytesOperand s n := rfl

/-- An operand that is read from SIGBUF does not depend on the inputs. -/
theorem signalsOperand_withInputs (l : List Input) (s : State) (k n : Nat) :
    signalsOperand (withInputs l s) k n = signalsOperand s k n := rfl

theorem execEncWrite_beginsAlike (n : Nat) (s : State) : BeginsAlike (execEncWrite n) s := by
  refine command_beginsAlike (fun _ => rfl) (fun l s => ?_) s
  refine resultWithInputs_ite ?_ ?_ <;> rfl

theorem execEncRead_beginsAlike (n : Nat) (s : State) : BeginsAlike (execEncRead n) s := by
  refine command_beginsAlike (fun _ => rfl) (fun l s => ?_) s
  refine resultWithInputs_ite ?_ ?_ <;> rfl

theorem execClose_beginsAlike (s : State) : BeginsAlike execClose s := by
  refine command_beginsAlike (fun _ => rfl) (fun l s => ?_) s
  refine resultWithInputs_ite ?_ ?_ <;> rfl

theorem execSearchStop_beginsAlike (s : State) : BeginsAlike execSearchStop s := by
  refine command_beginsAlike (fun _ => rfl) (fun l s => ?_) s
  refine resultWithInputs_ite ?_ ?_ <;> rfl

theorem execCrc8Id_beginsAlike (s : State) : BeginsAlike execCrc8Id s := by
  refine command_beginsAlike (fun _ => rfl) (fun l s => ?_) s
  rfl

theorem execEncWriteBytes_beginsAlike (n : Nat) (s : State) : BeginsAlike (execEncWriteBytes n) s := by
  refine command_beginsAlike (fun _ => rfl) (fun l s => ?_) s
  refine resultWithInputs_ite ?_ ?_
  · rfl
  · rw [bytesOperand_withInputs]
    cases bytesOperand s n <;> rfl

theorem execCrc8Bytes_beginsAlike (n : Nat) (s : State) : BeginsAlike (execCrc8Bytes n) s := by
  refine command_beginsAlike (fun _ => rfl) (fun l s => ?_) s
  refine resultWithInputs_ite ?_ ?_
  · rfl
  · rw [bytesOperand_withInputs]
    cases bytesOperand s n <;> rfl

theorem execWriteBytes_beginsAlike (pwr : Bool) (n : Nat) (s : State) : BeginsAlike (execWriteBytes pwr n) s := by
  refine command_beginsAlike (fun _ => rfl) (fun l s => ?_) s
  refine resultWithInputs_ite ?_ (resultWithInputs_ite ?_ ?_)
  · rfl
  · rfl
  · rw [bytesOperand_withInputs]
    cases bytesOperand s n with
    | error f => rfl
    | ok bs => exact congrArg Host.Outcome.next (afterWrite_withInputs (.writeBytes bs) l (setOpenDrain (!pwr) s))

theorem execDecode_beginsAlike (n : Nat) (s : State) : BeginsAlike (execDecode n) s := by
  refine command_beginsAlike (fun _ => rfl) (fun l s => ?_) s
  refine resultWithInputs_ite ?_ (resultWithInputs_ite ?_ ?_)
  · rfl
  · rfl
  · rw [signalsOperand_withInputs, show fromOperand (withInputs l s) = fromOperand s from rfl]
    cases signalsOperand s (fromOperand s) (2 * n) with
    | error f => rfl
    | ok sl => cases h : decode sl 0 n <;> simp only [h] <;> rfl

theorem execDecodeBytes_beginsAlike (n : Nat) (s : State) : BeginsAlike (execDecodeBytes n) s := by
  refine command_beginsAlike (fun _ => rfl) (fun l s => ?_) s
  refine resultWithInputs_ite ?_ (resultWithInputs_ite ?_ (resultWithInputs_ite ?_ ?_))
  · rfl
  · rfl
  · rfl
  · rw [signalsOperand_withInputs, show fromOperand (withInputs l s) = fromOperand s from rfl]
    cases signalsOperand s (16 * fromOperand s) (16 * n) with
    | error f => rfl
    | ok sl => cases h : decodeBytes sl 0 n <;> simp only [h] <;> rfl

/-- A link command whose body, with the link open, is `body`. -/
theorem requireOpen_beginsAlike {start : State → Result} {body : State → State}
    (hs : ∀ s, start s = command s fun s => .next (requireOpen s body))
    (h : ∀ l s, body (withInputs l s) = withInputs l (body s)) (s : State) : BeginsAlike start s :=
  command_beginsAlike hs (requireOpen_ignoresInputs h) s

theorem searchStart_beginsAlike (m : SearchMode) (alm : Bool) (s : State) : BeginsAlike (searchStart m alm) s := by
  refine command_beginsAlike (fun _ => rfl) (fun l s => ?_) s
  refine resultWithInputs_ite ?_ ?_
  · rfl
  · exact requireOpen_ignoresInputs (fun l s => congrArg searchStep (searchInit_withInputs m alm l s)) l s

theorem searchAnswer_beginsAlike (skip : Bool) (s : State) : BeginsAlike (searchAnswer skip) s := by
  refine command_beginsAlike (fun _ => rfl) (fun l s => ?_) s
  refine resultWithInputs_ite ?_ ?_
  · exact requireOpen_ignoresInputs (searchAdvance_withInputs skip) l s
  · rfl

/-- How an instruction begins does not depend on the inputs still to come. -/
theorem exec_beginsAlike (i : Instr) (s : State) : BeginsAlike (exec i) s := by
  cases i with
  | encWrite n => exact execEncWrite_beginsAlike n s
  | encRead n => exact execEncRead_beginsAlike n s
  | close => exact execClose_beginsAlike s
  | searchStop => exact execSearchStop_beginsAlike s
  | crc8Id => exact execCrc8Id_beginsAlike s
  | encWriteBytes n => exact execEncWriteBytes_beginsAlike n s
  | decode n => exact execDecode_beginsAlike n s
  | decodeBytes n => exact execDecodeBytes_beginsAlike n s
  | writeBytes pwr n => exact execWriteBytes_beginsAlike pwr n s
  | crc8Bytes n => exact execCrc8Bytes_beginsAlike n s
  | searchStartPlain alm => exact searchStart_beginsAlike .plain alm s
  | searchStartFamily alm => exact searchStart_beginsAlike .family alm s
  | searchStartPing => exact searchStart_beginsAlike .ping false s
  | searchNext => exact searchAnswer_beginsAlike false s
  | searchSkipFamily => exact searchAnswer_beginsAlike true s
  | writeBits pwr n | readBits n | readBytes n =>
    refine requireOpen_beginsAlike (fun _ => rfl) (fun l s => ?_) s
    refine withInputs_ite ?_ (withInputs_ite ?_ ?_) <;> rfl
  | reset | select | skip | readRom | setPower pwr | romMatch | romSkip | romSearch | romRead | romSearchAlarm =>
    refine requireOpen_beginsAlike (fun _ => rfl) (fun l s => ?_) s
    rfl

/-! ### Answers taken and answers still to come -/

/-- Where all of `l` is taken, what stands behind `l` is taken from there. -/
theorem settle_append {l m : List Input} {s u : State} (h : settle (withInputs l s) = u) (hu : u.inputs = []) :
    settle (withInputs (l ++ m) s) = settle (withInputs m u) := by
  induction l generalizing s with
  | nil =>
    rw [← h]
    rfl
  | cons i l ih =>
    have htaken : settle (withInputs (i :: l) s) ≠ withInputs (i :: l) s := by
      rintro hs
      rw [h] at hs
      rw [hs] at hu
      cases hu
    cases i with
    | port a =>
      cases hd : deliver a s with
      | none =>
        have hnone : deliver a (withInputs (.port a :: l) s) = none := by rw [deliver_withInputs, hd]; rfl
        exact absurd (settle_of_deliver rfl hnone) htaken
      | some b =>
        have htake : ∀ l', settle (withInputs (.port a :: l') s) = settle (withInputs l' b) := fun l' =>
          settle_cons (s := withInputs (.port a :: l') s) rfl (by
            rw [withInputs_withInputs, deliver_withInputs, hd]; rfl)
        rw [htake] at h
        rw [List.cons_append, htake]
        exact ih h
    | read _ _ | write _ _ _ | hardReset | rom _ => exact absurd (settle_of_inputs (by simp)) htaken

/-- An answer that is taken has the effect it has when it comes late. -/
theorem step_late {a : PortAnswer} (h : (settle (withInputs (.port a :: rest) u)).inputs.length ≤ rest.length) :
    step (withInputs (.port a :: rest) u) = .next (settle (withInputs (.port a :: rest) u)) := by
  rw [step_cons (rest := rest) rfl]
  show Host.Outcome.next (portAnswer a (withInputs rest u)) = _
  unfold portAnswer
  cases hd : deliver a (withInputs rest u) with
  | some b => rw [settle_cons (s := withInputs (.port a :: rest) u) rfl hd]
  | none =>
    have hu : deliver a (withInputs (.port a :: rest) u) = none := by
      rw [deliver_withInputs] at hd ⊢
      simpa using hd
    rw [settle_of_deliver rfl hu] at h
    simp at h

end Sys2Proof.Machine

open Sys2Proof.Machine

/-- Settles O27: the command begins alike whatever is to come, and takes its answers one by one. -/
theorem lateAnswerHasTheSameEffect : Obligations.LateAnswerHasTheSameEffect := by
  intro i s u v a l rest hu hin hv hlen
  obtain ⟨b, hb⟩ := exec_beginsAlike i s l u hu
  have hul : settle (withInputs l b) = u := Host.Outcome.next.inj ((hb l).symm.trans hu)
  have hvl : settle (withInputs (.port a :: rest) u) = v :=
    (settle_append hul hin).symm.trans (Host.Outcome.next.inj ((hb _).symm.trans hv))
  rw [← hvl] at hlen ⊢
  exact step_late hlen

end

section
/-! SUPPORT. What the register words are as numbers, and the host's accesses. -/

open Sys2Proof Sys2Proof.Machine Sys2Proof.Spec

namespace Sys2Proof.Machine

variable {s : State} {rest : List Input}

/-! ### The register words as numbers -/

theorem append_toNat {m n : Nat} (x : BitVec m) (y : BitVec n) : (x ++ y).toNat = x.toNat * 2 ^ n + y.toNat := by
  rw [BitVec.toNat_append, ← Nat.shiftLeft_add_eq_or_of_lt y.isLt, Nat.shiftLeft_eq]

@[simp] theorem bit_toNat (b : Bool) : (bit b).toNat = b.toNat := BitVec.toNat_ofBool b

@[simp] theorem ErrKind.code_toNat (e : ErrKind) : e.code.toNat = errNumber e := by cases e <;> rfl

@[simp] theorem SearchMode.code_toNat (m : SearchMode) : m.code.toNat = modeNumber m := by cases m <;> rfl

theorem statusWord_toNat (s : State) : (statusWord s).toNat =
    s.busy.toNat + 2 * s.err.toNat + 4 * s.res.toNat + 8 * s.idrdy.toNat + 16 * s.sact.toNat +
      32 * s.closed.toNat + 64 * s.openDrain.toNat + 256 * errNumber s.ecode := by
  simp only [statusWord, append_toNat, bit_toNat, ErrKind.code_toNat]
  simp
  omega

theorem srch0Word_toNat (s : State) : (srch0Word s).toNat =
    (s.lub % 256).toNat + 256 * (s.lufb % 256).toNat + 65536 * (s.plub % 256).toNat := by
  simp only [srch0Word, append_toNat, branchByte, BitVec.toNat_ofInt]
  simp
  omega

theorem srch1Word_toNat (s : State) : (srch1Word s).toNat =
    s.sfam.toNat + 256 * s.salm.toNat + 512 * modeNumber s.smode := by
  simp only [srch1Word, append_toNat, bit_toNat, SearchMode.code_toNat]
  simp
  omega

theorem paramsWord_toNat (h : s.cfg.wf) : (paramsWord s).toNat = s.cfg.sigbufEntries + 65536 * s.cfg.databufBytes := by
  obtain ⟨-, h1, -, -, h2, -⟩ := h
  simp only [paramsWord, append_toNat, BitVec.toNat_ofNat]
  omega

theorem signalWord_toNat (sg : Signal) : (signalWord sg).toNat = 65536 * sg.level.toNat + sg.period.toNat := by
  simp only [signalWord, append_toNat, bit_toNat]
  simp
  omega

theorem zeroExtended_toNat {n : Nat} (m : Nat) (x : BitVec n) : ((0 : BitVec m) ++ x).toNat = x.toNat := by
  simp

theorem lowHalf_toNat (v : Long) : (v.extractLsb' 0 32).toNat = v.toNat % 2 ^ 32 := by simp

theorem highHalf_toNat (v : Long) : (v.extractLsb' 32 32).toNat = v.toNat / 2 ^ 32 := by
  rw [BitVec.extractLsb'_toNat, Nat.shiftRight_eq_div_pow]
  omega

/-! ### The words right after reset (10_state R55) -/

theorem statusWord_resetWith (c : Config) (l : List Input) (d : Nat) : statusWord (State.resetWith c l d) = 0x40 := by
  simp [statusWord, State.resetWith, ErrKind.code]

theorem srch0Word_resetWith (c : Config) (l : List Input) (d : Nat) :
    srch0Word (State.resetWith c l d) = 0x00FFFFFF := by
  have hbytes : (-1 % 256 : Int).toNat + 256 * (-1 % 256 : Int).toNat + 65536 * (-1 % 256 : Int).toNat = 16777215 := by
    decide
  have hword : (srch0Word (State.resetWith c l d)).toNat = 16777215 := (srch0Word_toNat _).trans hbytes
  exact BitVec.eq_of_toNat_eq (hword.trans (by decide))

theorem srch1Word_resetWith (c : Config) (l : List Input) (d : Nat) : srch1Word (State.resetWith c l d) = 0 := by
  simp [srch1Word, SearchMode.code, State.resetWith]

/-! ### Host reads -/

/-- STATUS reads as its flags whatever BUSY is (70 R351). -/
theorem step_read_status (hi : s.inputs = .read (s.cfg.owcBase + 4) 4 :: rest) :
    step s = .next { s with inputs := rest, rdata := statusWord s } := by
  rw [step_cons hi]
  simp only [stepInput, hostRead, withInputs_cfg, accessReg_at s.cfg (off := 4) (by decide) (by decide)]
  rw [if_neg fun h => h.2.1 rfl]
  rfl

/-- A host read while BUSY = 0 of a register that has a value. -/
theorem step_read_ok {off : Nat} {w : Word} (hb : s.busy = false) (h : off < 0x2000) (ha : off % 4 = 0)
    (hi : s.inputs = .read (s.cfg.owcBase + off) 4 :: rest)
    (hr : readReg (regAt s.cfg off) (withInputs rest s) = .ok w) :
    step s = .next { s with inputs := rest, rdata := w } := by
  rw [step_read hb h ha hi, hr]

/-- A host read while BUSY = 0 that finds no value. -/
theorem step_read_error {off : Nat} {f : Fault} (hb : s.busy = false) (h : off < 0x2000) (ha : off % 4 = 0)
    (hi : s.inputs = .read (s.cfg.owcBase + off) 4 :: rest)
    (hr : readReg (regAt s.cfg off) (withInputs rest s) = .error f) : step s = .fault f := by
  rw [step_read hb h ha hi, hr]

theorem eq_ofNat_of_toNat {n k : Nat} {w : BitVec n} (h : w.toNat = k) : w = BitVec.ofNat n k := by
  rw [← h, BitVec.ofNat_toNat, BitVec.setWidth_eq]

/-- Each single register other than STATUS reads as its number. -/
theorem readReg_registerReads (hc : s.cfg.wf) {off n : Nat} (h : (off, n) ∈ registerReads s) :
    off < 0x2000 ∧ off % 4 = 0 ∧
      ∃ w : Word, readReg (regAt s.cfg off) (withInputs rest s) = .ok w ∧ w.toNat = n := by
  simp only [registerReads, List.mem_cons, Prod.mk.injEq, List.not_mem_nil, or_false] at h
  rcases h with ⟨rfl, rfl⟩ | ⟨rfl, rfl⟩ | ⟨rfl, rfl⟩ | ⟨rfl, rfl⟩ | ⟨rfl, rfl⟩ | ⟨rfl, rfl⟩ | ⟨rfl, rfl⟩ | ⟨rfl, rfl⟩ |
    ⟨rfl, rfl⟩ | ⟨rfl, rfl⟩ | ⟨rfl, rfl⟩ | ⟨rfl, rfl⟩
  · exact ⟨by decide, by decide, 0, rfl, rfl⟩
  · exact ⟨by decide, by decide, _, rfl, lowHalf_toNat _⟩
  · exact ⟨by decide, by decide, _, rfl, highHalf_toNat _⟩
  · exact ⟨by decide, by decide, _, rfl, zeroExtended_toNat 16 _⟩
  · exact ⟨by decide, by decide, _, rfl, zeroExtended_toNat 16 _⟩
  · exact ⟨by decide, by decide, _, rfl, zeroExtended_toNat 16 _⟩
  · exact ⟨by decide, by decide, _, rfl, zeroExtended_toNat 24 _⟩
  · exact ⟨by decide, by decide, _, rfl, srch0Word_toNat s⟩
  · exact ⟨by decide, by decide, _, rfl, srch1Word_toNat s⟩
  · exact ⟨by decide, by decide, _, rfl, lowHalf_toNat _⟩
  · exact ⟨by decide, by decide, _, rfl, highHalf_toNat _⟩
  · exact ⟨by decide, by decide, _, rfl, paramsWord_toNat hc⟩

/-- The first byte of a list is its word's lowest (20_memory R64). -/
theorem wordOfBytes_cons_toNat (b : Byte) {bs : List Byte} (h : (wordOfBytes bs).toNat < 2 ^ 24) :
    (wordOfBytes (b :: bs)).toNat = b.toNat + 256 * (wordOfBytes bs).toNat := by
  have hb := b.isLt
  have hor := Nat.shiftLeft_add_eq_or_of_lt hb (wordOfBytes bs).toNat
  rw [Nat.shiftLeft_eq] at hor
  simp only [wordOfBytes, List.foldr_cons] at h hor ⊢
  rw [BitVec.toNat_or, BitVec.toNat_shiftLeft, Nat.shiftLeft_eq, Nat.mod_eq_of_lt (by omega), BitVec.toNat_setWidth,
    Nat.mod_eq_of_lt (a := b.toNat) (by omega), ← hor]
  omega

theorem wordOfBytes_toNat (b0 b1 b2 b3 : Byte) : (wordOfBytes [b0, b1, b2, b3]).toNat =
    b0.toNat + 256 * b1.toNat + 65536 * b2.toNat + 16777216 * b3.toNat := by
  have h3 : (wordOfBytes [b3]).toNat = b3.toNat := wordOfBytes_cons_toNat b3 (bs := []) (by decide)
  have h2 := wordOfBytes_cons_toNat b2 (bs := [b3]) (by omega)
  have h1 := wordOfBytes_cons_toNat b1 (bs := [b2, b3]) (by omega)
  have h0 := wordOfBytes_cons_toNat b0 (bs := [b1, b2, b3]) (by omega)
  omega

theorem databufWord_ok {i : Nat} {b0 b1 b2 b3 : Byte} (h0 : bufRead i s.databuf = some b0)
    (h1 : bufRead (i + 1) s.databuf = some b1) (h2 : bufRead (i + 2) s.databuf = some b2)
    (h3 : bufRead (i + 3) s.databuf = some b3) : databufWord s i = .ok (wordOfBytes [b0, b1, b2, b3]) := by
  simp [databufWord, bufReadList, h0, h1, h2, h3, Except.map, Except.mapError]

theorem databufWord_error {i j : Nat} (h1 : i ≤ j) (h2 : j < i + 4) (h : bufRead j s.databuf = none)
    (hk : ∀ k, i ≤ k → k < j → bufRead k s.databuf ≠ none) : databufWord s i = .error (.databufNoValue j) := by
  rw [databufWord, bufReadList_error.mpr ⟨h1, h2, h, fun k hik hkj => Option.isSome_iff_ne_none.mpr (hk k hik hkj)⟩]
  rfl

/-! ### Host writes -/

theorem loHalf_written_toNat (d : Long) (v : Word) :
    (d.extractLsb' 32 32 ++ v : Long).toNat = d.toNat / 2 ^ 32 * 2 ^ 32 + v.toNat := by
  rw [append_toNat, highHalf_toNat]

theorem hiHalf_written_toNat (d : Long) (v : Word) :
    (v ++ d.extractLsb' 0 32 : Long).toNat = v.toNat * 2 ^ 32 + d.toNat % 2 ^ 32 := by
  rw [append_toNat, lowHalf_toNat]

theorem extractLow_eq (n : Nat) (v : Word) : v.extractLsb' 0 n = BitVec.ofNat n v.toNat := by
  apply BitVec.eq_of_toNat_eq
  simp

/-- Byte `j` of a word (20_memory R64). -/
theorem bytesOfWord_get (v : Word) {j : Nat} (h : j < 4) :
    (bytesOfWord v)[j]? = some (BitVec.ofNat 8 (v.toNat / 256 ^ j)) := by
  have hb : ∀ k, v.extractLsb' k 8 = BitVec.ofNat 8 (v.toNat / 2 ^ k) := fun k =>
    BitVec.eq_of_toNat_eq (by rw [BitVec.extractLsb'_toNat, Nat.shiftRight_eq_div_pow, BitVec.toNat_ofNat])
  interval_cases j <;> simp [bytesOfWord, hb]

/-- The read-only registers ignore a write. -/
theorem writeReg_readOnly {c : Config} {off : Nat} (h : readOnlyOffset off) (v : Word) :
    off < 0x2000 ∧ off % 4 = 0 ∧ regAt c off ≠ .cmd ∧ writeReg (regAt c off) v s = s := by
  simp only [readOnlyOffset, List.mem_cons, List.not_mem_nil, or_false] at h
  rcases h with rfl | rfl | rfl | rfl | rfl | rfl | rfl | rfl <;>
    exact ⟨by decide, by decide, nofun, rfl⟩

end Sys2Proof.Machine

open Sys2Proof.Machine

/-- Settles O9: `statusWord` as a number. -/
theorem statusReadShowsTheFlags : Obligations.StatusReadShowsTheFlags :=
  fun s _ hi => ⟨_, step_read_status hi, statusWord_toNat s⟩

/-- Settles O10: register by register. -/
theorem registerReadsShowTheState : Obligations.RegisterReadsShowTheState := by
  intro s off n rest hb hc hn hi
  obtain ⟨hlt, ha, w, hr, hw⟩ := readReg_registerReads hc hn
  rw [step_read_ok hb hlt ha hi hr, eq_ofNat_of_toNat hw]

/-- Settles O11: the entry, the four bytes, the first of them without a value, and a reserved offset. -/
theorem bufferReadsShowTheEntries : Obligations.BufferReadsShowTheEntries := by
  intro s off rest hb hc hi
  obtain ⟨-, hsig, -, -, hdata, hdata4⟩ := id hc
  refine ⟨?_, ?_, ?_, ?_, ?_⟩
  · rintro i sg hlt rfl hv
    rw [step_read_ok hb (by omega) (by omega) hi (w := signalWord sg) (by simp [regAt_sigbuf hlt, readReg, hv]),
      eq_ofNat_of_toNat (signalWord_toNat sg)]
  · rintro i hlt rfl hv
    exact step_read_error hb (by omega) (by omega) hi (by simp [regAt_sigbuf hlt, readReg, hv])
  · rintro i b0 b1 b2 b3 ha hlt rfl h0 h1 h2 h3
    rw [step_read_ok hb (by omega) (by omega) hi (by rw [regAt_databuf hc hlt]; exact databufWord_ok h0 h1 h2 h3),
      eq_ofNat_of_toNat (wordOfBytes_toNat b0 b1 b2 b3)]
  · rintro i j ha hlt rfl hij hj hv hk
    exact step_read_error hb (by omega) (by omega) hi (by
      rw [regAt_databuf hc hlt]; exact databufWord_error hij hj hv hk)
  · rintro ⟨ha, hr⟩
    exact step_read_ok hb (by omega) ha hi (by rw [regAt_reserved ha hr]; rfl)

/-- Settles O13: register by register. -/
theorem registerWritesStoreTheirValue : Obligations.RegisterWritesStoreTheirValue := by
  intro s off v rest hb hc hi
  refine ⟨?_, ?_, ?_, ?_, ?_⟩
  · rintro rfl
    exact ⟨_, step_write hb (by decide) (by decide) (by simp [regAt]) hi, loHalf_written_toNat _ _⟩
  · rintro rfl
    exact ⟨_, step_write hb (by decide) (by decide) (by simp [regAt]) hi, hiHalf_written_toNat _ _⟩
  · rintro rfl
    rw [← extractLow_eq]
    exact step_write hb (by decide) (by decide) (by simp [regAt]) hi
  · rintro rfl
    rw [← extractLow_eq]
    exact step_write hb (by decide) (by decide) (by simp [regAt]) hi
  · rintro (hro | ⟨ha, hres⟩)
    · obtain ⟨hlt, ha, hne, hw⟩ := writeReg_readOnly (s := withInputs rest s) (c := s.cfg) hro v
      rw [step_write hb hlt ha hne hi, hw]
      rfl
    · have hr := regAt_reserved ha hres
      rw [step_write hb (by omega) ha (by rw [hr]; nofun) hi, hr]
      rfl

/-- Settles O14: a read after a write, at the keys written and elsewhere. -/
theorem bufferWritesStoreTheirEntries : Obligations.BufferWritesStoreTheirEntries := by
  intro s off v rest hb hc hi
  obtain ⟨-, hsig, -, -, hdata, -⟩ := id hc
  constructor
  · rintro i hlt rfl
    have hr := regAt_sigbuf hlt
    refine ⟨_, step_write hb (by omega) (by omega) (by rw [hr]; nofun) hi, ?_⟩
    rw [hr]
    refine ⟨rfl, ?_, fun j hj => bufRead_bufWrite_ne hj _ _⟩
    rw [← extractLow_eq]
    exact bufRead_bufWrite_same _ _ _
  · rintro i ha hlt rfl
    have hr := regAt_databuf hc hlt
    refine ⟨_, step_write hb (by omega) (by omega) (by rw [hr]; nofun) hi, ?_⟩
    rw [hr]
    refine ⟨rfl, fun j hj => ?_, fun j hj => bufRead_bufWriteList_outside hj _⟩
    rw [← bytesOfWord_get v hj]
    exact (bufRead_bufWriteList_inside (vs := bytesOfWord v) hj _).trans (List.getElem?_eq_getElem hj).symm

/-- Settles O6: a code that decodes is started by `exec`. -/
theorem stepRunsTheDecodedInstruction : Obligations.StepRunsTheDecodedInstruction := by
  refine ⟨fun s w i rest hb hi hd => ?_, fun s b i rest hi hd => ?_, fun s => step_nil⟩
  · rw [step_cons hi]
    exact (hostWrite_cmd (s := withInputs rest s) hb w).trans (startCode_ok (c := .cmd w) hd _)
  · rw [step_cons hi]
    exact startCode_ok (c := .rom b) hd _

/-- Settles O15: each value is the one that R55 states. -/
theorem resetLeavesTheResetValues : Obligations.ResetLeavesTheResetValues := by
  intro c l d
  simp only [statusWord_resetWith, srch0Word_resetWith, srch1Word_resetWith]
  simp [State.resetWith, bufRead, PortSetup.atReset]

end

section
/-! SUPPORT. The accesses that name no register (20_memory R65). -/

open Sys2Proof Sys2Proof.Machine

namespace Sys2Proof.Machine

variable {s : State} {addr width : Nat} {f : Fault}

/-- An access that names no register: the fault of the first check that fails (20_memory R65; log 13). -/
theorem accessReg_error {c : Config} :
    accessReg c addr width = .error f ↔
      (width ≠ 4 ∧ f = .accessWidth) ∨
      (width = 4 ∧ (addr < c.owcBase ∨ c.owcBase + 0x2000 ≤ addr) ∧ f = .outsideBlock) ∨
      (width = 4 ∧ c.owcBase ≤ addr ∧ addr < c.owcBase + 0x2000 ∧ (addr - c.owcBase) % 4 ≠ 0 ∧
        f = .accessMisaligned) := by
  unfold accessReg
  split
  case isTrue hw => simp [hw, eq_comm]
  case isFalse hw =>
    rw [not_not] at hw
    split
    case isTrue hout =>
      have hin : ¬(c.owcBase ≤ addr ∧ addr < c.owcBase + 0x2000) := by omega
      simp [hw, hout, ← and_assoc, hin, eq_comm]
    case isFalse hin =>
      have hbounds : c.owcBase ≤ addr ∧ addr < c.owcBase + 0x2000 := by omega
      split
      case isTrue ha => simp [hw, hin, hbounds, ha, eq_comm]
      case isFalse ha => simp [hw, hin, ha]

/-- A host read that names no register faults before BUSY is looked at. -/
theorem hostRead_error (h : accessReg s.cfg addr width = .error f) : hostRead addr width s = .fault f := by
  simp [hostRead, h]

/-- A host write that names no register faults before BUSY is looked at. -/
theorem hostWrite_error (h : accessReg s.cfg addr width = .error f) (v : Word) :
    hostWrite addr width v s = .fault f := by
  simp [hostWrite, h]

end Sys2Proof.Machine

open Sys2Proof.Machine

/-- Settles O8: the access names no register, so neither a read nor a write reaches its look at BUSY. -/
theorem badAccessFaults : Obligations.BadAccessFaults := by
  intro s addr width v rest f hbad hi
  have hreg : accessReg s.cfg addr width = .error f := accessReg_error.mpr hbad
  rcases hi with hi | hi
  · exact (step_cons hi).trans (hostRead_error (s := withInputs rest s) hreg)
  · exact (step_cons hi).trans (hostWrite_error (s := withInputs rest s) hreg v)

end

section
/-! SUPPORT. Which command words are legal (30_encoding R105, R106, R108), and how the encoder and the decoder undo
each other. -/

open Sys2Proof Sys2Proof.Spec

namespace Sys2Proof

variable {f : CmdFields} {w : Word} {i : Instr}

/-! ### The encoder and the decoder -/

/-- The word of a command decodes to the instruction of its row when every field that the row leaves unused is 0
(30_encoding R106). -/
theorem decodeCode_cmdWord {op : BitVec 8} {p a : Bool} {m : BitVec 2} {n : Nat} (hop : op ∈ cmdOps)
    (hp : p = true → op ∈ pwrOps) (hs : op = 0x40 ∨ (a = false ∧ m = 0)) (hn : op ∈ countOps ∨ n = 0)
    (h : instrOf ⟨op, p, a, m, 0, BitVec.ofNat 8 n, 0⟩ = .ok i) : decodeCode (cmdWord op p a m n) = .ok i := by
  refine decodeCmd_ok.mpr ?_
  rw [cmdFields_toWord]
  exact ⟨rfl, rfl, hop, hp, hs, hn.imp_right fun h0 => by rw [h0]; rfl, h⟩

/-- What the encoder writes, the decoder reads back: a row with a COUNT keeps it because it is below 256, and the other
rows have no field to lose. -/
theorem decodeCode_encode (h : i.WellFormed) : decodeCode (encode i) = .ok i := by
  cases i with
  | romMatch | romSkip | romSearch | romRead | romSearchAlarm => rfl
  | encWrite n | encWriteBytes n | encRead n | decode n | decodeBytes n | writeBits p n | writeBytes p n | readBits n
  | readBytes n | crc8Bytes n =>
    have hn : n % 256 = n := Nat.mod_eq_of_lt h
    refine decodeCode_cmdWord (by decide) ?_ (by decide) (.inl (by decide)) ?_
    · simp [pwrOps]
    · simp [instrOf, hn]
  | reset | setPower p | close | crc8Id | select | skip | readRom | searchStartPlain a | searchStartFamily a
  | searchStartPing | searchNext | searchSkipFamily | searchStop =>
    refine decodeCode_cmdWord (by decide) ?_ (by simp) (.inr rfl) ?_
    · simp [pwrOps]
    · simp [instrOf]

/-- Fields that pass the checks of 30_encoding R106 are those of the word that encodes their instruction: each row takes
the fields it uses, and the others are 0. -/
theorem encode_instrOf (hlow : f.low = 0) (hhigh : f.high = 0) (hp : f.pwr = true → f.op ∈ pwrOps)
    (hs : f.op = 0x40 ∨ (f.alm = false ∧ f.smode = 0)) (hn : f.op ∈ countOps ∨ f.count = 0)
    (h : instrOf f = .ok i) : i.WellFormed ∧ encode i = .cmd f.toWord := by
  have hword : Code.cmd f.toWord = cmdWord f.op f.pwr f.alm f.smode f.count.toNat := by
    simp [cmdWord, ← hlow, ← hhigh]
  have hpwr : f.op ∉ pwrOps → f.pwr = false := fun h => by simpa using mt hp h
  have hsearch : f.op ≠ 0x40 → f.alm = false ∧ f.smode = 0 := hs.resolve_left
  have hcount : f.op ∉ countOps → f.count = 0 := hn.resolve_left
  have hlt : f.count.toNat < 256 := f.count.isLt
  rw [hword]
  rcases instrOf_ok h with ⟨hop, rfl⟩ | ⟨hop, rfl⟩ | ⟨hop, rfl⟩ | ⟨hop, rfl⟩ | ⟨hop, rfl⟩ | ⟨hop, rfl⟩ | ⟨hop, rfl⟩ |
    ⟨hop, rfl⟩ | ⟨hop, rfl⟩ | ⟨hop, rfl⟩ | ⟨hop, rfl⟩ | ⟨hop, rfl⟩ | ⟨hop, rfl⟩ | ⟨hop, rfl⟩ | ⟨hop, rfl⟩ | ⟨hop, rfl⟩ |
    ⟨hop, rfl⟩ | ⟨⟨hop, hm⟩, rfl⟩ | ⟨⟨hop, hm⟩, rfl⟩ | ⟨⟨hop, hm, ha⟩, rfl⟩ | ⟨hop, rfl⟩ | ⟨hop, rfl⟩ | ⟨hop, rfl⟩
  -- In each row the OP is known, and with it which of PWR, ALM, SMODE and COUNT are 0.
  all_goals simp_all [Instr.count, encode, pwrOps, countOps]

/-- A command word that decodes to `i` is the one that encodes `i`. -/
theorem encode_of_decodeCmd (h : decodeCmd w = .ok i) : i.WellFormed ∧ encode i = .cmd w := by
  obtain ⟨hlow, hhigh, -, hp, hs, hn, hi⟩ := decodeCmd_ok.mp h
  rw [← toWord_cmdFields w]
  exact encode_instrOf hlow hhigh hp hs hn hi

/-- A byte that decodes to `i` is the one that encodes `i` (43_rom R230). -/
theorem encode_of_decodeRom {b : Byte} (h : decodeRom b = .ok i) : i.WellFormed ∧ encode i = .rom b := by
  unfold decodeRom at h
  iterate 5
    obtain ⟨rfl, rfl⟩ | h := ite_ok h
    · exact ⟨by decide, rfl⟩
  cases h

/-! ### The legal command words -/

/-- The fields of a legal command word: none of the lines of 30_encoding R105 is met. -/
structure CmdFields.Legal (f : CmdFields) : Prop where
  low    : f.low = 0
  high   : f.high = 0
  op     : f.op ∈ cmdOps
  pwr    : f.pwr = true → f.op ∈ pwrOps
  search : f.op = 0x40 ∨ (f.alm = false ∧ f.smode = 0)
  count  : f.op ∈ countOps ∨ f.count = 0
  mode   : f.op = 0x40 → f.smode ≠ 3 ∧ (f.smode = 2 → f.alm = false)

/-- An `if` whose first branch is an instruction answers one there or in its second. -/
theorem exists_ite_ok {c : Prop} [Decidable c] {x : Instr} {e : Except Reject Instr} :
    (∃ i, (if c then .ok x else e) = .ok i) ↔ c ∨ ∃ i, e = .ok i := by
  by_cases h : c <;> simp [h]

/-- The three rows of SEARCH_START are the combinations of SMODE and ALM that 30_encoding R103 allows. -/
theorem searchStart_modes : ∀ (m : BitVec 2) (a : Bool),
    (m = 0 ∨ m = 1 ∨ m = 2 ∧ a = false) ↔ (m ≠ 3 ∧ (m = 2 → a = false)) := by
  decide

/-- Some row of 30_encoding R104 takes the fields `f`. -/
theorem exists_instrOf : (∃ i, instrOf f = .ok i) ↔
    f.op ∈ cmdOps ∧ (f.op = 0x40 → f.smode ≠ 3 ∧ (f.smode = 2 → f.alm = false)) := by
  by_cases hs : f.op = 64#8
  · have hrows : (∃ i, instrOf f = .ok i) ↔ (f.smode = 0 ∨ f.smode = 1 ∨ f.smode = 2 ∧ f.alm = false) := by
      simp [instrOf, exists_ite_ok, hs]
    rw [hrows, searchStart_modes]
    simp [hs, cmdOps]
  · simp [instrOf, exists_ite_ok, hs, cmdOps]

/-- A word is some command exactly when its fields are legal. -/
theorem exists_decodeCmd : (∃ i, decodeCmd w = .ok i) ↔ (cmdFields w).Legal := by
  simp only [decodeCmd_ok, exists_and_left, exists_instrOf]
  constructor
  · rintro ⟨hlow, hhigh, hop, hp, hs, hn, -, hm⟩
    exact ⟨hlow, hhigh, hop, hp, hs, hn, hm⟩
  · rintro ⟨hlow, hhigh, hop, hp, hs, hn, hm⟩
    exact ⟨hlow, hhigh, hop, hp, hs, hn, hop, hm⟩

/-! ### The list of R105 as fields -/

theorem cmdFields_op_toNat (w : Word) : (cmdFields w).op.toNat = w.toNat % 256 := by simp [cmdFields]

theorem cmdFields_smode_toNat (w : Word) : (cmdFields w).smode.toNat = w.toNat / 1024 % 4 := by
  simp [cmdFields, Nat.shiftRight_eq_div_pow]

theorem cmdFields_low_toNat (w : Word) : (cmdFields w).low.toNat = w.toNat / 4096 % 16 := by
  simp [cmdFields, Nat.shiftRight_eq_div_pow]

theorem cmdFields_count_toNat (w : Word) : (cmdFields w).count.toNat = w.toNat / 65536 % 256 := by
  simp [cmdFields, Nat.shiftRight_eq_div_pow]

theorem cmdFields_high_toNat (w : Word) : (cmdFields w).high.toNat = w.toNat / 16777216 := by
  have hlt : w.toNat / 16777216 < 256 := by omega
  simp [cmdFields, Nat.shiftRight_eq_div_pow, Nat.mod_eq_of_lt hlt]

/-- The list of R105, which `illegal` states of the word as a number, states the same of its fields. -/
theorem illegal_iff_fields (hf : cmdFields w = f) :
    illegal w ↔ f.low ≠ 0 ∨ f.high ≠ 0 ∨ f.op ∉ cmdOps ∨ (f.pwr = true ∧ f.op ∉ pwrOps) ∨
      ((f.alm = true ∨ f.smode ≠ 0) ∧ f.op ≠ 0x40) ∨ (f.count ≠ 0 ∧ f.op ∉ countOps) ∨
      (f.op = 0x40 ∧ (f.smode = 3 ∨ (f.smode = 2 ∧ f.alm = true))) := by
  have hmem {x : BitVec 8} {l : List (BitVec 8)} : x.toNat ∈ l.map BitVec.toNat ↔ x ∈ l :=
    List.mem_map_of_injective fun _ _ => BitVec.eq_of_toNat_eq
  subst hf
  simp only [← hmem, ← BitVec.toNat_inj, ne_eq, cmdFields_op_toNat, cmdFields_smode_toNat, cmdFields_low_toNat,
    cmdFields_count_toNat, cmdFields_high_toNat]
  rfl

/-- A word is illegal exactly when its fields are not legal. -/
theorem illegal_iff : illegal w ↔ ¬ (cmdFields w).Legal := by
  rw [illegal_iff_fields rfl]
  generalize cmdFields w = f
  constructor
  · rintro h ⟨hlow, hhigh, hop, hp, hs, hn, hm⟩
    rcases h with h | h | h | ⟨h, hu⟩ | ⟨h, hu⟩ | ⟨h, hu⟩ | ⟨h, hu⟩
    · exact h hlow
    · exact h hhigh
    · exact h hop
    · exact hu (hp h)
    · simp [hs.resolve_left hu] at h
    · exact h (hn.resolve_left hu)
    · exact hu.elim (hm h).1 fun ⟨h2, ha⟩ => by simp [(hm h).2 h2] at ha
  · contrapose!
    rintro ⟨hlow, hhigh, hop, hp, hs, hn, hm⟩
    refine ⟨hlow, hhigh, hop, hp, ?_, or_iff_not_imp_right.mpr hn, fun h => (hm h).imp_right fun h2 hm => ?_⟩
    · by_cases h : f.alm = true ∨ f.smode ≠ 0
      · exact .inl (hs h)
      · exact .inr (by simpa using h)
    · simpa using h2 hm

/-! ### The rows of the opcode table -/

/-- The OP and SMODE of each command row of spec/opcode_table.json, in its order: SEARCH_START has a row for each of its
three modes (30_encoding R104, R108). -/
def cmdRows : List (BitVec 8 × BitVec 2) :=
  cmdOps.flatMap fun op => if op = 0x40 then [(op, 0), (op, 1), (op, 2)] else [(op, 0)]

/-- The match of a row: its OP and SMODE, every other bit 0. -/
def rowMatch (op : BitVec 8) (m : BitVec 2) : Word := CmdFields.toWord ⟨op, false, false, m, 0, 0, 0⟩

/-- The mask of a row: every bit but those of the operands it uses. -/
def rowMask (op : BitVec 8) (m : BitVec 2) : Word :=
  CmdFields.toWord ⟨0xFF, decide (op ∉ pwrOps), decide ¬(op = 0x40 ∧ m ≠ 2), 3, 0xF,
    if op ∈ countOps then 0 else 0xFF, 0xFF⟩

/-- The two are the table's. -/
theorem commandRows_eq : commandRows = cmdRows.map fun r => (rowMatch r.1 r.2, rowMask r.1 r.2) := by decide

/-- The fields fit a row: its OP and SMODE, and 0 in every field it does not use. -/
structure CmdFields.Fits (f : CmdFields) (o : BitVec 8) (m : BitVec 2) : Prop where
  op    : f.op = o
  smode : f.smode = m
  pwr   : f.pwr = true → o ∈ pwrOps
  alm   : f.alm = true → o = 0x40 ∧ m ≠ 2
  count : o ∈ countOps ∨ f.count = 0
  low   : f.low = 0
  high  : f.high = 0

/-- The fields of a bitwise and. -/
theorem cmdFields_and (w v : Word) : cmdFields (w &&& v) =
    { op := (cmdFields w).op &&& (cmdFields v).op, pwr := (cmdFields w).pwr && (cmdFields v).pwr,
      alm := (cmdFields w).alm && (cmdFields v).alm, smode := (cmdFields w).smode &&& (cmdFields v).smode,
      low := (cmdFields w).low &&& (cmdFields v).low, count := (cmdFields w).count &&& (cmdFields v).count,
      high := (cmdFields w).high &&& (cmdFields v).high } := by
  simp [cmdFields, BitVec.extractLsb'_and]

/-- A word matches a row exactly when its fields fit it. -/
theorem and_rowMask_eq_rowMatch {op : BitVec 8} {m : BitVec 2} :
    w &&& rowMask op m = rowMatch op m ↔ (cmdFields w).Fits op m := by
  have hfields : w &&& rowMask op m = rowMatch op m ↔ cmdFields (w &&& rowMask op m) = cmdFields (rowMatch op m) :=
    ⟨congrArg _, cmdFields_injective⟩
  rw [hfields, cmdFields_and, rowMask, rowMatch, cmdFields_toWord, cmdFields_toWord]
  generalize cmdFields w = f
  have hop (x : BitVec 8) : x &&& 0xFF = x := BitVec.and_allOnes
  have hlow (x : BitVec 4) : x &&& 0xF = x := BitVec.and_allOnes
  have hmode (x : BitVec 2) : x &&& 0x3 = x := BitVec.and_allOnes
  have hcount : (f.count &&& if op ∈ countOps then 0 else 0xFF) = 0 ↔ op ∈ countOps ∨ f.count = 0 := by
    by_cases hc : op ∈ countOps
    · simp [hc]
    · rw [if_neg hc, hop]
      simp [hc]
  have hflag (x : Bool) (p : Prop) [Decidable p] : (x && decide ¬p) = false ↔ (x = true → p) := by simp
  simp only [CmdFields.mk.injEq, hop, hlow, hmode, hcount, hflag]
  constructor
  · rintro ⟨hop, hp, ha, hm, hl, hn, hh⟩
    exact ⟨hop, hm, hp, ha, hn, hl, hh⟩
  · rintro ⟨hop, hm, hp, ha, hn, hl, hh⟩
    exact ⟨hop, hp, ha, hm, hl, hn, hh⟩

/-- Which OP and SMODE have a row. -/
theorem mem_cmdRows {op : BitVec 8} {m : BitVec 2} :
    (op, m) ∈ cmdRows ↔ op ∈ cmdOps ∧ (op = 0x40 ∨ m = 0) ∧ (op = 0x40 → m ≠ 3) := by
  have hmodes : ∀ m : BitVec 2, (m = 0#2 ∨ m = 1#2 ∨ m = 2#2) ↔ m ≠ 3#2 := by decide
  have hrow (o : BitVec 8) : (op, m) ∈ (if o = 0x40 then [(o, 0), (o, 1), (o, 2)] else [(o, 0)]) ↔
      op = o ∧ (o = 0x40 ∨ m = 0) ∧ (o = 0x40 → m ≠ 3) := by
    by_cases ho : o = 64#8
    · simp [ho, ← and_or_left, hmodes]
    · simp [ho]
  simp only [cmdRows, List.mem_flatMap, hrow]
  constructor
  · rintro ⟨o, ho, rfl, h⟩
    exact ⟨ho, h⟩
  · rintro ⟨ho, h⟩
    exact ⟨op, ho, rfl, h⟩

/-- The legal fields are those that fit a row. -/
theorem legal_iff_fits : f.Legal ↔ ∃ r ∈ cmdRows, f.Fits r.1 r.2 := by
  constructor
  · rintro ⟨hlow, hhigh, hop, hp, hs, hn, hm⟩
    refine ⟨(f.op, f.smode), mem_cmdRows.mpr ⟨hop, hs.imp_right And.right, fun h => (hm h).1⟩,
      ⟨rfl, rfl, hp, fun ha => ?_, hn, hlow, hhigh⟩⟩
    have h40 : f.op = 0x40 := hs.resolve_right (by simp [ha])
    exact ⟨h40, fun h2 => by simp [(hm h40).2 h2] at ha⟩
  · rintro ⟨⟨op, m⟩, hr, rfl, rfl, hp, ha, hn, hlow, hhigh⟩
    obtain ⟨hop, hs, hm⟩ := mem_cmdRows.mp hr
    refine ⟨hlow, hhigh, hop, hp, ?_, hn, fun h => ⟨hm h, fun h2 => Bool.eq_false_iff.mpr fun h1 => (ha h1).2 h2⟩⟩
    by_cases h40 : f.op = 0x40
    · exact .inl h40
    · exact .inr ⟨Bool.eq_false_iff.mpr fun h1 => h40 (ha h1).1, hs.resolve_left h40⟩

/-- A word is legal exactly when it matches a row of the opcode table. -/
theorem legal_iff_matches : (cmdFields w).Legal ↔ ∃ r ∈ commandRows, w &&& r.2 = r.1 := by
  simp [legal_iff_fits, commandRows_eq, and_rowMask_eq_rowMatch]

end Sys2Proof

/-- Settles O1: row by row, the fields that the encoder writes pass the decoder's checks. -/
theorem decodeOfEncodeIsTheInstruction : Obligations.DecodeOfEncodeIsTheInstruction :=
  fun _ h => decodeCode_encode h

/-- Settles O2: a legal word holds nothing but its OP and the fields that its row uses. -/
theorem encodeOfDecodeIsTheCode : Obligations.EncodeOfDecodeIsTheCode := by
  intro c i h
  cases c with
  | cmd w => exact encode_of_decodeCmd h
  | rom b => exact encode_of_decodeRom h

/-- Settles O3: a word that matches a row has the row's OP and SMODE, and no two rows share these. -/
theorem legalWordMatchesExactlyOneRow : Obligations.LegalWordMatchesExactlyOneRow := by
  refine ⟨fun w => exists_decodeCmd.trans legal_iff_matches, fun w r hr r' hr' h h' => ?_⟩
  rw [commandRows_eq, List.mem_map] at hr hr'
  obtain ⟨q, -, rfl⟩ := hr
  obtain ⟨q', -, rfl⟩ := hr'
  rw [and_rowMask_eq_rowMatch] at h h'
  obtain ⟨hop, hm, -⟩ := h
  obtain ⟨hop', hm', -⟩ := h'
  rw [← hop, ← hm, ← hop', ← hm']

/-- Settles O4: the decoder computes each of the ten. -/
theorem sampleWordsDecode : Obligations.SampleWordsDecode := by
  unfold Obligations.SampleWordsDecode
  decide

end

section
/-! SUPPORT. The commands that end at once with an error (60_exceptions R304, R305). -/

open Sys2Proof Sys2Proof.Machine Sys2Proof.Spec

namespace Sys2Proof.Machine

variable {s : State} {e : ErrKind} {i : Instr}

/-- An error raised before a command has written anything: at rest, only ERR and ECODE change. -/
theorem raise_beginCommand (hq : Quiet s) (e : ErrKind) : raise e (beginCommand s) = failed e s := by
  obtain ⟨hbusy, hwait, hphase⟩ := hq
  simp [raise, finish, beginCommand, hbusy, hwait, hphase]

/-- A command whose body ends at once with an error changes only ERR and ECODE. -/
theorem command_raise {start body : State → Result} (hs : ∀ t, start t = command t body) (hq : Quiet s)
    (h : body (beginCommand s) = .next (raise e (beginCommand s))) : start s = .next (failed e s) := by
  rw [hs, command_next hq.1 h, settle_of_wait rfl, raise_beginCommand hq]

theorem illegalWord_of_quiet (hq : Quiet s) : illegalWord s = .next (failed .illegalCommand s) :=
  command_raise (fun _ => rfl) hq rfl

/-- A word that is not legal decodes to nothing and is refused (30_encoding R105). -/
theorem startCode_of_not_legal {w : Word} (hq : Quiet s) (h : ¬ (cmdFields w).Legal) :
    startCode (.cmd w) s = .next (failed .illegalCommand s) := by
  cases hw : decodeCmd w with
  | ok i => exact absurd (exists_decodeCmd.mp ⟨i, hw⟩) h
  | error r => exact (startCode_error (c := .cmd w) hw s).trans (illegalWord_of_quiet hq)

/-- A count or a length out of range ends the command before it writes anything; a command that needs the link has found
it open. No search command has a count, so the check of the search state plays no part. -/
theorem exec_countRefuses (hq : Quiet s) (ho : needsOpen i = true → s.closed = false)
    (hc : countRefuses i s = true) : exec i s = .next (failed .invalidArgument s) := by
  cases i with
  | encWrite n | encWriteBytes n | encRead n | decode n | decodeBytes n | crc8Bytes n =>
    simp only [exec]
    refine command_raise (fun _ => rfl) hq ?_
    exact if_pos (of_decide_eq_true hc)
  | writeBits p n | readBits n | readBytes n =>
    simp only [exec]
    refine command_raise (fun _ => rfl) hq (congrArg Host.Outcome.next ?_)
    rw [requireOpen_open (s := beginCommand s) (ho rfl)]
    exact if_pos (of_decide_eq_true hc)
  | writeBytes p n =>
    have hopen : ¬ (beginCommand s).closed = true := by simp [ho rfl]
    simp only [exec]
    refine command_raise (fun _ => rfl) hq ?_
    exact (if_neg hopen).trans (if_pos (of_decide_eq_true hc))
  | reset | setPower | close | crc8Id | select | skip | readRom | searchStartPlain | searchStartFamily
  | searchStartPing | searchNext | searchSkipFamily | searchStop | romMatch | romSkip | romSearch | romRead
  | romSearchAlarm => cases hc

end Sys2Proof.Machine

open Sys2Proof.Machine

/-- Settles O5: an illegal word has no legal fields, so it decodes to nothing. -/
theorem illegalWordIsRefused : Obligations.IllegalWordIsRefused := by
  refine ⟨fun s w rest hq hi hill => ?_, fun w hw => exists_decodeCmd.mpr (by simpa [illegal_iff] using hw)⟩
  calc step s = hostWrite s.cfg.owcBase 4 w (withInputs rest s) := step_cons hi
    _ = startCode (.cmd w) (withInputs rest s) := hostWrite_cmd (s := withInputs rest s) hq.1 w
    _ = .next (failed .illegalCommand { s with inputs := rest }) := startCode_of_not_legal hq (illegal_iff.mp hill)

/-- Settles O21: whatever the command, its count is checked before it writes anything. -/
theorem countOutOfRangeRefuses : Obligations.CountOutOfRangeRefuses :=
  fun _ _ hq _ ho hc => exec_countRefuses hq ho hc

end

section
/-! SUPPORT. How encoding and decoding undo each other, bit by bit and byte by byte (40_codec R147, R155, R158). -/

open Sys2Proof Sys2Proof.Machine Sys2Proof.Spec

namespace Sys2Proof.Machine

variable {n : Nat} {l : List Signal} {lo hi : Nat → Signal}

/-- The value whose low `n` bits are 1, bit by bit. -/
theorem lowOnes_getLsbD (n : Nat) {k : Nat} (hk : k < 64) :
    (BitVec.ofNat 64 (2 ^ n - 1)).getLsbD k = decide (k < n) := by
  rw [BitVec.getLsbD_ofNat, Nat.testBit_two_pow_sub_one, decide_eq_true hk, Bool.true_and]

theorem byteBit_setWidth (b : Byte) {j : Nat} (hj : j < 8) : (b.setWidth 64).getLsbD j = b.getLsbD j := by
  rw [BitVec.getLsbD_setWidth, decide_eq_true (by omega), Bool.true_and]

/-- A write slot's low is below the decoder's threshold exactly for a 1 (R140, R146). -/
theorem lowOf_decodes (b : Bool) : decide ((lowOf b).toNat < 14) = b := by cases b <;> rfl

/-- Encoded bits decode to themselves, and to 0 above the last (R155). -/
theorem decode_encodeWrite (v : Long) (n : Nat) :
    decode (encodeWrite v n) 0 n = some (v &&& BitVec.ofNat 64 (2 ^ n - 1)) := by
  obtain ⟨w, hw, hbits⟩ := decode_pairs (l := encodeWrite v n) (start := 0) (n := n)
    (lo := fun k => .low (lowOf (v.getLsbD k))) (hi := fun k => .high (highOf (v.getLsbD k)))
    (fun k hk => by rw [Nat.zero_add]; exact ⟨encodeWrite_low hk, encodeWrite_high hk, rfl, rfl⟩) (by simp)
  rw [hw, Option.some.injEq]
  refine BitVec.eq_of_getLsbD_eq fun k hk => ?_
  rw [hbits k hk, BitVec.getLsbD_and, lowOnes_getLsbD n hk, lowOf_decodes, Bool.and_comm]

/-- Read slots that nobody answers decode to ones (R158). -/
theorem decode_encodeRead (n : Nat) : decode (encodeRead n) 0 n = some (BitVec.ofNat 64 (2 ^ n - 1)) := by
  obtain ⟨w, hw, hbits⟩ := decode_pairs (l := encodeRead n) (start := 0) (n := n)
    (lo := fun _ => .low 6) (hi := fun _ => .high 69)
    (fun k hk => by rw [Nat.zero_add]; exact ⟨(encodeRead_get hk).1, (encodeRead_get hk).2, rfl, rfl⟩) (by simp)
  rw [hw, Option.some.injEq]
  refine BitVec.eq_of_getLsbD_eq fun k hk => ?_
  rw [hbits k hk, lowOnes_getLsbD n hk]
  exact Bool.and_true _

/-- decode_bytes of a list of the pairs `lo k`, `hi k`: bit `j` of byte `k` is what the low of pair `8 k + j` gives. -/
theorem decodeBytes_pairs
    (h : ∀ k, k < 8 * n → l[2 * k]? = some (lo k) ∧ l[2 * k + 1]? = some (hi k) ∧ (lo k).level = false ∧
      (hi k).level = true) (hlen : 16 * n ≤ l.length) :
    ∃ bs, decodeBytes l 0 n = some bs ∧ bs.length = n ∧ ∀ k, k < n → ∃ b : Byte, bs[k]? = some b ∧
      ∀ j, j < 8 → b.getLsbD j = decide ((lo (8 * k + j)).period.toNat < 14) := by
  have hbyte (k : Fin n) := decode_pairs (l := l) (start := (0 + k) * 16) (n := 8)
    (lo := fun j => lo (8 * k + j)) (hi := fun j => hi (8 * k + j))
    (fun j hj => by
      rw [show (0 + k.val) * 16 + 2 * j = 2 * (8 * k + j) by omega]
      exact h _ (by omega)) (by omega)
  choose v hv hbits using hbyte
  refine ⟨List.ofFn fun k => (v k).setWidth 8, ?_, List.length_ofFn, fun k hk => ⟨(v ⟨k, hk⟩).setWidth 8, ?_, ?_⟩⟩
  · exact decodeBytes_some.mpr ⟨List.length_ofFn, fun k hk => ⟨v ⟨k, hk⟩, hv ⟨k, hk⟩, by simp [hk]⟩⟩
  · simp [hk]
  · intro j hj
    rw [BitVec.getLsbD_setWidth, hbits ⟨k, hk⟩ j (by omega)]
    simp [hj]

/-- A list that does not decode to `8 n` bits does not decode to `n` bytes. -/
theorem undecodable_decodeBytes (h : undecodable l (8 * n)) : decodeBytes l 0 n = none := by
  by_contra hne
  obtain ⟨bs, hbs⟩ := Option.ne_none_iff_exists'.mp hne
  obtain ⟨-, hbyte⟩ := decodeBytes_some.mp hbs
  rcases h with hshort | ⟨k, sg, hk, hsg⟩
  · obtain ⟨v, hv, -⟩ := hbyte (n - 1) (by omega)
    have hfits := (decode_some.mp hv).1
    omega
  · obtain ⟨v, hv, -⟩ := hbyte (k / 8) (by omega)
    obtain ⟨-, _, -, -, hpairs⟩ := decode_some.mp hv
    obtain ⟨lo, hi, hlo, hhi, hlow, hhigh, -⟩ := hpairs (k % 8) (by omega)
    rw [show (0 + k / 8) * 16 + 2 * (k % 8) = 2 * k by omega] at hlo hhi
    rcases hsg with ⟨hsg, hlevel⟩ | ⟨hsg, hlevel⟩
    · cases hlo.symm.trans hsg
      simp [hlow] at hlevel
    · cases hhi.symm.trans hsg
      simp [hhigh] at hlevel

end Sys2Proof.Machine

open Sys2Proof.Machine

/-- Settles O28: each slot decodes to its bit, and there is none above the last. -/
theorem codecRoundTrip : Obligations.CodecRoundTrip := fun v n _ => decode_encodeWrite v n

/-- Settles O29: each read slot decodes to a 1. -/
theorem readStimulusShapeAndDecoding : Obligations.ReadStimulusShapeAndDecoding :=
  ⟨fun n => ⟨encodeRead_length n, fun _ hk => encodeRead_get hk⟩, fun n _ => decode_encodeRead n⟩

end

section
/-! SUPPORT. The codec commands at rest: the operands they read, what they store, and how each ends (40_codec
R149-R154). -/

open Sys2Proof Sys2Proof.Machine Sys2Proof.Spec

namespace Sys2Proof.Machine

variable {s t : State} {n m a : Nat} {l : List Signal} {bs : List Byte} {lo hi : Nat → Signal}

/-! ### Operands read from SIGBUF, and what a store leaves in it -/

@[simp] theorem signalsOperand_beginCommand (s : State) (a n : Nat) :
    signalsOperand (beginCommand s) a n = signalsOperand s a n := rfl

@[simp] theorem bytesOperand_beginCommand (s : State) (n : Nat) :
    bytesOperand (beginCommand s) n = bytesOperand s n := rfl

/-- Entries that all have a value can be read as an operand. -/
theorem exists_signalsOperand (h : ∀ i, a ≤ i → i < a + n → bufRead i s.sigbuf ≠ none) :
    ∃ l, signalsOperand s a n = .ok l := by
  cases hr : bufReadList s.sigbuf a n with
  | ok l => exact ⟨l, by rw [signalsOperand, hr]; rfl⟩
  | error j =>
    obtain ⟨haj, hjn, hnone, -⟩ := bufReadList_error.mp hr
    exact absurd hnone (h j haj hjn)

/-- The entries of a pair of SIGBUF, read as an operand. -/
theorem signalsOperand_pair (hl : signalsOperand s a (2 * m) = .ok l) {k : Nat} (hk : k < m) :
    l[2 * k]? = bufRead (a + 2 * k) s.sigbuf ∧ l[2 * k + 1]? = bufRead (a + 2 * k + 1) s.sigbuf := by
  obtain ⟨-, hget⟩ := signalsOperand_ok.mp hl
  exact ⟨(hget _ (by omega)).symm, (hget (2 * k + 1) (by omega)).symm⟩

/-- Pairs that SIGBUF holds from `a` on, read as an operand. -/
theorem signalsOperand_pairs
    (h : ∀ k, k < m → bufRead (a + 2 * k) s.sigbuf = some (lo k) ∧ bufRead (a + 2 * k + 1) s.sigbuf = some (hi k) ∧
      (lo k).level = false ∧ (hi k).level = true) :
    ∃ l, signalsOperand s a (2 * m) = .ok l ∧ l.length = 2 * m ∧ ∀ k, k < m →
      l[2 * k]? = some (lo k) ∧ l[2 * k + 1]? = some (hi k) ∧ (lo k).level = false ∧ (hi k).level = true := by
  have hvalue (i : Nat) (hai : a ≤ i) (him : i < a + 2 * m) : bufRead i s.sigbuf ≠ none := by
    obtain ⟨hlo, hhi, -⟩ := h ((i - a) / 2) (by omega)
    obtain hi | hi : i = a + 2 * ((i - a) / 2) ∨ i = a + 2 * ((i - a) / 2) + 1 := by omega
    · rw [hi, hlo]; nofun
    · rw [hi, hhi]; nofun
  obtain ⟨l, hl⟩ := exists_signalsOperand hvalue
  refine ⟨l, hl, (signalsOperand_ok.mp hl).1, fun k hk => ?_⟩
  obtain ⟨hlo, hhi⟩ := signalsOperand_pair hl hk
  rw [hlo, hhi]
  exact h k hk

/-- A pair of SIGBUF with a wrong level makes the operand undecodable. -/
theorem undecodable_signalsOperand (hl : signalsOperand s a (2 * m) = .ok l)
    (hbad : ∃ k sg, k < m ∧ ((bufRead (a + 2 * k) s.sigbuf = some sg ∧ sg.level = true) ∨
      (bufRead (a + 2 * k + 1) s.sigbuf = some sg ∧ sg.level = false))) : undecodable l m := by
  obtain ⟨k, sg, hk, hsg⟩ := hbad
  obtain ⟨hlo, hhi⟩ := signalsOperand_pair hl hk
  rw [← hlo, ← hhi] at hsg
  exact .inr ⟨k, sg, hk, hsg⟩

theorem storeSignals_read_inside {i : Nat} {sg : Signal} (h : l[i]? = some sg) (s : State) :
    bufRead i (storeSignals l s).sigbuf = some sg := by
  obtain ⟨hi, -⟩ := List.getElem?_eq_some_iff.mp h
  rw [storeSignals_read, if_pos hi, h]

theorem storeSignals_read_outside {i : Nat} (h : l.length ≤ i) (s : State) :
    bufRead i (storeSignals l s).sigbuf = bufRead i s.sigbuf := by
  rw [storeSignals_read, if_neg (by omega)]

/-! ### The codec commands, past their count checks -/

/-- A command whose body ends at once at rest: BUSY, the phase and what is outstanding are as before. -/
theorem command_finish {start body : State → Result} (hs : ∀ t, start t = command t body) (hq : Quiet s)
    (hid : t.idrdy = s.idrdy) (h : body (beginCommand s) = .next (finish t)) :
    start s = .next { t with busy := s.busy, phase := s.phase, wait := s.wait } := by
  obtain ⟨hbusy, hwait, hphase⟩ := hq
  rw [hs, command_next hbusy h, settle_of_wait rfl, hbusy, hwait, hphase, ← hid]
  rfl

/-- A command whose body stops at a fault stops with it. -/
theorem command_stop {start body : State → Result} {f : Fault} (hs : ∀ t, start t = command t body) (hq : Quiet s)
    (h : body (beginCommand s) = .fault f) : start s = .fault f :=
  (hs s).trans (command_fault hq.1 h)

/-- ENC_WRITE stores the slots of DATA (R150). -/
theorem exec_encWrite (hq : Quiet s) (hn : n ≤ 64) (hroom : 2 * n ≤ s.cfg.sigbufEntries) :
    exec (.encWrite n) s = .next (storeSignals (encodeWrite s.data n) (ok s)) :=
  command_finish (start := execEncWrite n) (t := storeSignals (encodeWrite s.data n) (beginCommand s)) (fun _ => rfl)
    hq rfl (if_neg (by simp; omega))

/-- ENC_READ stores read slots (R152). -/
theorem exec_encRead (hq : Quiet s) (hroom : 2 * n ≤ s.cfg.sigbufEntries) :
    exec (.encRead n) s = .next (storeSignals (encodeRead n) (ok s)) :=
  command_finish (start := execEncRead n) (t := storeSignals (encodeRead n) (beginCommand s)) (fun _ => rfl) hq rfl
    (if_neg (by simp; omega))

section EncWriteBytes

variable (hq : Quiet s) (hn : n ≤ s.cfg.databufBytes) (hroom : 16 * n ≤ s.cfg.sigbufEntries)

include hq hn hroom

/-- ENC_WRITE_BYTES stores the slots of its operand (R151). -/
theorem exec_encWriteBytes (hbs : bytesOperand s n = .ok bs) :
    exec (.encWriteBytes n) s = .next (storeSignals (encodeWriteBytes bs) (ok s)) := by
  refine command_finish (start := execEncWriteBytes n) (t := storeSignals (encodeWriteBytes bs) (beginCommand s))
    (fun _ => rfl) hq rfl ?_
  simp [hn, hroom, hbs]

/-- ENC_WRITE_BYTES stops where its operand has no value (D32). -/
theorem exec_encWriteBytes_fault {f : Fault} (hf : bytesOperand s n = .error f) :
    exec (.encWriteBytes n) s = .fault f := by
  refine command_stop (start := execEncWriteBytes n) (fun _ => rfl) hq ?_
  simp [hn, hroom, hf]

end EncWriteBytes

section Decode

variable (hq : Quiet s) (hn : n ≤ 64) (hlist : s.sigLen.toNat ≤ s.cfg.sigbufEntries)

include hq hn hlist

/-- DECODE of pairs that do not lie within SIG_LEN (R153). -/
theorem exec_decode_beyond (h : s.sigLen.toNat < s.arg.toNat + 2 * n) :
    exec (.decode n) s = .next (failed .invalidSignal s) := by
  refine command_raise (start := execDecode n) (fun _ => rfl) hq ?_
  simp [hn, hlist, signalCount, fromOperand, h]

/-- DECODE of entries that do not decode (R153), within SIG_LEN or not. -/
theorem exec_decode_invalid (hl : signalsOperand s s.arg.toNat (2 * n) = .ok l) (hv : decode l 0 n = none) :
    exec (.decode n) s = .next (failed .invalidSignal s) := by
  refine command_raise (start := execDecode n) (fun _ => rfl) hq ?_
  simp [hn, hlist, signalCount, fromOperand, hl, hv]

variable (h : s.arg.toNat + 2 * n ≤ s.sigLen.toNat)

include h

/-- DECODE stops at an entry within SIG_LEN that has no value (D32; log 10). -/
theorem exec_decode_fault {f : Fault} (hf : signalsOperand s s.arg.toNat (2 * n) = .error f) :
    exec (.decode n) s = .fault f := by
  refine command_stop (start := execDecode n) (fun _ => rfl) hq ?_
  simp [hn.not_gt, hlist.not_gt, signalCount, fromOperand, h.not_gt, hf]

/-- DECODE writes what its entries decode to (R153). -/
theorem exec_decode {v : Long} (hl : signalsOperand s s.arg.toNat (2 * n) = .ok l) (hv : decode l 0 n = some v) :
    exec (.decode n) s = .next { ok s with data := v } := by
  refine command_finish (start := execDecode n) (t := { beginCommand s with data := v }) (fun _ => rfl) hq rfl ?_
  simp [hn.not_gt, hlist.not_gt, signalCount, fromOperand, h.not_gt, hl, hv]

end Decode

/-- With n = 0 no signal is examined, whatever ARG is (R154). -/
theorem exec_decodeBytes_zero (hq : Quiet s) (hlist : s.sigLen.toNat ≤ s.cfg.sigbufEntries) :
    exec (.decodeBytes 0) s = .next (ok s) := by
  refine command_finish (start := execDecodeBytes 0) (t := beginCommand s) (fun _ => rfl) hq rfl ?_
  simp [hlist, signalCount]

section DecodeBytes

variable (hq : Quiet s) (hn : n ≤ s.cfg.databufBytes) (hlist : s.sigLen.toNat ≤ s.cfg.sigbufEntries) (h0 : n ≠ 0)

include hq hn hlist h0

/-- DECODE_BYTES of pairs that do not lie within SIG_LEN (R154). -/
theorem exec_decodeBytes_beyond (h : s.sigLen.toNat < 16 * (s.arg.toNat + n)) :
    exec (.decodeBytes n) s = .next (failed .invalidSignal s) := by
  refine command_raise (start := execDecodeBytes n) (fun _ => rfl) hq ?_
  simp [hn, hlist, signalCount, fromOperand, h0, h]

/-- DECODE_BYTES of entries that do not decode (R154), within SIG_LEN or not. -/
theorem exec_decodeBytes_invalid (hl : signalsOperand s (16 * s.arg.toNat) (16 * n) = .ok l)
    (hbs : decodeBytes l 0 n = none) : exec (.decodeBytes n) s = .next (failed .invalidSignal s) := by
  refine command_raise (start := execDecodeBytes n) (fun _ => rfl) hq ?_
  simp [hn, hlist, signalCount, fromOperand, h0, hl, hbs]

variable (h : 16 * (s.arg.toNat + n) ≤ s.sigLen.toNat)

include h

/-- DECODE_BYTES stops at an entry within SIG_LEN that has no value (D32; log 10). -/
theorem exec_decodeBytes_fault {f : Fault} (hf : signalsOperand s (16 * s.arg.toNat) (16 * n) = .error f) :
    exec (.decodeBytes n) s = .fault f := by
  refine command_stop (start := execDecodeBytes n) (fun _ => rfl) hq ?_
  simp [hn.not_gt, hlist.not_gt, signalCount, fromOperand, h0, h.not_gt, hf]

/-- DECODE_BYTES stores what its entries decode to (R154). -/
theorem exec_decodeBytes (hl : signalsOperand s (16 * s.arg.toNat) (16 * n) = .ok l)
    (hbs : decodeBytes l 0 n = some bs) :
    exec (.decodeBytes n) s = .next (storeBytes bs (ok s)) := by
  refine command_finish (start := execDecodeBytes n) (t := storeBytes bs (beginCommand s)) (fun _ => rfl) hq rfl ?_
  simp [hn.not_gt, hlist.not_gt, signalCount, fromOperand, h0, h.not_gt, hl, hbs]

end DecodeBytes

end Sys2Proof.Machine

open Sys2Proof.Machine

/-- Settles O30: the entries stored are the slots, and a store leaves those beyond its list. -/
theorem encWriteAndEncReadStoreTheSlots : Obligations.EncWriteAndEncReadStoreTheSlots := by
  intro s n hq hroom
  refine ⟨fun hn => ⟨_, exec_encWrite hq hn hroom, ?_, fun k hk => ⟨?_, ?_⟩, fun i hi => ?_⟩,
    _, exec_encRead hq hroom, ?_, fun k hk => ⟨?_, ?_⟩, fun i hi => ?_⟩
  · rw [← encodeWrite_length s.data n]; rfl
  · exact storeSignals_read_inside (encodeWrite_low hk) _
  · exact storeSignals_read_inside (encodeWrite_high hk) _
  · exact storeSignals_read_outside (by simpa using hi) _
  · rw [← encodeRead_length n]; rfl
  · exact storeSignals_read_inside (encodeRead_get hk).1 _
  · exact storeSignals_read_inside (encodeRead_get hk).2 _
  · exact storeSignals_read_outside (by simpa using hi) _

/-- Settles O31: the slots of byte `k` begin at entry `16 k`; the first byte without a value stops the operand. -/
theorem encWriteBytesStoresTheSlots : Obligations.EncWriteBytesStoresTheSlots := by
  intro s n hq hn hroom
  refine ⟨fun bs hlen hbs => ?_, fun k hk hnone hbefore =>
    exec_encWriteBytes_fault hq hn hroom (bytesOperand_error hk hnone hbefore)⟩
  refine ⟨_, exec_encWriteBytes hq hn hroom (bytesOperand_ok.mpr ⟨hlen, hbs⟩), ?_, fun k j b hk hj hb => ⟨?_, ?_⟩,
    fun i hi => ?_⟩
  · rw [← hlen, ← encodeWriteBytes_length bs]; rfl
  · refine storeSignals_read_inside ((encodeWriteBytes_get hb (by omega)).trans ?_) _
    rw [← byteBit_setWidth b hj]
    exact encodeWrite_low hj
  · refine storeSignals_read_inside ((encodeWriteBytes_get (i := 2 * j + 1) hb (by omega)).trans ?_) _
    rw [← byteBit_setWidth b hj]
    exact encodeWrite_high hj
  · exact storeSignals_read_outside (by simpa [hlen] using hi) _

/-- Settles O32: the operand holds the pairs, and decode gives their bits. -/
theorem decodeReadsTheBits : Obligations.DecodeReadsTheBits := by
  intro s n lo hi hq hn hlist hrange hpairs
  obtain ⟨l, hl, hlen, hget⟩ := signalsOperand_pairs hpairs
  obtain ⟨v, hv, hbits⟩ := decode_pairs (l := l) (start := 0) (n := n) (by simpa using hget) (by omega)
  exact ⟨v, exec_decode hq hn hlist hrange hl hv, hbits⟩

/-- Settles O33: the range is checked first, then the entries are read, then their levels are looked at. -/
theorem decodeRejectsBadSignals : Obligations.DecodeRejectsBadSignals := by
  intro s n hq hn hlist
  refine ⟨exec_decode_beyond hq hn hlist, fun hrange hvalue hbad => ?_, fun i hrange hai hi hnone hbefore =>
    exec_decode_fault hq hn hlist hrange (signalsOperand_error hai hi hnone hbefore)⟩
  obtain ⟨l, hl⟩ := exists_signalsOperand hvalue
  exact exec_decode_invalid hq hn hlist hl (undecodable_decode (undecodable_signalsOperand hl hbad))

/-- Settles O34: no signal is examined for n = 0; else the operand holds the pairs, and decode_bytes gives their
bytes. -/
theorem decodeBytesReadsTheBytes : Obligations.DecodeBytesReadsTheBytes := by
  intro s n lo hi hq hn hlist hrange hpairs
  obtain rfl | h0 := eq_or_ne n 0
  · exact ⟨_, exec_decodeBytes_zero hq hlist, rfl, fun k hk => by omega, fun _ _ => rfl⟩
  obtain ⟨l, hl, hlen, hget⟩ := signalsOperand_pairs hpairs
  rw [← Nat.mul_assoc] at hl
  obtain ⟨bs, hbs, hbsn, hbits⟩ := decodeBytes_pairs hget (by omega)
  refine ⟨_, exec_decodeBytes hq hn hlist h0 (hrange.resolve_left h0) hl hbs, rfl, fun k hk => ?_, fun i hi => ?_⟩
  · obtain ⟨b, hb, hbit⟩ := hbits k hk
    exact ⟨b, by rw [storeBytes_read, if_pos (by omega), hb], hbit⟩
  · rw [storeBytes_read, if_neg (by omega)]

/-- Settles O35: the checks are those of DECODE, over the `8 n` pairs from entry `16 ARG` on. -/
theorem decodeBytesRejectsBadSignals : Obligations.DecodeBytesRejectsBadSignals := by
  intro s n hq hpos hn hlist
  have h0 : n ≠ 0 := by omega
  simp only [Nat.mul_add 16]
  refine ⟨fun h => exec_decodeBytes_beyond hq hn hlist h0 (by omega), fun hrange hvalue hbad => ?_,
    fun i hrange hai hi hnone hbefore =>
      exec_decodeBytes_fault hq hn hlist h0 (by omega) (signalsOperand_error hai hi hnone hbefore)⟩
  obtain ⟨l, hl⟩ := exists_signalsOperand hvalue
  refine exec_decodeBytes_invalid hq hn hlist h0 hl (undecodable_decodeBytes ?_)
  exact undecodable_signalsOperand (by rwa [← Nat.mul_assoc]) hbad

end

section
/-! SUPPORT. The commands that end at once whatever the link is, and the commands that a closed link refuses (41_link
R170). -/

open Sys2Proof Sys2Proof.Machine Sys2Proof.Spec

namespace Sys2Proof.Machine

variable {s t : State} {i : Instr} {e : ErrKind}

/-- With the link closed, the link check ends a command that has written nothing. -/
theorem command_closed {start : State → Result} {body : State → State}
    (hs : ∀ t, start t = command t fun t => .next (requireOpen t body)) (hq : Quiet s) (hc : s.closed = true) :
    start s = .next (failed .busClosed s) :=
  command_raise hs hq (congrArg Host.Outcome.next (requireOpen_closed (s := beginCommand s) hc body))

theorem execWriteBytes_closed (hq : Quiet s) (hc : s.closed = true) (pwr : Bool) (n : Nat) :
    execWriteBytes pwr n s = .next (failed .busClosed s) :=
  command_raise (start := execWriteBytes pwr n) (fun _ => rfl) hq (if_pos hc)

/-- SEARCH_START that its state check lets through comes to the link check (R170, 44_search R261). -/
theorem searchStart_closed (hq : Quiet s) (hc : s.closed = true) (hr : s.sact = false) (m : SearchMode) (alm : Bool) :
    searchStart m alm s = .next (failed .busClosed s) := by
  refine command_raise (start := searchStart m alm) (fun _ => rfl) hq ?_
  simp [hr, requireOpen_closed (s := beginCommand s) hc]

/-- An answer to a delivery that its state check lets through comes to the link check (R170, 44_search R262, R263). -/
theorem searchAnswer_closed (hq : Quiet s) (hc : s.closed = true) (hr : s.idrdy = true) (skip : Bool) :
    searchAnswer skip s = .next (failed .busClosed s) := by
  refine command_raise (start := searchAnswer skip) (fun _ => rfl) hq ?_
  simp [hr, requireOpen_closed (s := beginCommand s) hc]

/-- With the link closed, a command that needs it and has passed its search-state check is refused (R170). -/
theorem exec_closed (hq : Quiet s) (hc : s.closed = true) (hn : needsOpen i = true)
    (hr : searchRefuses i s = false) : exec i s = .next (failed .busClosed s) := by
  cases i with
  | reset | writeBits | readBits | readBytes | setPower | select | skip | readRom =>
    simp only [exec]
    exact command_closed (fun _ => rfl) hq hc
  | writeBytes pwr n => exact execWriteBytes_closed hq hc pwr n
  | searchStartPlain alm | searchStartFamily alm | searchStartPing => exact searchStart_closed hq hc hr _ _
  | searchNext | searchSkipFamily => exact searchAnswer_closed hq hc (by simpa [searchRefuses] using hr) _
  | encWrite | encWriteBytes | encRead | decode | decodeBytes | close | crc8Id | crc8Bytes | searchStop | romMatch
  | romSkip | romSearch | romRead | romSearchAlarm => cases hn

/-- Where `res`, what the body of a command comes to, is a next state, the command has ended there, and not with
BUS_CLOSED. -/
def EndsUnrefused (res : Result) : Prop := ∀ u, res = .next u → u.wait = none ∧ u.ecode ≠ .busClosed

theorem endsUnrefused_fault (f : Fault) : EndsUnrefused (.fault f) := by
  rintro _ ⟨⟩

theorem endsUnrefused_raise (he : e ≠ .busClosed) : EndsUnrefused (.next (raise e s)) := by
  rintro _ ⟨⟩
  exact ⟨rfl, he⟩

theorem endsUnrefused_finish (he : s.ecode ≠ .busClosed) : EndsUnrefused (.next (finish s)) := by
  rintro _ ⟨⟩
  exact ⟨rfl, he⟩

/-- A command whose body ends it has no answer to take. -/
theorem command_ecode_ne_busClosed {body : State → Result} (hb : EndsUnrefused (body (beginCommand s)))
    (h : command s body = .next t) : t.ecode ≠ .busClosed := by
  obtain ⟨-, u, hu, rfl⟩ := command_next_inv h
  obtain ⟨hw, he⟩ := hb u hu
  rwa [settle_of_wait hw]

/-- A command that does not need the link ends at once, and no check of its is the link check (R170). -/
theorem exec_ecode_ne_busClosed (hn : needsOpen i = false) (hrom : isRomByte i = false) (h : exec i s = .next t) :
    t.ecode ≠ .busClosed := by
  cases i with
  | crc8Id =>
    simp only [exec] at h
    refine command_ecode_ne_busClosed ?_ h
    exact endsUnrefused_finish nofun
  | encWrite | encRead =>
    simp only [exec] at h
    refine command_ecode_ne_busClosed ?_ h
    split
    · exact endsUnrefused_raise nofun
    · exact endsUnrefused_finish nofun
  | close =>
    simp only [exec] at h
    refine command_ecode_ne_busClosed ?_ h
    split
    · exact endsUnrefused_finish nofun
    · exact endsUnrefused_finish nofun
  | searchStop =>
    simp only [exec] at h
    refine command_ecode_ne_busClosed ?_ h
    split
    · exact endsUnrefused_finish nofun
    · exact endsUnrefused_raise nofun
  | encWriteBytes | crc8Bytes =>
    simp only [exec] at h
    refine command_ecode_ne_busClosed ?_ h
    split
    · exact endsUnrefused_raise nofun
    · split
      · exact endsUnrefused_fault _
      · exact endsUnrefused_finish nofun
  | decode =>
    simp only [exec] at h
    refine command_ecode_ne_busClosed ?_ h
    split
    · exact endsUnrefused_raise nofun
    · split
      · exact endsUnrefused_raise nofun
      · split
        · exact endsUnrefused_fault _
        · split
          · exact endsUnrefused_raise nofun
          · exact endsUnrefused_finish nofun
  | decodeBytes =>
    simp only [exec] at h
    refine command_ecode_ne_busClosed ?_ h
    split
    · exact endsUnrefused_raise nofun
    · split
      · exact endsUnrefused_finish nofun
      · split
        · exact endsUnrefused_raise nofun
        · split
          · exact endsUnrefused_fault _
          · split
            · exact endsUnrefused_raise nofun
            · exact endsUnrefused_finish nofun
  | reset | writeBits | writeBytes | readBits | readBytes | setPower | select | skip | readRom | searchStartPlain
  | searchStartFamily | searchStartPing | searchNext | searchSkipFamily => cases hn
  | romMatch | romSkip | romSearch | romRead | romSearchAlarm => cases hrom

end Sys2Proof.Machine

open Sys2Proof.Machine

/-- Settles O20: the link check comes before the command has written anything, and only commands that need the link
have it. -/
theorem closedLinkRefuses : Obligations.ClosedLinkRefuses :=
  ⟨fun _ _ => exec_closed, fun _ _ _ => exec_ecode_ne_busClosed⟩

end

section
/-! SUPPORT. The link commands at rest, with the link open and the outcomes of their transactions standing ready
(41_link R171-R185). -/

open Sys2Proof Sys2Proof.Machine Sys2Proof.Spec

namespace Sys2Proof.Machine

variable {s t : State} {rest : List Input} {pwr : Bool} {n : Nat} {cl : List Signal} {lo hi : Nat → Signal}

/-! ### The slots in the statements' words, and the presence -/

theorem encodeWrite_eq_valueSlots (v : Long) (n : Nat) : encodeWrite v n = valueSlots v n := by
  simp [encodeWrite, valueSlots, writeSlot_eq]

theorem encodeRead_eq_readSlots (n : Nat) : encodeRead n = readSlots n := by simp [encodeRead, readSlots, readLow]

/-- Eight slots send the low byte of a value. -/
theorem encodeWrite_lowByte (v : Long) : encodeWrite ((v.setWidth 8).setWidth 64) 8 = encodeWrite v 8 := by
  refine List.flatMap_congr fun i hi => congrArg writeSlot ?_
  have hlt : i < 8 := List.mem_range.mp hi
  rw [byteBit_setWidth _ hlt, BitVec.getLsbD_setWidth, decide_eq_true hlt, Bool.true_and]

theorem resetAnswer_of_showsPresence {o : RxOutcome} (h : showsPresence o) : o ≠ .error ∧ resetAnswer o = true := by
  obtain ⟨cl, rfl, hp⟩ := h
  exact ⟨nofun, presence_true.mpr hp⟩

theorem resetAnswer_of_showsNone {o : RxOutcome} (h : showsNone o) : o ≠ .error ∧ resetAnswer o = false := by
  obtain rfl | ⟨cl, rfl, hp⟩ := h
  · exact ⟨nofun, rfl⟩
  · exact ⟨nofun, Bool.eq_false_iff.mpr fun h => hp (presence_true.mp h)⟩

/-- A list that has all of its first `n` pairs holds `2 n` signals. -/
theorem length_of_pairs
    (h : ∀ k, k < n → cl[2 * k]? = some (lo k) ∧ cl[2 * k + 1]? = some (hi k) ∧ (lo k).level = false ∧
      (hi k).level = true) : 2 * n ≤ cl.length := by
  cases n with
  | zero => omega
  | succ m =>
    obtain ⟨-, hlast, -⟩ := h m (by omega)
    obtain ⟨hlt, -⟩ := List.getElem?_eq_some_iff.mp hlast
    omega

/-! ### A command that ends after its transactions -/

/-- A command that ends at rest leaves BUSY, the phase and what is outstanding as before. -/
theorem finish_rest (hq : Quiet s) (hid : t.idrdy = s.idrdy) :
    finish t = { t with busy := s.busy, phase := s.phase, wait := s.wait } := by
  obtain ⟨hbusy, hwait, hphase⟩ := hq
  rw [hbusy, hwait, hphase, ← hid]
  rfl

/-- A link command with the link open, which ends in `t` once it has taken its answers. -/
theorem command_open {start : State → Result} {body : State → State}
    (hs : ∀ u, start u = command u fun u => .next (requireOpen u body)) (hq : Quiet s) (ho : s.closed = false)
    (hid : t.idrdy = s.idrdy) (h : settle (body (beginCommand s)) = settle (finish t)) :
    start s = .next { t with busy := s.busy, phase := s.phase, wait := s.wait } := by
  calc start s = .next (settle (requireOpen (beginCommand s) body)) := (hs s).trans (command_next hq.1 rfl)
    _ = .next (finish t) := by rw [requireOpen_open (s := beginCommand s) ho, h, settle_of_wait rfl]
    _ = .next { t with busy := s.busy, phase := s.phase, wait := s.wait } := by rw [finish_rest hq hid]

/-- A command without a transaction, with the link open, ends in `t`. -/
theorem command_open_now {start : State → Result} {body : State → State}
    (hs : ∀ u, start u = command u fun u => .next (requireOpen u body)) (hq : Quiet s) (ho : s.closed = false)
    (hid : t.idrdy = s.idrdy) (h : body (beginCommand s) = finish t) :
    start s = .next { t with busy := s.busy, phase := s.phase, wait := s.wait } :=
  command_open hs hq ho hid (congrArg settle h)

/-! ### What a transaction of WRITE_BYTES and of READ_BYTES comes to -/

/-- WRITE_BYTES sends its bytes one after another, in the pin mode it has set (R179). -/
theorem settle_writeBytes {bs : List Byte} (hi : s.inputs = List.replicate bs.length (.port (.tx .ok)) ++ rest) :
    settle (afterWrite (.writeBytes bs) s) = finish { s with
      history := s.history ++ bs.map (fun b => .tx (byteSlots b) s.openDrain .ok), inputs := rest } := by
  induction bs generalizing s with
  | nil =>
    obtain rfl : s.inputs = rest := hi
    simp only [List.map_nil, List.append_nil]
    exact settle_of_wait rfl
  | cons b bs ih =>
    have hnext : s.inputs = .port (.tx .ok) :: (List.replicate bs.length (.port (.tx .ok)) ++ rest) := hi
    calc settle (afterWrite (.writeBytes (b :: bs)) s)
        = settle (afterWrite (.writeBytes bs) (answered (.tx (byteSlots b) s.openDrain .ok)
            (List.replicate bs.length (.port (.tx .ok)) ++ rest) s)) := by
          rw [← encodeWrite_byte]
          exact settle_portTx hnext
      _ = _ := by
          rw [ih rfl]
          simp [finish]

/-- READ_BYTES stores what its capture decodes to (R181). -/
theorem settle_readBytes {bs : List Byte} (hi : s.inputs = .port (.txRx (.captured cl)) :: rest)
    (hbs : decodeBytes cl 0 n = some bs) :
    settle (portTxRx (encodeRead (8 * n)) s.idleThr none (.readBytes n) s) = settle (finish (storeBytes bs (answered
      (.txRx (encodeRead (8 * n)) s.idleThr none s.openDrain (.captured cl)) rest s))) := by
  rw [settle_portTxRx (by simp) hi]
  simp only [onTxRx, onReadBytes, RxOutcome.list, hbs]

/-! ### The link commands, past their count checks -/

section Open

variable (hq : Quiet s) (ho : s.closed = false)

include hq ho

/-- RESET on an outcome that is no Error (R177). -/
theorem exec_reset {o : RxOutcome} (hi : s.inputs = .port (.txRx o) :: rest) (he : o ≠ .error) :
    exec .reset s = .next { ok s with
      res := resetAnswer o, savedThr := s.idleThr, history := s.history ++ [resetEvent s.openDrain o],
      inputs := rest } :=
  command_open (start := execReset)
    (t := { beginCommand s with
      res := resetAnswer o, savedThr := s.idleThr, history := s.history ++ [resetEvent s.openDrain o],
      inputs := rest })
    (fun _ => rfl) hq ho rfl (settle_linkReset (s := beginCommand s) he hi)

/-- SET_POWER (R182). -/
theorem exec_setPower : exec (.setPower pwr) s = .next { ok s with openDrain := !pwr } :=
  command_open_now (start := execSetPower pwr) (t := setOpenDrain (!pwr) (beginCommand s)) (fun _ => rfl) hq ho rfl rfl

/-- WRITE_BITS of no bit (R178, D21). -/
theorem exec_writeBits_zero : exec (.writeBits pwr 0) s = .next { ok s with openDrain := !pwr } :=
  command_open_now (start := execWriteBits pwr 0) (t := setOpenDrain (!pwr) (beginCommand s)) (fun _ => rfl) hq ho rfl
    rfl

/-- READ_BITS of no bit (R180, D21). -/
theorem exec_readBits_zero : exec (.readBits 0) s = .next { ok s with openDrain := true, data := 0 } :=
  command_open_now (start := execReadBits 0) (t := { setOpenDrain true (beginCommand s) with data := 0 })
    (fun _ => rfl) hq ho rfl rfl

/-- READ_BYTES of no byte (R181, D21). -/
theorem exec_readBytes_zero : exec (.readBytes 0) s = .next { ok s with openDrain := true } :=
  command_open_now (start := execReadBytes 0) (t := setOpenDrain true (beginCommand s)) (fun _ => rfl) hq ho rfl
    (if_neg (Nat.not_lt_zero _))

/-- WRITE_BITS of a bit or more comes to its transaction (R178). -/
theorem execWriteBits_open (h0 : n ≠ 0) (hn : n ≤ 64) :
    execWriteBits pwr n s = .next (settle (linkWriteBits s.data n pwr .done (beginCommand s))) := by
  refine command_next hq.1 (congrArg Host.Outcome.next ?_)
  rw [requireOpen_open (s := beginCommand s) ho, if_neg hn.not_gt, if_neg h0]
  rfl

/-- WRITE_BITS transmits the slots of DATA (R178, R174). -/
theorem exec_writeBits (h0 : n ≠ 0) (hn : n ≤ 64) (hi : s.inputs = .port (.tx .ok) :: rest) :
    exec (.writeBits pwr n) s = .next { ok s with
      openDrain := !pwr, history := s.history ++ [.tx (valueSlots s.data n) (!pwr) .ok], inputs := rest } := by
  refine (execWriteBits_open hq ho h0 hn).trans (congrArg Host.Outcome.next ?_)
  rw [settle_linkWriteBits (s := beginCommand s) hi, encodeWrite_eq_valueSlots]
  exact (settle_of_wait rfl).trans (finish_rest hq rfl)

/-- READ_BITS writes what its capture decodes to (R180, R175). -/
theorem exec_readBits {v : Long} (h0 : n ≠ 0) (hn : n ≤ 64) (hi : s.inputs = .port (.txRx (.captured cl)) :: rest)
    (hv : decode cl 0 n = some v) :
    exec (.readBits n) s = .next { ok s with
      openDrain := true, data := v, inputs := rest,
      history := s.history ++ [.txRx (readSlots n) s.idleThr none true (.captured cl)] } := by
  rw [← encodeRead_eq_readSlots]
  refine command_open (start := execReadBits n)
    (t := { setOpenDrain true (beginCommand s) with
      data := v, inputs := rest,
      history := s.history ++ [.txRx (encodeRead n) s.idleThr none true (.captured cl)] })
    (fun _ => rfl) hq ho rfl ?_
  rw [if_neg hn.not_gt, if_neg h0]
  exact settle_linkReadBits (s := beginCommand s) hv hi

/-- READ_BYTES stores what its capture decodes to (R181, D16). -/
theorem exec_readBytes {bs : List Byte} (h0 : n ≠ 0) (hn : n ≤ s.cfg.databufBytes)
    (hi : s.inputs = .port (.txRx (.captured cl)) :: rest) (hbs : decodeBytes cl 0 n = some bs) :
    exec (.readBytes n) s = .next (storeBytes bs { ok s with
      openDrain := true, inputs := rest,
      history := s.history ++ [.txRx (readSlots (8 * n)) s.idleThr none true (.captured cl)] }) := by
  rw [← encodeRead_eq_readSlots]
  refine command_open (start := execReadBytes n)
    (t := storeBytes bs { setOpenDrain true (beginCommand s) with
      inputs := rest,
      history := s.history ++ [.txRx (encodeRead (8 * n)) s.idleThr none true (.captured cl)] })
    (fun _ => rfl) hq ho rfl ?_
  dsimp only
  rw [if_neg (by simpa using hn), if_neg h0]
  exact settle_readBytes (s := setOpenDrain true (beginCommand s)) hi hbs

section WriteBytes

variable (hn : n ≤ s.cfg.databufBytes)

include hn

/-- WRITE_BYTES that has its operand comes to the first of its bytes (R179). -/
theorem execWriteBytes_open {bs : List Byte} (hbs : bytesOperand s n = .ok bs) :
    execWriteBytes pwr n s = .next (settle (afterWrite (.writeBytes bs) (setOpenDrain (!pwr) (beginCommand s)))) := by
  refine command_next hq.1 ?_
  simp [ho, hn, hbs]

/-- WRITE_BYTES transmits each byte of its operand (R179, D17). -/
theorem exec_writeBytes {bs : List Byte} (hbs : bytesOperand s n = .ok bs)
    (hi : s.inputs = List.replicate n (.port (.tx .ok)) ++ rest) :
    exec (.writeBytes pwr n) s = .next { ok s with
      openDrain := !pwr, history := s.history ++ bs.map (fun b => .tx (byteSlots b) (!pwr) .ok), inputs := rest } := by
  obtain ⟨rfl, -⟩ := bytesOperand_ok.mp hbs
  refine (execWriteBytes_open hq ho hn hbs).trans (congrArg Host.Outcome.next ?_)
  rw [settle_writeBytes (s := setOpenDrain (!pwr) (beginCommand s)) hi]
  exact finish_rest hq rfl

/-- WRITE_BYTES stops before it sends anything where its operand has no value (D32; log 11). -/
theorem exec_writeBytes_fault {f : Fault} (hf : bytesOperand s n = .error f) :
    exec (.writeBytes pwr n) s = .fault f := by
  refine command_stop (start := execWriteBytes pwr n) (fun _ => rfl) hq ?_
  simp [ho, hn, hf]

end WriteBytes

/-- WRITE_BITS 8 comes to one transaction with its outcome (R185). -/
theorem exec_writeBits_eight {o : TxOutcome} (hi : s.inputs = .port (.tx o) :: rest) :
    exec (.writeBits pwr 8) s = .next (onTx .done o (answered (.tx (encodeWrite s.data 8) (!pwr) o) rest
      (setOpenDrain (!pwr) (beginCommand s)))) := by
  refine (execWriteBits_open hq ho (by decide) (by decide)).trans (congrArg Host.Outcome.next ?_)
  exact (settle_portTx (s := setOpenDrain (!pwr) (beginCommand s)) hi).trans (settle_of_wait (by cases o <;> rfl))

/-- WRITE_BYTES 1 of the low byte of DATA comes to one transaction with its outcome (R185). -/
theorem exec_writeBytes_one {o : TxOutcome} (hn : 1 ≤ s.cfg.databufBytes)
    (hb : bufRead 0 s.databuf = some (s.data.setWidth 8)) (hi : s.inputs = .port (.tx o) :: rest) :
    exec (.writeBytes pwr 1) s = .next (onTx (.writeBytes []) o (answered (.tx (encodeWrite s.data 8) (!pwr) o) rest
      (setOpenDrain (!pwr) (beginCommand s)))) := by
  have hbs : bytesOperand s 1 = .ok [s.data.setWidth 8] :=
    bytesOperand_ok.mpr ⟨rfl, fun k hk => by simpa [Nat.lt_one_iff.mp hk] using hb⟩
  refine (execWriteBytes_open hq ho hn hbs).trans (congrArg Host.Outcome.next ?_)
  simp only [afterWrite, encodeWrite_lowByte]
  exact (settle_portTx (s := setOpenDrain (!pwr) (beginCommand s)) hi).trans (settle_of_wait (by cases o <;> rfl))

end Open

/-- CLOSE ends an active search and closes the link (R183). -/
theorem exec_close (hq : Quiet s) (ho : s.closed = false) :
    exec .close s = .next { ok s with
      closed := true, sact := false, idrdy := false, phase := .idle, history := s.history ++ [.close] } := by
  have hrun : execClose s =
      .next (settle (finish { portClose (clearSearch (beginCommand s)) with closed := true })) :=
    command_next hq.1 (if_neg (by simp [ho]))
  obtain ⟨hbusy, hwait, -⟩ := hq
  rw [ok, hbusy, hwait]
  exact hrun.trans (congrArg Host.Outcome.next (settle_of_wait rfl))

/-- CLOSE of a closed link (R183). -/
theorem exec_close_closed (hq : Quiet s) (hc : s.closed = true) : exec .close s = .next (ok s) :=
  command_finish (start := execClose) (t := beginCommand s) (fun _ => rfl) hq rfl (if_pos hc)

end Sys2Proof.Machine

open Sys2Proof.Machine

/-- Settles O36: RES is what LinkReset returns on the outcome. -/
theorem resetReportsPresence : Obligations.ResetReportsPresence := by
  intro s o rest hq ho hi
  constructor
  · intro h
    obtain ⟨he, hr⟩ := resetAnswer_of_showsPresence h
    rw [exec_reset hq ho hi he, hr]
  · intro h
    obtain ⟨he, hr⟩ := resetAnswer_of_showsNone h
    rw [exec_reset hq ho hi he, hr]

/-- Settles O37: one transaction, and none for n = 0. -/
theorem writeBitsTransmitsTheBits : Obligations.WriteBitsTransmitsTheBits := by
  rintro s pwr n rest hq ho hn
  refine ⟨fun hpos hi => exec_writeBits hq ho (by omega) hn hi, ?_⟩
  rintro rfl
  exact exec_writeBits_zero hq ho

/-- Settles O38: an induction over the bytes of the operand; the first byte without a value stops it. -/
theorem writeBytesTransmitsEachByte : Obligations.WriteBytesTransmitsEachByte :=
  fun _ _ _ _ hq ho hn =>
    ⟨fun _ hlen hbs hi => exec_writeBytes hq ho hn (bytesOperand_ok.mpr ⟨hlen, hbs⟩) hi,
      fun _ hk hnone hbefore => exec_writeBytes_fault hq ho hn (bytesOperand_error hk hnone hbefore)⟩

/-- Settles O39: the capture holds the pairs, and decode gives their bits. -/
theorem readBitsReadsTheBits : Obligations.ReadBitsReadsTheBits := by
  intro s n cl lo hi rest hq ho hn
  constructor
  · intro hpos hin hpairs
    have hlen := length_of_pairs hpairs
    obtain ⟨v, hv, hbits⟩ := decode_pairs (l := cl) (start := 0) (n := n) (by simpa using hpairs) (by omega)
    exact ⟨v, exec_readBits hq ho (by omega) hn hin hv, hbits⟩
  · rintro rfl
    exact exec_readBits_zero hq ho

/-- Settles O41: the capture holds the pairs, and decode_bytes gives their bytes. -/
theorem readBytesReadsTheBytes : Obligations.ReadBytesReadsTheBytes := by
  intro s n cl lo hi rest hq ho hn
  constructor
  · intro hpos hin hpairs
    have hlen := length_of_pairs hpairs
    obtain ⟨bs, hbs, hbsn, hbits⟩ := decodeBytes_pairs hpairs (by omega)
    refine ⟨_, exec_readBytes hq ho (by omega) hn hin hbs, rfl, fun k hk => ?_, fun i hi => ?_⟩
    · obtain ⟨b, hb, hbit⟩ := hbits k hk
      exact ⟨b, by rw [storeBytes_read, if_pos (by omega), hb], hbit⟩
    · rw [storeBytes_read, if_neg (by omega)]
  · rintro rfl
    exact exec_readBytes_zero hq ho

/-- Settles O44: the eight slots are the same, and so is what follows either outcome. -/
theorem writeBitsEightIsWriteBytesOne : Obligations.WriteBitsEightIsWriteBytesOne := by
  intro s pwr o rest hq ho hn hb hi
  have hbits := exec_writeBits_eight (pwr := pwr) hq ho hi
  refine ⟨?_, _, hbits, ?_⟩
  · rw [hbits, exec_writeBytes_one hq ho hn hb hi]
    cases o <;> rfl
  · cases o <;> exact ⟨rfl, rfl, rfl⟩

/-- Settles O42: it ends without a transaction. -/
theorem setPowerSetsThePinMode : Obligations.SetPowerSetsThePinMode := fun _ _ => exec_setPower

/-- Settles O43: with the link closed already, only ERR and ECODE are cleared. -/
theorem closeIsIdempotent : Obligations.CloseIsIdempotent :=
  fun _ hq => ⟨exec_close hq, exec_close_closed hq⟩

end

section
/-! SUPPORT. The CRC bit by bit: one step is linear over XOR, and a byte equal to the CRC before it leaves 0
(42_crc R210, R214, R215). The CRC commands at rest (R212, R213). -/

open Sys2Proof Sys2Proof.Machine Sys2Proof.Spec

namespace Sys2Proof.Machine

variable {s : State} {n : Nat}

/-! ### The CRC -/

/-- One bit step of the CRC (42_crc R210): a shift, and the polynomial added where the low bits of CRC and byte
differ. -/
def crcStep (c b : Byte) : Byte := c >>> 1 ^^^ if (c ^^^ b).getLsbD 0 then crcPoly else 0

theorem crcBits_succ (n : Nat) (c b : Byte) : crcBits (n + 1) c b = crcBits n (crcStep c b) (b >>> 1) := by
  rw [crcBits, crcStep]
  split
  · rfl
  · exact congrArg (crcBits n · _) (BitVec.xor_zero ..).symm

theorem crcStep_self (c : Byte) : crcStep c c = c >>> 1 := by simp [crcStep]

/-- Adding the polynomial or not is linear in the bit that decides it. -/
theorem ite_crcPoly_xor (x y : Bool) :
    (if x ^^ y then crcPoly else 0) = (if x then crcPoly else 0) ^^^ if y then crcPoly else 0 := by
  cases x <;> cases y <;> rfl

theorem crcStep_xor (c d a b : Byte) : crcStep (c ^^^ d) (a ^^^ b) = crcStep c a ^^^ crcStep d b := by
  have hmix : ((c ^^^ d) ^^^ (a ^^^ b)).getLsbD 0 = ((c ^^^ a).getLsbD 0 ^^ (d ^^^ b).getLsbD 0) := by
    rw [← BitVec.getLsbD_xor]
    exact congrArg (BitVec.getLsbD · 0) (by ac_rfl)
  rw [crcStep, hmix, ite_crcPoly_xor, BitVec.ushiftRight_xor_distrib, crcStep, crcStep]
  ac_rfl

/-- A byte equal to the CRC before it never adds the polynomial. -/
theorem crcBits_self (n : Nat) (c : Byte) : crcBits n c c = c >>> n := by
  induction n generalizing c with
  | zero => rfl
  | succ n ih => rw [crcBits_succ, crcStep_self, ih, ← BitVec.shiftRight_add, Nat.add_comm]

/-- Such a byte shifts the whole CRC out. -/
theorem crcBits_eight_self (c : Byte) : crcBits 8 c c = 0 :=
  (crcBits_self 8 c).trans (BitVec.ushiftRight_eq_zero (Nat.le_refl 8))

theorem crcBits_xor (n : Nat) (c d a b : Byte) : crcBits n (c ^^^ d) (a ^^^ b) = crcBits n c a ^^^ crcBits n d b := by
  induction n generalizing c d a b with
  | zero => rfl
  | succ n ih => simp only [crcBits_succ, crcStep_xor, BitVec.ushiftRight_xor_distrib, ih]

/-- The CRC of two sequences added byte by byte, from any two CRCs on. -/
theorem foldl_crcBits_zipWith_xor {as bs : List Byte} (h : as.length = bs.length) (c d : Byte) :
    (List.zipWith (· ^^^ ·) as bs).foldl (crcBits 8) (c ^^^ d) =
      as.foldl (crcBits 8) c ^^^ bs.foldl (crcBits 8) d := by
  induction as generalizing bs c d with
  | nil => rw [List.length_eq_zero_iff.mp h.symm]; rfl
  | cons a as ih =>
    cases bs with
    | nil => simp at h
    | cons b bs =>
      simp only [List.zipWith_cons_cons, List.foldl_cons, crcBits_xor]
      exact ih (by simpa using h) _ _

theorem crc8Bytes_zipWith_xor {as bs : List Byte} (h : as.length = bs.length) :
    crc8Bytes (List.zipWith (· ^^^ ·) as bs) = crc8Bytes as ^^^ crc8Bytes bs :=
  foldl_crcBits_zipWith_xor h 0 0

theorem crc8Bytes_zeros (n : Nat) : crc8Bytes (List.replicate n 0) = 0 := by
  induction n with
  | zero => rfl
  | succ n ih => rw [List.replicate_succ', crc8Bytes_concat, ih, crcBits_eight_self]

/-- A sequence followed by its own CRC has CRC 0. -/
theorem crc8Bytes_concat_self (bs : List Byte) : crc8Bytes (bs ++ [crc8Bytes bs]) = 0 := by
  rw [crc8Bytes_concat, crcBits_eight_self]

/-! ### The bytes of an ID -/

theorem byteOf_toNat (v : Long) (i : Nat) : (byteOf v i).toNat = v.toNat / 256 ^ i % 256 := by
  rw [byteOf, BitVec.extractLsb'_toNat, Nat.shiftRight_eq_div_pow, Nat.pow_mul]

theorem idValid_eq (id : Long) : idValid id = decide ((crc8Id id).toNat = id.toNat / 2 ^ 56) := by
  have htop : (byteOf id 7).toNat = id.toNat / 2 ^ 56 := by rw [byteOf_toNat]; omega
  rw [idValid, ← htop, beq_eq_decide]
  exact decide_eq_decide.mpr BitVec.toNat_inj.symm

/-! ### The CRC commands -/

/-- CRC8_ID writes CRC and RES (R212). -/
theorem exec_crc8Id (hq : Quiet s) :
    exec .crc8Id s = .next { ok s with crc := crc8Id s.data, res := idValid s.data } :=
  command_finish (start := execCrc8Id) (t := { beginCommand s with crc := crc8Id s.data, res := idValid s.data })
    (fun _ => rfl) hq rfl rfl

/-- CRC8_BYTES writes the CRC of its operand (R213). -/
theorem exec_crc8Bytes (hq : Quiet s) (hn : n ≤ s.cfg.databufBytes) {bs : List Byte} (hbs : bytesOperand s n = .ok bs) :
    exec (.crc8Bytes n) s = .next { ok s with crc := crc8Bytes bs } := by
  refine command_finish (start := execCrc8Bytes n) (t := { beginCommand s with crc := crc8Bytes bs }) (fun _ => rfl)
    hq rfl ?_
  simp [hn.not_gt, hbs]

/-- CRC8_BYTES stops where its operand has no value (D32; log 11). -/
theorem exec_crc8Bytes_fault (hq : Quiet s) (hn : n ≤ s.cfg.databufBytes) {f : Fault}
    (hf : bytesOperand s n = .error f) : exec (.crc8Bytes n) s = .fault f := by
  refine command_stop (start := execCrc8Bytes n) (fun _ => rfl) hq ?_
  simp [hn.not_gt, hf]

end Sys2Proof.Machine

open Sys2Proof.Machine

/-- Settles O45: the seven bytes are those that `crc8Id` takes. -/
theorem crc8IdValidatesData : Obligations.Crc8IdValidatesData := by
  intro s hq
  refine ⟨(List.range 7).map (byteOf s.data), rfl, fun i b hb => ?_, (exec_crc8Id hq).trans ?_⟩
  · obtain ⟨-, rfl⟩ := List.getElem?_eq_some_iff.mp hb
    simp [byteOf_toNat]
  · rw [idValid_eq]; rfl

/-- Settles O46: the operand holds the bytes; the first byte without a value stops it. -/
theorem crc8BytesSumsTheBuffer : Obligations.Crc8BytesSumsTheBuffer :=
  fun _ _ hq hn =>
    ⟨fun _ hlen hbs => exec_crc8Bytes hq hn (bytesOperand_ok.mpr ⟨hlen, hbs⟩),
      fun _ hk hnone hbefore => exec_crc8Bytes_fault hq hn (bytesOperand_error hk hnone hbefore)⟩

/-- Settles O47: each bit step is linear. -/
theorem crcIsLinear : Obligations.CrcIsLinear := ⟨fun _ _ => crc8Bytes_zipWith_xor, crc8Bytes_zeros⟩

/-- Settles O48: byte 7 of a valid ID is the CRC of the seven before it. -/
theorem validIdHasZeroCrc : Obligations.ValidIdHasZeroCrc := by
  intro id hvalid
  calc crc8Bytes ((List.range 8).map (byteOf id))
      = crc8Bytes ((List.range 7).map (byteOf id) ++ [byteOf id 7]) := rfl
    _ = crc8Bytes ((List.range 7).map (byteOf id) ++ [crc8Id id]) := by rw [hvalid]; rfl
    _ = 0 := crc8Bytes_concat_self _

/-- Settles O49: the loop computes each value. -/
theorem crcCheckValues : Obligations.CrcCheckValues := by
  unfold Obligations.CrcCheckValues
  decide +kernel

end

section
/-! SUPPORT. The ROM commands and the ROM bytes at rest (43_rom R230-R233), and the captures that no read accepts
(41_link R175, R180, R181, 44_search R252, R260). -/

open Sys2Proof Sys2Proof.Machine Sys2Proof.Spec

namespace Sys2Proof.Machine

variable {s t u : State} {rest : List Input} {n : Nat} {o : RxOutcome} {cl : List Signal} {e : ErrKind} {i : Instr}

/-- A link command with the link open, which raises an error once it has taken its answers. -/
theorem command_open_raise {start : State → Result} {body : State → State}
    (hs : ∀ u, start u = command u fun u => .next (requireOpen u body)) (hq : Quiet s) (ho : s.closed = false)
    (hid : t.idrdy = s.idrdy) (h : settle (body (beginCommand s)) = raise e t) :
    start s = .next { failed e t with busy := s.busy, phase := s.phase, wait := s.wait } :=
  command_open (t := failed e t) hs hq ho hid (h.trans (settle_of_wait rfl).symm)

/-! ### A ROM byte, alone and after a reset -/

/-- A ROM byte is sent bit 0 first in open-drain mode (R230, 41_link R174). -/
theorem settle_linkWriteRom {b : Byte} {k : AfterWrite} (hi : s.inputs = .port (.tx .ok) :: rest) :
    settle (linkWriteRom b k s) =
      settle (afterWrite k (answered (.tx (byteSlots b) true .ok) rest { s with openDrain := true })) := by
  rw [← encodeWrite_byte]
  exact settle_linkWriteBits hi

/-- The state when a reset with the outcome `o`, the ROM byte `b` after it and the transactions of the events `es` have
been answered. -/
abbrev romSent (b : Byte) (o : RxOutcome) (es : List PortEvent) (rest : List Input) (s : State) : State :=
  { s with
    phase := .exec, wait := none, openDrain := true, savedThr := s.idleThr, inputs := rest,
    history := s.history ++ resetEvent s.openDrain o :: .tx (byteSlots b) true .ok :: es }

/-- A reset that a ROM byte follows (R231-R233). -/
theorem settle_linkReset_rom {k : AfterReset} {b : Byte} {k' : AfterWrite} (he : o ≠ .error)
    (hi : s.inputs = .port (.txRx o) :: .port (.tx .ok) :: rest)
    (hk : ∀ t, afterReset k (resetAnswer o) t = linkWriteRom b k' t) :
    settle (linkReset k s) = settle (afterWrite k' (romSent b o [] rest s)) := by
  rw [settle_linkReset he hi, hk, settle_linkWriteRom (rest := rest) (by rfl)]
  simp only [answered, romSent, List.append_assoc, List.cons_append, List.nil_append]

/-- SELECT after a presence sends MATCH and the 64 bits of DATA (R231). -/
theorem settle_select (he : o ≠ .error) (hp : resetAnswer o = true)
    (hi : s.inputs = .port (.txRx o) :: .port (.tx .ok) :: .port (.tx .ok) :: rest) :
    settle (linkReset .select s) = settle (finish
      (romSent 0x55 o [.tx (valueSlots s.data 64) true .ok] rest s)) := by
  rw [settle_linkReset_rom (b := 0x55) (k' := .selectId) he hi fun _ => by rw [hp]; rfl, afterWrite,
    settle_linkWriteBits (rest := rest) (by rfl), encodeWrite_eq_valueSlots]
  simp only [answered, List.append_assoc]
  rfl

/-- SKIP after a presence sends SKIP (R232). -/
theorem settle_skip (he : o ≠ .error) (hp : resetAnswer o = true)
    (hi : s.inputs = .port (.txRx o) :: .port (.tx .ok) :: rest) :
    settle (linkReset .skip s) = settle (finish (romSent 0xCC o [] rest s)) :=
  settle_linkReset_rom (k' := .done) he hi fun _ => by rw [hp]; rfl

/-- READ_ROM comes to its read whatever its reset returned (R233). -/
theorem settle_readRom (he : o ≠ .error) (hi : s.inputs = .port (.txRx o) :: .port (.tx .ok) :: rest) :
    settle (linkReset .readRom s) = settle (linkReadBits 64 .toData (romSent 0x33 o [] rest s)) :=
  settle_linkReset_rom (k' := .readRomId) he hi fun _ => rfl

section ReadRom

variable (he : o ≠ .error)
  (hi : s.inputs = .port (.txRx o) :: .port (.tx .ok) :: .port (.txRx (.captured cl)) :: rest)

include he hi

/-- The read of READ_ROM with a capture that decodes (R233). -/
theorem settle_readRom_captured {v : Long} (hv : decode cl 0 64 = some v) :
    settle (linkReset .readRom s) = settle (finish { romSent 0x33 o
      [.txRx (readSlots 64) s.idleThr none true (.captured cl)] rest s with data := v }) := by
  rw [settle_readRom he hi, settle_linkReadBits (rest := rest) hv (by rfl), encodeRead_eq_readSlots]
  simp only [answered, List.append_assoc]
  rfl

/-- The read of READ_ROM with a capture that does not decode (R233, R175). -/
theorem settle_readRom_invalid (hv : decode cl 0 64 = none) :
    settle (linkReset .readRom s) = raise .invalidSignal (romSent 0x33 o
      [.txRx (readSlots 64) s.idleThr none true (.captured cl)] rest s) := by
  rw [settle_readRom he hi, settle_linkReadBits_invalid (rest := rest) hv (by rfl), encodeRead_eq_readSlots]
  simp only [answered, List.append_assoc]
  rfl

end ReadRom

/-- SELECT and SKIP raise NO_DEVICE after a reset without a presence (R231, R232). -/
theorem settle_linkReset_noDevice {k : AfterReset} (hk : ∀ t, afterReset k false t = raise .noDevice t)
    (he : o ≠ .error) (hp : resetAnswer o = false) (hi : s.inputs = .port (.txRx o) :: rest) :
    settle (linkReset k s) =
      raise .noDevice (answered (resetEvent s.openDrain o) rest { s with savedThr := s.idleThr }) := by
  rw [settle_linkReset he hi, hp, hk]
  exact settle_of_wait rfl

/-- Each ROM byte has a row that sends it. -/
theorem exec_romRow {b : Byte} (h : (i, b) ∈ [(Instr.romMatch, (0x55 : Byte)), (.romSkip, 0xCC), (.romSearch, 0xF0),
    (.romRead, 0x33), (.romSearchAlarm, 0xEC)]) (s : State) : exec i s = sendRomByte b s := by
  simp only [List.mem_cons, List.not_mem_nil, or_false, Prod.mk.injEq] at h
  obtain ⟨rfl, rfl⟩ | ⟨rfl, rfl⟩ | ⟨rfl, rfl⟩ | ⟨rfl, rfl⟩ | ⟨rfl, rfl⟩ := h
  all_goals rfl

/-! ### Captures that do not decode -/

/-- READ_BYTES raises INVALID_SIGNAL on a capture that holds no `n` bytes (R181). -/
theorem settle_readBytes_invalid (hi : s.inputs = .port (.txRx (.captured cl)) :: rest)
    (hbs : decodeBytes cl 0 n = none) :
    settle (portTxRx (encodeRead (8 * n)) s.idleThr none (.readBytes n) s) = raise .invalidSignal (answered
      (.txRx (encodeRead (8 * n)) s.idleThr none s.openDrain (.captured cl)) rest s) := by
  rw [settle_portTxRx (by simp) hi]
  simp only [onTxRx, onReadBytes, RxOutcome.list, hbs]
  exact settle_of_wait rfl

/-- The two bit reads of a position, one of them with a capture that does not decode: the second after a bit, or the
first (44_search R252 3a, R260). -/
theorem settle_passReads_invalid {ps : Pass} {bad : List Signal} {first : List (List Signal)}
    (hf : first = [] ∨ ∃ r x, readsBit r x ∧ first = [r]) (hbad : undecodable bad 1)
    (hi : s.inputs = (first ++ [bad]).map (fun r => .port (.txRx (.captured r))) ++ rest) :
    settle (linkReadBits 1 (.passBit ps) s) = raiseIn true .invalidSignal { s with
      openDrain := true, inputs := rest, history := s.history ++ (first ++ [bad]).map (bitReadEvent s.idleThr) } := by
  have hnone := undecodable_decode hbad
  obtain rfl | ⟨r, x, hr, rfl⟩ := hf
  · exact settle_linkReadBits_invalid hnone hi
  · obtain ⟨v, hv, -⟩ := readsBit_decode hr
    rw [settle_linkReadBits hv hi, afterRead, settle_linkReadBits_invalid (rest := rest) hnone (by rfl)]
    simp only [answered, List.append_assoc]
    rfl

/-! ### The commands with the link open and their answers standing ready -/

section Open

variable (hq : Quiet s) (ho : s.closed = false)

include hq ho

/-- A ROM byte by its own row (R230). -/
theorem sendRomByte_open {b : Byte} (hi : s.inputs = .port (.tx .ok) :: rest) :
    sendRomByte b s = .next { ok s with
      openDrain := true, history := s.history ++ [.tx (byteSlots b) true .ok], inputs := rest } :=
  command_open (start := sendRomByte b)
    (t := answered (.tx (byteSlots b) true .ok) rest { beginCommand s with openDrain := true })
    (fun _ => rfl) hq ho rfl (settle_linkWriteRom (s := beginCommand s) hi)

/-- SELECT after a reset that shows a presence (R231). -/
theorem exec_select (he : o ≠ .error) (hp : resetAnswer o = true)
    (hi : s.inputs = .port (.txRx o) :: .port (.tx .ok) :: .port (.tx .ok) :: rest) :
    exec .select s = .next { ok s with
      openDrain := true, savedThr := s.idleThr, inputs := rest,
      history := s.history ++ [resetEvent s.openDrain o, .tx (byteSlots 0x55) true .ok,
        .tx (valueSlots s.data 64) true .ok] } := by
  have hrun := settle_select (s := beginCommand s) he hp hi
  exact command_open (start := execSelect) (fun _ => rfl) hq ho (by rfl) hrun

/-- SKIP after a reset that shows a presence (R232). -/
theorem exec_skip (he : o ≠ .error) (hp : resetAnswer o = true)
    (hi : s.inputs = .port (.txRx o) :: .port (.tx .ok) :: rest) :
    exec .skip s = .next { ok s with
      openDrain := true, savedThr := s.idleThr, inputs := rest,
      history := s.history ++ [resetEvent s.openDrain o, .tx (byteSlots 0xCC) true .ok] } := by
  have hrun := settle_skip (s := beginCommand s) he hp hi
  exact command_open (start := execSkip) (fun _ => rfl) hq ho (by rfl) hrun

/-- SELECT and SKIP after a reset without a presence (R231, R232). -/
theorem exec_noDevice (hsel : i = .select ∨ i = .skip) (he : o ≠ .error) (hp : resetAnswer o = false)
    (hi : s.inputs = .port (.txRx o) :: rest) :
    exec i s = .next { failed .noDevice s with
      savedThr := s.idleThr, history := s.history ++ [resetEvent s.openDrain o], inputs := rest } := by
  obtain rfl | rfl := hsel
  · have hrun := settle_linkReset_noDevice (s := beginCommand s) (k := .select) (fun _ => rfl) he hp hi
    exact command_open_raise (start := execSelect) (fun _ => rfl) hq ho (by rfl) hrun
  · have hrun := settle_linkReset_noDevice (s := beginCommand s) (k := .skip) (fun _ => rfl) he hp hi
    exact command_open_raise (start := execSkip) (fun _ => rfl) hq ho (by rfl) hrun

/-- READ_ROM writes what its capture decodes to (R233). -/
theorem exec_readRom {v : Long} (he : o ≠ .error)
    (hi : s.inputs = .port (.txRx o) :: .port (.tx .ok) :: .port (.txRx (.captured cl)) :: rest)
    (hv : decode cl 0 64 = some v) :
    exec .readRom s = .next { ok s with
      openDrain := true, savedThr := s.idleThr, data := v, inputs := rest,
      history := s.history ++ [resetEvent s.openDrain o, .tx (byteSlots 0x33) true .ok,
        .txRx (readSlots 64) s.idleThr none true (.captured cl)] } := by
  have hrun := settle_readRom_captured (s := beginCommand s) he hi hv
  exact command_open (start := execReadRom) (fun _ => rfl) hq ho (by rfl) hrun

/-- READ_ROM raises INVALID_SIGNAL on a capture that does not decode (R233, R175). -/
theorem exec_readRom_invalid (he : o ≠ .error)
    (hi : s.inputs = .port (.txRx o) :: .port (.tx .ok) :: .port (.txRx (.captured cl)) :: rest)
    (hv : decode cl 0 64 = none) :
    exec .readRom s = .next { failed .invalidSignal s with
      openDrain := true, savedThr := s.idleThr, inputs := rest,
      history := s.history ++ [resetEvent s.openDrain o, .tx (byteSlots 0x33) true .ok,
        .txRx (readSlots 64) s.idleThr none true (.captured cl)] } := by
  have hrun := settle_readRom_invalid (s := beginCommand s) he hi hv
  exact command_open_raise (start := execReadRom) (fun _ => rfl) hq ho (by rfl) hrun

/-- READ_BITS raises INVALID_SIGNAL on a capture that does not decode (R180, R175). -/
theorem exec_readBits_invalid (h0 : n ≠ 0) (hn : n ≤ 64) (hi : s.inputs = .port (.txRx (.captured cl)) :: rest)
    (hv : decode cl 0 n = none) :
    exec (.readBits n) s = .next { failed .invalidSignal s with
      openDrain := true, inputs := rest,
      history := s.history ++ [.txRx (readSlots n) s.idleThr none true (.captured cl)] } := by
  rw [← encodeRead_eq_readSlots]
  refine command_open_raise (start := execReadBits n)
    (t := answered (.txRx (encodeRead n) s.idleThr none true (.captured cl)) rest (setOpenDrain true (beginCommand s)))
    (fun _ => rfl) hq ho rfl ?_
  rw [if_neg hn.not_gt, if_neg h0]
  exact settle_linkReadBits_invalid (s := beginCommand s) hv hi

/-- READ_BYTES raises INVALID_SIGNAL on a capture that does not decode (R181). -/
theorem exec_readBytes_invalid (h0 : n ≠ 0) (hn : n ≤ s.cfg.databufBytes)
    (hi : s.inputs = .port (.txRx (.captured cl)) :: rest) (hbs : decodeBytes cl 0 n = none) :
    exec (.readBytes n) s = .next { failed .invalidSignal s with
      openDrain := true, inputs := rest,
      history := s.history ++ [.txRx (readSlots (8 * n)) s.idleThr none true (.captured cl)] } := by
  rw [← encodeRead_eq_readSlots]
  refine command_open_raise (start := execReadBytes n)
    (t := answered (.txRx (encodeRead (8 * n)) s.idleThr none true (.captured cl)) rest
      (setOpenDrain true (beginCommand s)))
    (fun _ => rfl) hq ho rfl ?_
  dsimp only
  rw [if_neg (by simpa using hn), if_neg h0]
  exact settle_readBytes_invalid (s := setOpenDrain true (beginCommand s)) hi hbs

/-- A search pass that raises INVALID_SIGNAL at a bit read of position `n` (44_search R252, R260). -/
theorem exec_pass_invalid {rb rc : Nat → List Signal} {b c : Nat → Bool} {bad : List Signal}
    {first : List (List Signal)} (h : startsPass i s u) (hp : present cl) (hn : n < 64) (hb : busAnswers rb rc b c n)
    (hf : first = [] ∨ ∃ r x, readsBit r x ∧ first = [r]) (hbad : undecodable bad 1)
    (hi : s.inputs = .port (.txRx (.captured cl)) :: .port (.tx .ok) ::
      (passAnswers rb rc n ++ (first ++ [bad]).map (fun r => .port (.txRx (.captured r))) ++ rest)) :
    exec i s = .next { failed .invalidSignal (searchEnded u) with
      openDrain := true, savedThr := s.idleThr, inputs := rest,
      history := s.history ++ passOpening u.salm s.openDrain cl ++
        passEvents s.idleThr rb rc (choice u.plub u.sid b c) n ++ (first ++ [bad]).map (bitReadEvent s.idleThr) } := by
  obtain ⟨hfree, hnone, -⟩ := hq
  obtain ⟨-, -, -, -, -, -, -, hthr, hwait, hbusy⟩ := startsPass_fields h
  rw [exec_passPositions h hfree ho hp hi, settle_passPositions (n := n) (by omega) (by rfl) (by rfl) (by rfl) hb
    (List.append_assoc ..), settle_passReads_invalid (rest := rest) hf hbad (by rfl)]
  simp [raiseIn, raise, finish, clearSearch, restPhase, hthr, hwait, hbusy, hfree, hnone]

end Open

end Sys2Proof.Machine

open Sys2Proof.Machine

/-- Settles O52: each row sends its own byte in the frame of a command. -/
theorem romBytesAreSentLsbFirst : Obligations.RomBytesAreSentLsbFirst := by
  intro i b s rest hrow
  rw [exec_romRow hrow s]
  exact ⟨fun hq ho hi => sendRomByte_open hq ho hi, fun hq hc => command_closed (fun _ => rfl) hq hc,
    fun hb => command_busy hb _⟩

/-- Settles O50: the answer of LinkReset decides between the ROM byte and NO_DEVICE. -/
theorem selectAndSkipAddressTheBus : Obligations.SelectAndSkipAddressTheBus := by
  refine ⟨fun s cl rest hq ho hp => ?_, fun i s o rest hi hq ho hnone => ?_⟩
  · obtain ⟨he, hr⟩ := resetAnswer_of_showsPresence ⟨cl, rfl, hp⟩
    exact ⟨exec_select hq ho he hr, exec_skip hq ho he hr⟩
  · obtain ⟨he, hr⟩ := resetAnswer_of_showsNone hnone
    exact exec_noDevice hq ho hi he hr

/-- Settles O51: the capture holds the pairs, and decode gives their bits. -/
theorem readRomReadsTheId : Obligations.ReadRomReadsTheId := by
  intro s o cl lo hi rest hq ho he hin hpairs
  have hlen := length_of_pairs hpairs
  obtain ⟨v, hv, hbits⟩ := decode_pairs (l := cl) (start := 0) (n := 64) (by simpa using hpairs) (by omega)
  exact ⟨v, exec_readRom hq ho he hin hv, fun k hk => (hbits k hk).trans (by rw [decide_eq_true hk, Bool.true_and])⟩

/-- Settles O40: neither decode nor decode_bytes accepts the capture, and a pass commits nothing before its end. -/
theorem readsRejectBadCaptures : Obligations.ReadsRejectBadCaptures := by
  refine ⟨fun s cl m rest hq ho hpos hi hbad => ⟨fun hm => ?_, ?_⟩, fun s o cl rest hq ho he hi hbad => ?_,
    fun i s u p cl bad first rb rc b c rest h hq ho hp hpos hb hf hbad hi => ?_⟩
  · exact exec_readBits_invalid hq ho (by omega) hm hi (undecodable_decode hbad)
  · rintro n rfl hn
    exact exec_readBytes_invalid hq ho (by omega) hn hi (undecodable_decodeBytes hbad)
  · exact exec_readRom_invalid hq ho he hi (undecodable_decode hbad)
  · exact exec_pass_invalid hq ho h hp hpos hb hf hbad hi

end

section
/-! SUPPORT. The search commands at rest, with the link open and the answers of a pass standing ready: the one way every
pass is run, whichever instruction started it, and the ways it ends (44_search R250-R264). -/

open Sys2Proof Sys2Proof.Machine Sys2Proof.Spec

namespace Sys2Proof.Machine

variable {s t u : State} {ps : Pass} {rest : List Input} {n : Nat} {o : RxOutcome} {cl r1 r2 : List Signal} {i : Instr}
  {q : Int} {rb rc : Nat → List Signal} {b c : Nat → Bool} {id : Long} {alm : Bool}

/-! ### The ends of a pass -/

/-- The end of a command, from a state with BUSY = 0 and nothing outstanding, sets the phase only. -/
theorem finish_free (hb : t.busy = false) (hw : t.wait = none) : finish t = { t with phase := restPhase t.idrdy } := by
  simp [finish, hb, hw]

/-- The CRC check of an ID (R257). -/
theorem idValid_iff : idValid id = true ↔ crc8Id id = id.extractLsb' 56 8 := beq_iff_eq

section Ends

variable (hb : t.busy = false) (hw : t.wait = none)

include hb hw

/-- EndSearch leaves the search ended and its result in RES (R258). -/
theorem finish_endSearch (r : Bool) : finish (endSearch r t) = { searchEnded t with res := r } :=
  finish_free (t := endSearch r t) hb hw

/-- An error inside a pass ends the search and writes nothing else (R252, R260, 60_exceptions R305). -/
theorem raiseIn_pass (e : ErrKind) : raiseIn true e t = failed e (searchEnded t) :=
  finish_free (t := failed e (clearSearch t)) hb hw

/-- An ID that fails the CRC check (R257). -/
theorem passEnd_badCrc (hv : crc8Id ps.id ≠ ps.id.extractLsb' 56 8) :
    passEnd ps t = failed .crcError (searchEnded t) :=
  (if_neg (idValid_iff.not.mpr hv)).trans (raiseIn_pass hb hw .crcError)

section Candidate

variable (hv : crc8Id ps.id = ps.id.extractLsb' 56 8)

include hv

/-- A plain search delivers its candidate, and a family search one of its family (R258). -/
theorem passEnd_delivers (hm : t.smode = .plain ∨ (t.smode = .family ∧ ps.id.extractLsb' 0 8 = t.sfam)) :
    passEnd ps t = { passCommit ps t with data := ps.id, res := true, idrdy := true, phase := .yield } := by
  refine (if_pos (idValid_iff.mpr hv)).trans
    (Eq.trans ?_ (finish_free (t := { passCommit ps t with data := ps.id, res := true, idrdy := true }) hb hw))
  obtain hplain | ⟨hfam, hmem⟩ := hm
  · simp [searchCandidate, hplain]
  · simp [searchCandidate, hfam, byteOf, hmem]

/-- A family search ends at a candidate of another family (R258). -/
theorem passEnd_otherFamily (hm : t.smode = .family) (hne : ps.id.extractLsb' 0 8 ≠ t.sfam) :
    passEnd ps t = { searchEnded (passCommit ps t) with res := false } := by
  refine (if_pos (idValid_iff.mpr hv)).trans (Eq.trans ?_ (finish_endSearch (t := passCommit ps t) hb hw false))
  simp [searchCandidate, hm, byteOf, hne]

/-- A ping compares its candidate with its target (R258). -/
theorem passEnd_ping (hm : t.smode = .ping) :
    passEnd ps t = { searchEnded (passCommit ps t) with res := decide (ps.id = t.starget) } := by
  refine (if_pos (idValid_iff.mpr hv)).trans
    (Eq.trans ?_ (finish_endSearch (t := passCommit ps t) hb hw (decide (ps.id = t.starget))))
  simp [searchCandidate, hm, beq_eq_decide]

end Candidate

/-- The response (1,1) in a search that is not alarm-only (R255). -/
theorem passDecide_busError (ha : t.salm = false) :
    passDecide ps true true t = failed .busError (searchEnded t) := by
  refine Eq.trans ?_ (raiseIn_pass hb hw .busError)
  simp [passDecide, ha]

/-- The response (1,1) in an alarm-only search (R255). -/
theorem passDecide_noAlarmed (ha : t.salm = true) :
    passDecide ps true true t = { searchEnded (passCommit ps t) with res := false } := by
  refine Eq.trans ?_ (finish_endSearch (t := passCommit ps t) hb hw false)
  simp [passDecide, ha]

end Ends

/-! ### An end of a pass clears BUSY, the phase of the running command and what was outstanding -/

/-- `t` while a command runs. -/
abbrev running (t : State) : State := { t with busy := true, phase := .exec, wait := none }

/-- After 64 bits the command ends, in the same state whether it ran or not (R258, 10_state R24). -/
theorem settle_passEnd_running : settle (passEnd ps (running t)) = passEnd ps t := by
  have hrun : passEnd ps (running t) = passEnd ps t := by
    simp only [passEnd, searchCandidate, passCommit]
    repeat' split
    all_goals rfl
  have hwait : (passEnd ps t).wait = none := by
    simp only [passEnd, searchCandidate]
    repeat' split
    all_goals rfl
  rw [hrun, settle_of_wait hwait]

/-- At the response (1,1) the command ends, in the same state whether it ran or not (R255, 10_state R24). -/
theorem settle_passDecide_running : settle (passDecide ps true true (running t)) = passDecide ps true true t := by
  have hrun : passDecide ps true true (running t) = passDecide ps true true t := by
    simp only [passDecide]
    cases t.salm
    all_goals rfl
  have hwait : (passDecide ps true true t).wait = none := by
    simp only [passDecide]
    cases t.salm
    all_goals rfl
  rw [hrun, settle_of_wait hwait]

/-! ### A pass up to its end -/

/-- The state `u` at the start of a pass that `s` has started, once the pass's transactions have been answered, which
leaves the port history `hist` (R252). -/
abbrev passAnswered (s u : State) (hist : List PortEvent) (rest : List Input) : State :=
  { u with openDrain := true, savedThr := s.idleThr, inputs := rest, history := hist }

/-- `passAnswered` after all 64 positions. -/
abbrev wholePassAnswered (s u : State) (cl : List Signal) (rb rc : Nat → List Signal) (b c : Nat → Bool)
    (rest : List Input) : State :=
  passAnswered s u
    (s.history ++ wholePassEvents u.salm s.openDrain cl s.idleThr rb rc (choice u.plub u.sid b c)) rest

/-- The local copies after `n` positions of a pass from the registers of `u`, whose ID is then `id` (R254, R256). -/
abbrev passOf (u : State) (b c : Nat → Bool) (id : Long) (n : Nat) : Pass where
  id := id
  l  := lastBelow (recorded u.plub u.sid b c) n
  lf := lastBelow (recorded u.plub u.sid b c) (min n 8)
  p  := n

/-- The pass after `n` positions holds the ID with the bits chosen below `n`, and the branches recorded there. -/
theorem passAt_eq_passOf (hn : n ≤ 64)
    (hid : ∀ k, k < 64 → id.getLsbD k = if k < n then choice u.plub u.sid b c k else u.sid.getLsbD k) :
    passAt u.plub b c u.sid n = passOf u b c id n := by
  obtain ⟨hl, hlf⟩ := passAt_branches u.plub b c u.sid hn
  have hid' : (passAt u.plub b c u.sid n).id = id := by
    refine BitVec.eq_of_getLsbD_eq fun k hk => ?_
    rw [hid k hk, passAt_id _ _ _ _ hn hk]
  rw [passOf, ← hid', ← hl, ← hlf]
  exact congrArg (Pass.mk _ _ _) (passAt_p u.plub b c u.sid n)

/-- The two bit reads of a position that no device answers (R255). -/
theorem settle_passNoResponse (h1 : readsBit r1 true) (h2 : readsBit r2 true)
    (hi : s.inputs = .port (.txRx (.captured r1)) :: .port (.txRx (.captured r2)) :: rest) :
    settle (linkReadBits 1 (.passBit ps) s) = settle (passDecide ps true true { s with
      phase := .exec, wait := none, openDrain := true, inputs := rest,
      history := s.history ++ [bitReadEvent s.idleThr r1, bitReadEvent s.idleThr r2] }) := by
  obtain ⟨v1, e1, g1⟩ := readsBit_decode h1
  obtain ⟨v2, e2, g2⟩ := readsBit_decode h2
  rw [settle_linkReadBits e1 hi, afterRead, settle_linkReadBits (rest := rest) e2 (by rfl), afterRead, g1, g2]
  simp only [answered, List.append_assoc]
  rfl

section Pass

variable (h : startsPass i s u) (hq : Quiet s) (ho : s.closed = false)

include h hq

/-- At the start of a pass, as at rest, nothing runs. -/
theorem startsPass_free : u.busy = false ∧ u.wait = none := by
  obtain ⟨-, -, -, -, -, -, -, -, hwait, hbusy⟩ := startsPass_fields h
  exact ⟨hbusy.trans hq.1, hwait.trans hq.2.1⟩

include ho

/-- A pass whose reset shows no presence (R252 step 1, R258). -/
theorem exec_pass_noPresence (he : o ≠ .error) (hp : resetAnswer o = false)
    (hi : s.inputs = .port (.txRx o) :: rest) :
    exec i s = .next { searchEnded u with
      res := false, savedThr := s.idleThr, history := s.history ++ [resetEvent s.openDrain o], inputs := rest } := by
  obtain ⟨-, -, -, -, hin, hhist, hod, hthr, -, -⟩ := startsPass_fields h
  obtain ⟨hbusy, hwait⟩ := startsPass_free h hq
  rw [exec_startsPass h hq.1 ho, settle_linkReset (s := running u) he (hin.trans hi), hp, afterReset,
    if_neg Bool.false_ne_true, settle_of_wait rfl]
  simp [finish, endSearch, clearSearch, hhist, hod, hthr, hbusy, hwait]

variable (hp : present cl)

include hp

section Whole

variable (hb : busAnswers rb rc b c 64) (hc : isChosen id u.plub u.sid b c)
  (hi : s.inputs = .port (.txRx (.captured cl)) :: .port (.tx .ok) :: (passAnswers rb rc 64 ++ rest))

include hb hc hi

/-- A pass that all 64 positions answer comes to its end with the ID its bits have chosen (R252-R256). -/
theorem exec_passWhole :
    exec i s = .next (passEnd (passOf u b c id 64) (wholePassAnswered s u cl rb rc b c rest)) := by
  obtain ⟨-, -, -, -, -, -, -, hthr, -, -⟩ := startsPass_fields h
  have hpass : passAt u.plub b c u.sid 64 = passOf u b c id 64 :=
    passAt_eq_passOf (Nat.le_refl 64) fun k hk => (hc k hk).trans (if_pos hk).symm
  obtain ⟨⟨id', l, lf, p⟩, hid', hl', hlf', hrun⟩ := settle_passWhole (sid := u.sid) (tail := rest)
    (s := { running u with
      savedThr := s.idleThr, openDrain := true, inputs := passAnswers rb rc 64 ++ rest,
      history := s.history ++ passOpening u.salm s.openDrain cl })
    rfl rfl rfl hb rfl
  obtain rfl : id' = id := hid'.trans (congrArg Pass.id hpass)
  obtain rfl : l = _ := hl'.trans (congrArg Pass.l hpass)
  obtain rfl : lf = _ := hlf'.trans (congrArg Pass.lf hpass)
  rw [exec_passPositions h hq.1 ho hp hi, hrun]
  refine congrArg Host.Outcome.next (Eq.trans (congrArg settle ?_) settle_passEnd_running)
  simp only [running, hthr, wholePassEvents, List.append_assoc]
  rfl

/-- A pass whose ID fails the CRC check commits nothing (R252, R257). -/
theorem exec_pass_badCrc (hv : crc8Id id ≠ id.extractLsb' 56 8) :
    exec i s = .next (failed .crcError (searchEnded (wholePassAnswered s u cl rb rc b c rest))) := by
  obtain ⟨hbusy, hwait⟩ := startsPass_free h hq
  rw [exec_passWhole h hq ho hp hb hc hi]
  exact congrArg Host.Outcome.next (passEnd_badCrc hbusy hwait hv)

section Candidate

variable (hv : crc8Id id = id.extractLsb' 56 8)

include hv

/-- A pass that delivers its ID (R258). -/
theorem exec_pass_delivers (hm : u.smode = .plain ∨ (u.smode = .family ∧ id.extractLsb' 0 8 = u.sfam)) :
    exec i s = .next { passCommit (passOf u b c id 64) (wholePassAnswered s u cl rb rc b c rest) with
      data := id, res := true, idrdy := true, phase := .yield } := by
  obtain ⟨hbusy, hwait⟩ := startsPass_free h hq
  rw [exec_passWhole h hq ho hp hb hc hi]
  exact congrArg Host.Outcome.next (passEnd_delivers hbusy hwait hv hm)

/-- A pass of a family search that comes to an ID of another family (R258). -/
theorem exec_pass_otherFamily (hm : u.smode = .family) (hne : id.extractLsb' 0 8 ≠ u.sfam) :
    exec i s = .next { searchEnded (passCommit (passOf u b c id 64) (wholePassAnswered s u cl rb rc b c rest)) with
      res := false } := by
  obtain ⟨hbusy, hwait⟩ := startsPass_free h hq
  rw [exec_passWhole h hq ho hp hb hc hi]
  exact congrArg Host.Outcome.next (passEnd_otherFamily hbusy hwait hv hm hne)

/-- The pass of a ping (R258, R270). -/
theorem exec_pass_ping (hm : u.smode = .ping) :
    exec i s = .next { searchEnded (passCommit (passOf u b c id 64) (wholePassAnswered s u cl rb rc b c rest)) with
      res := decide (id = u.starget) } := by
  obtain ⟨hbusy, hwait⟩ := startsPass_free h hq
  rw [exec_passWhole h hq ho hp hb hc hi]
  exact congrArg Host.Outcome.next (passEnd_ping hbusy hwait hv hm)

end Candidate

end Whole

/-- A pass that no device answers at position `n` comes to the choice there (R255). -/
theorem exec_passNoResponse (ha : u.salm = alm) (hn : n < 64) (hb : busAnswers rb rc b c n) (h1 : readsBit r1 true)
    (h2 : readsBit r2 true)
    (hid : ∀ k, k < 64 → id.getLsbD k = if k < n then choice u.plub u.sid b c k else u.sid.getLsbD k)
    (hi : s.inputs = .port (.txRx (.captured cl)) :: .port (.tx .ok) ::
      (passAnswers rb rc n ++ .port (.txRx (.captured r1)) :: .port (.txRx (.captured r2)) :: rest)) :
    exec i s = .next (passDecide (passOf u b c id n) true true (passAnswered s u
      (s.history ++ passOpening alm s.openDrain cl ++ passEvents s.idleThr rb rc (choice u.plub u.sid b c) n ++
        [bitReadEvent s.idleThr r1, bitReadEvent s.idleThr r2]) rest)) := by
  subst ha
  obtain ⟨-, -, -, -, -, -, -, hthr, -, -⟩ := startsPass_fields h
  rw [exec_passPositions h hq.1 ho hp hi,
    settle_passPositions (n := n) (by omega) (by rfl) (by rfl) (by rfl) hb (by rfl),
    settle_passNoResponse (rest := rest) h1 h2 (by rfl), passAt_eq_passOf hn.le hid]
  refine congrArg Host.Outcome.next (Eq.trans (congrArg settle ?_) settle_passDecide_running)
  simp only [running, hthr]

end Pass

/-! ### The answers to a delivery, and SEARCH_STOP -/

/-- With a branch `q` left, SEARCH_NEXT and SEARCH_SKIP_FAMILY start the next pass from it (R259, R262, R263). -/
theorem searchAnswer_startsPass (h : (i = .searchNext ∧ q = s.lub) ∨ (i = .searchSkipFamily ∧ q = s.lufb))
    (hid : s.idrdy = true) (hne : q ≠ -1) :
    startsPass i s { ok s with plub := q, lub := -1, lufb := -1, idrdy := false } := by
  obtain ⟨rfl, rfl⟩ | ⟨rfl, rfl⟩ := h
  all_goals exact ⟨hid, hne, rfl⟩

/-- A command that ends without a transaction and with IDRDY = 0 ends in `t`, with the phase IDLE. -/
theorem command_finish_idle {start body : State → Result} (hs : ∀ t, start t = command t body) (hq : Quiet s)
    (hid : t.idrdy = false) (h : body (beginCommand s) = .next (finish t)) :
    start s = .next { t with busy := s.busy, phase := .idle, wait := s.wait } := by
  obtain ⟨hbusy, hwait, -⟩ := hq
  rw [hs, command_next hbusy h, settle_of_wait rfl, hbusy, hwait, finish, hid, restPhase_false]

/-- With no branch left the search is complete (R259). -/
theorem searchAnswer_complete {skip : Bool} (hq : Quiet s) (ho : s.closed = false) (hid : s.idrdy = true)
    (hbr : (if skip then s.lufb else s.lub) = -1) :
    searchAnswer skip s = .next { ok s with
      res := false, sact := false, idrdy := false, phase := .idle, plub := -1, lub := -1, lufb := -1 } := by
  refine command_finish_idle (start := searchAnswer skip)
    (t := endSearch false { beginCommand s with plub := -1, lub := -1, lufb := -1 }) (fun _ => rfl) hq rfl ?_
  simp [hid, requireOpen, ho, searchAdvance, hbr, endSearch, clearSearch]

/-- SEARCH_STOP of a search that waits (R264). -/
theorem exec_searchStop (hq : Quiet s) (hid : s.idrdy = true) :
    exec .searchStop s = .next { ok s with sact := false, idrdy := false, phase := .idle } :=
  command_finish_idle (start := execSearchStop) (t := clearSearch (beginCommand s)) (fun _ => rfl) hq rfl (if_pos hid)

end Sys2Proof.Machine

open Sys2Proof.Machine

/-- Settles O53: SearchInit makes the pass's start, and a plain search delivers every candidate. -/
theorem plainSearchDelivers : Obligations.PlainSearchDelivers := by
  intro s alm cl rb rc b c id rest hq ho hs hp hb hc hv hi
  have hstart : startsPass (.searchStartPlain alm) s _ := ⟨hs, rfl⟩
  exact exec_pass_delivers hstart hq ho hp hb hc hi hv (.inl rfl)

/-- Settles O54: the candidate's low byte decides between the delivery and the end. -/
theorem familySearchDeliversOrEnds : Obligations.FamilySearchDeliversOrEnds := by
  intro s alm cl rb rc b c id sid fam rest hq ho hs hp hb hfam hsid hc hv hi
  have hstart : startsPass (.searchStartFamily alm) s _ := ⟨hs, fam, sid, hfam, hsid, rfl⟩
  by_cases hmem : id.extractLsb' 0 8 = fam
  · simp only [hmem, if_true, decide_true]
    exact exec_pass_delivers hstart hq ho hp hb hc hi hv (.inr ⟨rfl, hmem⟩)
  · simp only [hmem, if_false, decide_false]
    exact exec_pass_otherFamily hstart hq ho hp hb hc hi hv rfl hmem

/-- Settles O55: the target is DATA, and a ping ends at its candidate. -/
theorem pingReportsItsTarget : Obligations.PingReportsItsTarget := by
  intro s cl rb rc b c id rest hq ho hs hp hb hc hv hi
  have hstart : startsPass .searchStartPing s _ := ⟨hs, rfl⟩
  exact exec_pass_ping hstart hq ho hp hb hc hi hv rfl

/-- Settles O56: SearchAdvance ends the search where no branch is left, and else makes the next pass's start. -/
theorem searchAnswerRunsTheNextPass : Obligations.SearchAnswerRunsTheNextPass := by
  intro i q s hans hq ho hid
  refine ⟨?_, fun cl rb rc b c id rest hne hp hb hc hv hi => ⟨fun hm => ?_, fun hm hother => ?_⟩⟩
  · rintro rfl
    obtain ⟨rfl, hlub⟩ | ⟨rfl, hlufb⟩ := hans
    · exact searchAnswer_complete (skip := false) hq ho hid hlub.symm
    · exact searchAnswer_complete (skip := true) hq ho hid hlufb.symm
  · have hphase : s.phase = .yield := hq.2.2.trans (congrArg restPhase hid)
    rw [ok, hid, hphase]
    exact exec_pass_delivers (searchAnswer_startsPass hans hid hne) hq ho hp hb hc hi hv hm
  · exact exec_pass_otherFamily (searchAnswer_startsPass hans hid hne) hq ho hp hb hc hi hv hm hother

/-- Settles O57: the check stands before the commit, whatever the mode. -/
theorem badCrcEndsTheSearch : Obligations.BadCrcEndsTheSearch :=
  fun _ _ _ _ _ _ _ _ _ _ h hq ho hp hb hc hv hi => exec_pass_badCrc h hq ho hp hb hc hi hv

/-- Settles O58: ALM decides between the error, which commits nothing, and the end of the search. -/
theorem noResponseEndsTheSearch : Obligations.NoResponseEndsTheSearch := by
  intro i s u p cl r1 r2 rb rc b c id rest h hq ho hp hpos hb h1 h2 hid hi
  obtain ⟨hbusy, hwait⟩ := startsPass_free h hq
  refine ⟨fun ha => ?_, fun ha => ?_⟩
  · rw [exec_passNoResponse h hq ho hp ha hpos hb h1 h2 hid hi]
    exact congrArg Host.Outcome.next (passDecide_busError hbusy hwait ha)
  · rw [exec_passNoResponse h hq ho hp ha hpos hb h1 h2 hid hi]
    exact congrArg Host.Outcome.next (passDecide_noAlarmed hbusy hwait ha)

/-- Settles O59: the pass ends where LinkReset returns false. -/
theorem emptyBusEndsTheSearch : Obligations.EmptyBusEndsTheSearch := by
  intro i s u o rest h hq ho hnone hi
  obtain ⟨he, hp⟩ := resetAnswer_of_showsNone hnone
  exact exec_pass_noPresence h hq ho he hp hi

/-- Settles O60: it ends without a transaction. -/
theorem searchStopEndsTheSearch : Obligations.SearchStopEndsTheSearch := fun _ => exec_searchStop

end

section
/-! SUPPORT. The search-state check, the Error outcome of a transaction, and what a failing command has not written
(60_exceptions R301, R304, R305). -/

open Sys2Proof Sys2Proof.Machine Sys2Proof.Spec

namespace Sys2Proof.Machine

variable {g r : Prop} {w : Work} {s t u : State} {i : Instr} {a : PortAnswer} {x : Wait} {e : PortEvent}
  {rest : List Input}

/-! ### The search-state check -/

theorem searchStart_refused (hq : Quiet s) (hs : s.sact = true) (m : SearchMode) (alm : Bool) :
    searchStart m alm s = .next (failed .illegalCommand s) :=
  command_raise (start := searchStart m alm) (fun _ => rfl) hq (if_pos hs)

theorem searchAnswer_refused (hq : Quiet s) (hid : ¬ s.idrdy = true) (skip : Bool) :
    searchAnswer skip s = .next (failed .illegalCommand s) :=
  command_raise (start := searchAnswer skip) (fun _ => rfl) hq (if_neg hid)

theorem execSearchStop_refused (hq : Quiet s) (hid : ¬ s.idrdy = true) :
    execSearchStop s = .next (failed .illegalCommand s) :=
  command_raise (start := execSearchStop) (fun _ => rfl) hq (if_neg hid)

/-- The check of the search state is the first that a search command makes (R301, R304). -/
theorem exec_searchRefuses (hq : Quiet s) (hr : searchRefuses i s = true) :
    exec i s = .next (failed .illegalCommand s) := by
  cases i with
  | searchStartPlain | searchStartFamily | searchStartPing => exact searchStart_refused hq hr _ _
  | searchNext | searchSkipFamily => exact searchAnswer_refused hq (by simpa [searchRefuses] using hr) _
  | searchStop => exact execSearchStop_refused hq (by simpa [searchRefuses] using hr)
  | encWrite | encWriteBytes | encRead | decode | decodeBytes | reset | writeBits | writeBytes | readBits | readBytes
  | setPower | close | crc8Id | crc8Bytes | select | skip | readRom | romMatch | romSkip | romSearch | romRead
  | romSearchAlarm => cases hr

/-! ### The Error outcome of the outstanding transaction -/

/-- The Error outcome of a PortTxRx, whichever procedure issued it (41_link R173, R175, R181). -/
theorem onTxRx_error (l : List Signal) (thr : Half) (tmo : Option Nat) (od : Bool) (k : AfterTxRx) (s : State) :
    onTxRx k .error s =
      raiseIn (Wait.txRx l thr tmo od k).inPass .transport ((Wait.txRx l thr tmo od k).resume s) := by
  cases k with
  | linkReset k | linkRead n k | readBytes n => rfl

/-- What an error leaves, whether it ends a search or not (60_exceptions R305). -/
theorem raiseIn_eq (b : Bool) (e : ErrKind) (s : State) :
    raiseIn b e s = { failed e s with
      busy := false, wait := none, phase := restPhase (s.idrdy && !b), sact := s.sact && !b,
      idrdy := s.idrdy && !b } := by
  cases b with
  | true => simp [raiseIn, raise, finish, clearSearch]
  | false => simp [raiseIn, raise, finish]

/-- An answer with which the outstanding transaction `x` fails ends the command: no answer behind it is taken. -/
theorem step_transportError (hx : s.wait = some x) (hi : s.inputs = .port a :: rest)
    (hd : deliver a (withInputs rest s) =
      some (raiseIn x.inPass .transport (x.resume (logEvent e (withInputs rest s))))) :
    step s = .next { failed .transport s with
      busy := false, wait := none, phase := restPhase (s.idrdy && !waitIs Wait.inPass s), inputs := rest,
      history := s.history ++ [e], idleThr := if waitIs Wait.isReset s then s.savedThr else s.idleThr,
      sact := s.sact && !waitIs Wait.inPass s, idrdy := s.idrdy && !waitIs Wait.inPass s } := by
  have hend : portAnswer a (withInputs rest s) =
      raiseIn x.inPass .transport (x.resume (logEvent e (withInputs rest s))) := by
    rw [portAnswer, hd]
    exact settle_of_wait (by simp [raiseIn])
  rw [step_cons hi, stepInput, hend, raiseIn_eq, waitIs_some hx, waitIs_some hx]
  cases hr : x.isReset <;> simp [Wait.resume, hr, logEvent, withInputs, setIdleThr]

/-! ### The results -/

/-- What a command can return to the host: DATA, RES, CRC, SIG_LEN, SIGBUF and DATABUF. -/
def results (s : State) : Long × Bool × Byte × Half × List (Nat × Signal) × List Host.Cell :=
  (s.data, s.res, s.crc, s.sigLen, s.sigbuf, s.databuf)

/-- From `s` to `u` the command has ended without an error, or it has written no result; ERR is 0 while it waits. -/
def NoResultOnError (s u : State) : Prop :=
  (u.wait = none ∧ u.err = false) ∨ (results u = results s ∧ (u.wait ≠ none → u.err = false))

theorem NoResultOnError.ended (hw : u.wait = none) (he : u.err = false) : NoResultOnError s u := .inl ⟨hw, he⟩

theorem NoResultOnError.raised (hr : results u = results s) (hw : u.wait = none) : NoResultOnError s u :=
  .inr ⟨hr, fun h => absurd hw h⟩

theorem NoResultOnError.waits (hr : results u = results s) (he : u.err = false) : NoResultOnError s u :=
  .inr ⟨hr, fun _ => he⟩

theorem NoResultOnError.results_eq (h : NoResultOnError s u) (he : u.err = true) : results u = results s := by
  obtain ⟨-, he'⟩ | ⟨hr, -⟩ := h
  · exact absurd (he'.symm.trans he) nofun
  · exact hr

theorem NoResultOnError.of_results_eq (h : NoResultOnError t u) (hr : results t = results s) : NoResultOnError s u :=
  h.imp_right fun ⟨h, hw⟩ => ⟨h.trans hr, hw⟩

theorem GoesOn.noResultOnError (h : GoesOn g s w u) (he : s.err = false) : NoResultOnError s u := by
  cases h with
  | raised _ => cases w <;> exact .raised rfl rfl
  | resetEnds _ | ends _ | data _ _ | bytes _ | noResponse | passEnds _ _ | delivers _ _ => exact .ended rfl he
  | sends _ _ _ | reads _ => exact .waits rfl he

theorem Begins.noResultOnError (h : Begins r s u) (he : s.err = false) : NoResultOnError s u := by
  cases h with
  | works hgo _ => exact hgo.noResultOnError he
  | signals _ | crc _ _ | closes | searchCompletes _ _ | searchStops => exact .ended rfl he
  | resets _ _ _ | readsBytes _ _ | searchAdvances _ _ _ _ => exact .waits rfl he
  | searchStarts m alm _ _ => cases m <;> exact .waits rfl he

/-- An answer comes to a command that waits, so it finds no result written and ERR 0. -/
theorem deliver_noResultOnError (h : NoResultOnError s t) (hd : deliver a t = some u) : NoResultOnError s u := by
  obtain ⟨x, e, hx, hgo⟩ := deliver_goesOn hd
  have hwait : t.wait ≠ none := by simp [hx]
  obtain ⟨hw, -⟩ | ⟨hr, he⟩ := h
  · exact absurd hw hwait
  · exact (hgo.noResultOnError (he hwait)).of_results_eq hr

theorem Ran.noResultOnError (h : Ran r s t) : NoResultOnError s t :=
  h.induction (P := NoResultOnError s) (fun _ _ h => h) (fun _ _ _ => deliver_noResultOnError)
    fun _ hu => hu.noResultOnError rfl

theorem portAnswer_noResultOnError (he : s.err = false) (a : PortAnswer) : NoResultOnError s (portAnswer a s) :=
  portAnswer_induction (P := NoResultOnError s) (fun _ _ h => h) (fun _ _ _ => deliver_noResultOnError)
    (.waits rfl he) a

theorem results_eq_iff : results t = results s ↔
    t.data = s.data ∧ t.res = s.res ∧ t.crc = s.crc ∧ t.sigLen = s.sigLen ∧ t.sigbuf = s.sigbuf ∧
      t.databuf = s.databuf := by
  simp [results]

end Sys2Proof.Machine

open Sys2Proof.Machine

/-- Settles O23: what has ended with an error has only waited before, and no result is written before the end. -/
theorem failingCommandWritesNoResult : Obligations.FailingCommandWritesNoResult := by
  constructor
  · intro i s t h he
    exact results_eq_iff.mp ((exec_ran h).noResultOnError.results_eq he)
  · intro s t a rest hin hs h he
    rw [step_port hin h] at he ⊢
    exact results_eq_iff.mp ((portAnswer_noResultOnError (s := withInputs rest s) hs a).results_eq he)

/-- Settles O19: the six commands make the one check first. -/
theorem searchStateCheckRefuses : Obligations.SearchStateCheckRefuses := by
  constructor
  · intro s hq hs
    exact ⟨fun _ => ⟨exec_searchRefuses hq hs, exec_searchRefuses hq hs⟩, exec_searchRefuses hq hs⟩
  · intro s hq hid
    have hr : (!s.idrdy) = true := by simp [hid]
    exact ⟨exec_searchRefuses hq hr, exec_searchRefuses hq hr, exec_searchRefuses hq hr⟩

/-- Settles O22: either kind of transaction fails alike, and a PortTx is no reset's, so it leaves the threshold. -/
theorem transportErrorEndsTheCommand : Obligations.TransportErrorEndsTheCommand := by
  constructor
  · intro s l od k rest hx hi
    have hreset : waitIs Wait.isReset s = false := waitIs_some hx
    have h := step_transportError hx hi (deliver_tx (s := withInputs rest s) hx .error)
    rwa [hreset] at h
  · intro s l thr tmo od k rest hx hi
    refine step_transportError hx hi ?_
    rw [deliver_txRx (s := withInputs rest s) hx (by simp), onTxRx_error]

end

section
/-! SUPPORT. What the host's accesses do while BUSY = 1 (70 R350, R351), and the hardware reset (70 R342). -/

open Sys2Proof Sys2Proof.Machine Sys2Proof.Spec

namespace Sys2Proof.Machine

variable {s : State} {c : Config} {off : Nat} {rest : List Input}

/-! ### The start of a command and host writes -/

theorem searchStart_busy (hb : s.busy = true) (m : SearchMode) (alm : Bool) :
    searchStart m alm s = .fault .writeWhileBusy := command_busy hb _

theorem searchAnswer_busy (hb : s.busy = true) (skip : Bool) : searchAnswer skip s = .fault .writeWhileBusy :=
  command_busy hb _

theorem sendRomByte_busy (hb : s.busy = true) (b : Byte) : sendRomByte b s = .fault .writeWhileBusy :=
  command_busy hb _

/-- Every instruction runs in the frame of a command, which does not start while BUSY = 1 (70 R350). -/
theorem exec_busy (hb : s.busy = true) (i : Instr) : exec i s = .fault .writeWhileBusy := by
  cases i with
  | searchStartPlain alm => exact searchStart_busy hb .plain alm
  | searchStartFamily alm => exact searchStart_busy hb .family alm
  | searchStartPing => exact searchStart_busy hb .ping false
  | searchNext => exact searchAnswer_busy hb false
  | searchSkipFamily => exact searchAnswer_busy hb true
  | romMatch | romSkip | romSearch | romRead | romSearchAlarm => exact sendRomByte_busy hb _
  | encWrite | encWriteBytes | encRead | decode | decodeBytes | reset | writeBits | writeBytes | readBits | readBytes
  | setPower | close | crc8Id | crc8Bytes | select | skip | readRom | searchStop =>
    rw [exec]
    exact command_busy hb _

/-- A host write while BUSY = 1 faults before the register it names is looked at. -/
theorem step_write_busy {v : Word} (hb : s.busy = true) (h : off < 0x2000) (ha : off % 4 = 0)
    (hi : s.inputs = .write (s.cfg.owcBase + off) 4 v :: rest) : step s = .fault .writeWhileBusy := by
  rw [step_cons hi]
  simp [stepInput, hostWrite, accessReg_at s.cfg h ha, hb]

/-! ### Host reads -/

/-- The reserved offsets are those where neither a register nor a buffer stands. -/
theorem regAt_eq_reserved (hc : c.wf) (h : off < 0x2000) (ha : off % 4 = 0) :
    regAt c off = .reserved ↔ reservedOffset c off := by
  refine ⟨fun hr => ⟨ha, ?_⟩, fun hr => regAt_reserved ha hr.2⟩
  obtain ⟨-, -, -, -, hdata, -⟩ := hc
  unfold regAt at hr
  -- The thirteen single registers take every aligned offset below 0x034.
  iterate 13 obtain ⟨_, hr⟩ := ite_reg hr nofun
  by_cases hlow : off < 0x100
  · omega
  rw [if_neg hlow] at hr
  by_cases hwindow : off < 0x200
  · rw [if_pos hwindow] at hr
    obtain ⟨hout, -⟩ := ite_reg hr nofun
    omega
  rw [if_neg hwindow] at hr
  by_cases hgap : off < 0x1000
  · omega
  rw [if_neg hgap] at hr
  obtain ⟨hout, -⟩ := ite_reg hr nofun
  omega

/-- A host read while BUSY = 1 of a register other than STATUS draws a free value. -/
theorem step_read_busy (hb : s.busy = true) (h : off < 0x2000) (ha : off % 4 = 0) (hs : regAt s.cfg off ≠ .status)
    (hr : regAt s.cfg off ≠ .reserved) (hi : s.inputs = .read (s.cfg.owcBase + off) 4 :: rest) :
    step s = .next { s with inputs := rest, rdata := Config.busyRead s.draws, draws := s.draws + 1 } := by
  rw [step_cons hi]
  simp only [stepInput, hostRead, withInputs_cfg, accessReg_at s.cfg h ha]
  exact if_pos ⟨hb, hs, hr⟩

/-- A reserved offset reads 0 whatever BUSY is (10_state R21). -/
theorem step_read_reserved (h : off < 0x2000) (ha : off % 4 = 0) (hr : regAt s.cfg off = .reserved)
    (hi : s.inputs = .read (s.cfg.owcBase + off) 4 :: rest) : step s = .next { s with inputs := rest, rdata := 0 } := by
  rw [step_cons hi]
  simp only [stepInput, hostRead, withInputs_cfg, accessReg_at s.cfg h ha, hr]
  exact if_neg fun hbusy => hbusy.2.2 rfl

end Sys2Proof.Machine

open Sys2Proof.Machine

/-- Settles O12: an aligned offset other than that of STATUS names a register with a free value or is reserved. -/
theorem busyReadReturnsAnyValue : Obligations.BusyReadReturnsAnyValue := by
  intro s off rest hb hc h ha hi
  have hreserved : regAt s.cfg off = .reserved ↔ reservedOffset s.cfg off := regAt_eq_reserved hc h ha
  constructor
  · intro hs hr
    exact step_read_busy hb h ha (regAt_ne_status hs) (mt hreserved.mp hr) hi
  · intro hr
    exact step_read_reserved h ha (hreserved.mpr hr) hi

/-- Settles O7: a write faults at the access, and an instruction at the frame that every one of them runs in. -/
theorem writeWhileBusyFaults : Obligations.WriteWhileBusyFaults :=
  ⟨fun _ _ _ _ hb h ha hi => step_write_busy hb h ha hi, fun _ i _ hb => exec_busy hb i⟩

/-- Settles O16: the step takes the input, and no part of the block's state plays a role in `hardReset`. -/
theorem hardwareResetComesAtAnyTime : Obligations.HardwareResetComesAtAnyTime :=
  fun _ _ hi => step_cons hi

end
